-- ==== Sys2Proof/Word.lean ====
section
/-! DEFINITION. The data types every level moves: words, addresses, 8-word lines (spec/00_scope.md R8, R12, R13). -/

namespace Sys2Proof

/-- R8: a word is 32 bits. Words are stored and moved unchanged and never computed on (R7). -/
abbrev Word := BitVec 32

/-- R8, R50: an "opaque 32-bit unsigned integer; byte-addressed". -/
abbrev Addr := BitVec 32

/-- R8, R13: a line is 8 words, word 0 first; word `k` holds the bytes at offsets `4k` to `4k+3`. -/
abbrev Line := Vector Word 8

/-- The all-zero line. -/
def Line.zero : Line := #v[0, 0, 0, 0, 0, 0, 0, 0]

end Sys2Proof
end

