-- ==== Sys2Proof/Config.lean ====
section
/-! DEFINITION. What is fixed for the machine: the geometry (R8), the parameters of R11, and the free values. -/

namespace Sys2Proof

/-- R8, R21: 512 sets. -/
def Config.l1Sets : Nat := 512

/-- R8, R21: 4 ways. -/
def Config.l1Ways : Nat := 4

/-- R8, R28: 32768 entries. -/
def Config.l2Entries : Nat := 32768

/-- R8: 8 words. -/
def Config.lineWords : Nat := 8

/-- R8: a line is 32 bytes; R9: `MEM_SIZE` "must be a multiple of 32 bytes". -/
def Config.lineBytes : Nat := 32

/-- R36, R167, D11, U3: "the scratch buffer's contents are irrelevant"; the spec gives them as `any`.
FREE VALUE (log 8): no body, so no proof can learn a value of it; draw `n` is the `n`-th scratch line. -/
opaque Config.scratchLine : Nat → Line

/-- D7, U11: parameter `COUNT_WRITEBACK_L2_MISS`, default `false`. DESIGN CHOICE (the spec's own, log 9). -/
def Config.countWritebackL2Miss : Bool := false

/-- The operand of the INIT that `State.reset` stands after. DESIGN CHOICE (log 3): the size of the source's own
scenario, "initialize memory with size 64 bytes (2 lines)" (spec/95_test_vectors.md 1.7). -/
def Config.resetSize : Nat := 64

/-- The parameters a MEM_ACCESS depends on and the spec leaves open (R11: D7 and D11), as one argument, so that a
statement can quantify over them. Not part of State. -/
structure Params where
  countWritebackL2Miss : Bool
  scratchLine : Nat → Line

/-- The parameters `exec` runs with. -/
def Config.params : Params :=
  { countWritebackL2Miss := Config.countWritebackL2Miss, scratchLine := Config.scratchLine }

end Sys2Proof
end

