-- ==== Sys2Proof/Syntax.lean ====
section
/-! DEFINITION. The operations, one constructor per row of spec/opcode_table.json (R97), and the requests that
carry them (R88 to R91). The COMB rows have no select code: a request names the function. -/

namespace Sys2Proof

/-- R85: "bit 0 = read-enable, bit 1 = write-enable; either, both, or neither may be set". -/
structure Control where
  read : Bool
  write : Bool
  deriving DecidableEq, Repr

/-- `00` (R86). -/
def Control.neither : Control := { read := false, write := false }

/-- `01`, "read-only" (R86). -/
def Control.readOnly : Control := { read := true, write := false }

/-- `10`, "write-only" (R86). -/
def Control.writeOnly : Control := { read := false, write := true }

/-- `11`, read before write (R86). -/
def Control.both : Control := { read := true, write := true }

/-- The three state bits of one way, all that the NRU arbiter reads (R150). -/
structure WayBits where
  valid : Bool
  reference : Bool
  dirty : Bool
  deriving DecidableEq, Repr

/-- The operations. R97: 6 external, 11 internal, 7 combinational. -/
inductive Instr where
  /-- R162: MEM_ACCESS with control `00`. -/
  | memTouch (address : Addr)
  /-- R163: MEM_ACCESS with control `01`. -/
  | memRead (address : Addr)
  /-- R164: MEM_ACCESS with control `10`. -/
  | memWrite (address : Addr) (writeData : Word)
  /-- R165: MEM_ACCESS with control `11`. -/
  | memRdwr (address : Addr) (writeData : Word)
  /-- R177: `memory_handle_clock_interrupt()`. -/
  | clockTick
  /-- R176: `memory_subsystem_initialize(size)`. -/
  | init (size : Nat)
  /-- R166: the L2-miss handler, cause read. -/
  | l2missR (address : Addr)
  /-- R167: the L2-miss handler, cause write. -/
  | l2missW (address : Addr)
  /-- R142. -/
  | l1Access (control : Control) (address : Addr) (writeData : Word)
  /-- R144. -/
  | l1InsertLine (address : Addr) (writeData : Line)
  /-- R141. -/
  | l1Init
  /-- R146. -/
  | l1ClearRef
  /-- R132. -/
  | l2Access (control : Control) (address : Addr) (writeData : Line)
  /-- R134. -/
  | l2InsertLine (address : Addr) (writeData : Line)
  /-- R131. -/
  | l2Init
  /-- R122. -/
  | mmAccess (control : Control) (address : Addr) (writeData : Line)
  /-- R121. -/
  | mmInit (size : Nat)
  /-- R110. -/
  | addrL1 (address : Addr)
  /-- R111. -/
  | addrL2 (address : Addr)
  /-- R112. -/
  | addrLine (address : Addr)
  /-- R113. -/
  | addrWordidx (address : Addr)
  /-- R114. -/
  | addrL1Evict (existingTag : BitVec 18) (setIndex : BitVec 9)
  /-- R115. -/
  | addrL2Evict (existingTag : BitVec 12) (index : BitVec 15)
  /-- R150: the four ways' bits, way 0 first. -/
  | nruSelect (set : Vector WayBits 4)
  deriving DecidableEq, Repr

/-- The combinational functions of one 32-bit address (R110 to R113). -/
inductive AddressFn where
  | l1
  | l2
  | line
  | wordIdx
  deriving DecidableEq, Repr

/-- A request as it stands at the block's interface. -/
inductive Request where
  /-- R88: header, the 32-bit `write_data` bus, the `size_in_bytes` input. -/
  | xreq (header : BitVec 36) (writeData : Word) (sizeInBytes : Nat)
  /-- R90: header, the 256-bit line bus, the `size_in_bytes` input of MM.INIT. -/
  | uop (header : BitVec 38) (lineBus : BitVec 256) (sizeInBytes : Nat)
  /-- R110 to R113. -/
  | address (fn : AddressFn) (input : BitVec 32)
  /-- R114: the 27-bit pair of tag and set. -/
  | l1Evict (input : BitVec 27)
  /-- R115: the 27-bit pair of tag and index. -/
  | l2Evict (input : BitVec 27)
  /-- R150: `v3 r3 d3 v2 r2 d2 v1 r1 d1 v0 r0 d0`. -/
  | nru (input : BitVec 12)
  deriving DecidableEq, Repr

/-- Why a request spells no operation (R94 (c)). -/
inductive DecodeError where
  /-- XREQ `op = 11` (R89). -/
  | reservedXreqOp
  /-- A UOP code R91 marks reserved. -/
  | reservedUopFn (unit : BitVec 2) (fn : BitVec 2)
  deriving DecidableEq, Repr

end Sys2Proof
end

