-- ==== Sys2Proof/WellFormed.lean ====
section
/-! DEFINITION. What the source asks of a request's sender. Every operand value is a legal encoding (R94), so the
operand types already hold the widths; what can be broken is a CONTRACT, which the block does not check: the step
runs an ill-formed operation all the same, as the rules say. -/

namespace Sys2Proof

/-- R55, R228 (H4): "every access is a full 32-bit word at a word-aligned address". -/
def wordAligned (a : Addr) : Bool := a.extractLsb' 0 2 == 0#2

/-- R56, R167: the address L2MISS.W is given is "always the line-aligned `evicted_address` of an L1 line". -/
def lineAligned (a : Addr) : Bool := a.extractLsb' 0 5 == 0#5

/-- R9, R224: the size "must be a multiple of 32 bytes". -/
def sizeAligned (size : Nat) : Bool := size % Config.lineBytes == 0

/-- R44: an invalid way has reference 0 and dirty 0 (the arbiter's vectors write it `000`, spec/95 2.5). -/
def wayBitsRegular (w : WayBits) : Bool := w.valid || (!w.reference && !w.dirty)

/-- The operands keep the source's contract. The internal operations take any address (R122 "need not be
line-aligned or word-aligned", R166 "not necessarily line-aligned"), but for L2MISS.W. -/
def Instr.wellFormed : Instr → Bool
  | .memTouch a => wordAligned a
  | .memRead a => wordAligned a
  | .memWrite a _ => wordAligned a
  | .memRdwr a _ => wordAligned a
  | .clockTick => true
  | .init size => sizeAligned size
  | .l2missR _ => true
  | .l2missW a => lineAligned a
  | .l1Access _ _ _ => true
  | .l1InsertLine _ _ => true
  | .l1Init => true
  | .l1ClearRef => true
  | .l2Access _ _ _ => true
  | .l2InsertLine _ _ => true
  | .l2Init => true
  | .mmAccess _ _ _ => true
  | .mmInit size => sizeAligned size
  | .addrL1 _ => true
  | .addrL2 _ => true
  | .addrLine _ => true
  | .addrWordidx _ => true
  | .addrL1Evict _ _ => true
  | .addrL2Evict _ _ => true
  | .nruSelect s => wayBitsRegular s[0] && wayBitsRegular s[1] && wayBitsRegular s[2] && wayBitsRegular s[3]

/-- The operations of the external interface (R6, R88): what the three agents of R16 may issue. -/
def Instr.isExternal : Instr → Bool
  | .memTouch _ => true
  | .memRead _ => true
  | .memWrite _ _ => true
  | .memRdwr _ _ => true
  | .clockTick => true
  | .init _ => true
  | .l2missR _ => false
  | .l2missW _ => false
  | .l1Access _ _ _ => false
  | .l1InsertLine _ _ => false
  | .l1Init => false
  | .l1ClearRef => false
  | .l2Access _ _ _ => false
  | .l2InsertLine _ _ => false
  | .l2Init => false
  | .mmAccess _ _ _ => false
  | .mmInit _ => false
  | .addrL1 _ => false
  | .addrL2 _ => false
  | .addrLine _ => false
  | .addrWordidx _ => false
  | .addrL1Evict _ _ => false
  | .addrL2Evict _ _ => false
  | .nruSelect _ => false

/-- The combinational functions (R97): no state, no fault. -/
def Instr.isCombinational : Instr → Bool
  | .memTouch _ => false
  | .memRead _ => false
  | .memWrite _ _ => false
  | .memRdwr _ _ => false
  | .clockTick => false
  | .init _ => false
  | .l2missR _ => false
  | .l2missW _ => false
  | .l1Access _ _ _ => false
  | .l1InsertLine _ _ => false
  | .l1Init => false
  | .l1ClearRef => false
  | .l2Access _ _ _ => false
  | .l2InsertLine _ _ => false
  | .l2Init => false
  | .mmAccess _ _ _ => false
  | .mmInit _ => false
  | .addrL1 _ => true
  | .addrL2 _ => true
  | .addrLine _ => true
  | .addrWordidx _ => true
  | .addrL1Evict _ _ => true
  | .addrL2Evict _ _ => true
  | .nruSelect _ => true

end Sys2Proof
end

