-- ==== Sys2Proof/Decode.lean ====
section
/-! DEFINITION. From a request's bits to the operation (R88 to R91, R94, R95), and back. Decoding never depends on
state and is total: what spells no operation is refused by name. -/

namespace Sys2Proof

/-- R85: bit 0 = read-enable, bit 1 = write-enable. -/
def controlOfBits (c : BitVec 2) : Control := { read := c.getLsbD 0, write := c.getLsbD 1 }

/-- R85. -/
def bitsOfControl (c : Control) : BitVec 2 := BitVec.ofBool c.write ++ BitVec.ofBool c.read

/-- R90: "word `k` in bits `32k+31 : 32k`" of the line bus. -/
def lineOfBus (b : BitVec 256) : Line :=
  #v[b.extractLsb' 0 32, b.extractLsb' 32 32, b.extractLsb' 64 32, b.extractLsb' 96 32,
     b.extractLsb' 128 32, b.extractLsb' 160 32, b.extractLsb' 192 32, b.extractLsb' 224 32]

/-- R90. -/
def busOfLine (l : Line) : BitVec 256 :=
  l[7] ++ l[6] ++ l[5] ++ l[4] ++ l[3] ++ l[2] ++ l[1] ++ l[0]

/-- R90: "L1.ACCESS uses word 0 only as its single `write_data` word". -/
def wordOfBus (b : BitVec 256) : Word := b.extractLsb' 0 32

/-- R90. -/
def busOfWord (w : Word) : BitVec 256 := w.setWidth 256

/-- R150, D15: one way's `v r d` out of the 12-bit input, way `k` in bits `3k+2 : 3k`. -/
def wayBitsOf (x : BitVec 12) (k : Nat) : WayBits :=
  { valid := x.getLsbD (3 * k + 2), reference := x.getLsbD (3 * k + 1), dirty := x.getLsbD (3 * k) }

/-- R150: `v r d`. -/
def bitsOfWay (w : WayBits) : BitVec 3 :=
  BitVec.ofBool w.valid ++ BitVec.ofBool w.reference ++ BitVec.ofBool w.dirty

/-- R89: op `00`, the variant selected by `control`. -/
def decodeMemAccess (control : BitVec 2) (address : Addr) (writeData : Word) : Instr :=
  if control = 0b00#2 then .memTouch address
  else if control = 0b01#2 then .memRead address
  else if control = 0b10#2 then .memWrite address writeData
  else .memRdwr address writeData

/-- R88, R89: `op[35:34] || control[33:32] || address[31:0]`; CLOCK_TICK and INIT ignore `control` and `address`. -/
def decodeXreq (header : BitVec 36) (writeData : Word) (size : Nat) : Except DecodeError Instr :=
  let op := header.extractLsb' 34 2
  if op = 0b00#2 then .ok (decodeMemAccess (header.extractLsb' 32 2) (header.extractLsb' 0 32) writeData)
  else if op = 0b01#2 then .ok .clockTick
  else if op = 0b10#2 then .ok (.init size)
  else .error .reservedXreqOp

/-- R91, unit `00`: Main Memory. -/
def decodeMmFn (fn : BitVec 2) (control : Control) (address : Addr) (bus : BitVec 256) (size : Nat) :
    Except DecodeError Instr :=
  if fn = 0b00#2 then .ok (.mmAccess control address (lineOfBus bus))
  else if fn = 0b01#2 then .ok (.mmInit size)
  else .error (.reservedUopFn 0b00#2 fn)

/-- R91, unit `01`: L2. -/
def decodeL2Fn (fn : BitVec 2) (control : Control) (address : Addr) (bus : BitVec 256) :
    Except DecodeError Instr :=
  if fn = 0b00#2 then .ok (.l2Access control address (lineOfBus bus))
  else if fn = 0b01#2 then .ok (.l2InsertLine address (lineOfBus bus))
  else if fn = 0b10#2 then .ok .l2Init
  else .error (.reservedUopFn 0b01#2 fn)

/-- R91, unit `10`: L1. -/
def decodeL1Fn (fn : BitVec 2) (control : Control) (address : Addr) (bus : BitVec 256) : Instr :=
  if fn = 0b00#2 then .l1Access control address (wordOfBus bus)
  else if fn = 0b01#2 then .l1InsertLine address (lineOfBus bus)
  else if fn = 0b10#2 then .l1Init
  else .l1ClearRef

/-- R91, unit `11`: the controller; `fn[0]` is the cause, read 0, write 1. -/
def decodeControllerFn (fn : BitVec 2) (address : Addr) : Except DecodeError Instr :=
  if fn = 0b00#2 then .ok (.l2missR address)
  else if fn = 0b01#2 then .ok (.l2missW address)
  else .error (.reservedUopFn 0b11#2 fn)

/-- R90, R91: `unit[37:36] || fn[35:34] || control[33:32] || address[31:0]`. -/
def decodeUop (header : BitVec 38) (bus : BitVec 256) (size : Nat) : Except DecodeError Instr :=
  let unit := header.extractLsb' 36 2
  let fn := header.extractLsb' 34 2
  let control := controlOfBits (header.extractLsb' 32 2)
  let address := header.extractLsb' 0 32
  if unit = 0b00#2 then decodeMmFn fn control address bus size
  else if unit = 0b01#2 then decodeL2Fn fn control address bus
  else if unit = 0b10#2 then .ok (decodeL1Fn fn control address bus)
  else decodeControllerFn fn address

/-- R110 to R113. -/
def decodeAddressFn (fn : AddressFn) (input : BitVec 32) : Instr :=
  match fn with
  | .l1 => .addrL1 input
  | .l2 => .addrL2 input
  | .line => .addrLine input
  | .wordIdx => .addrWordidx input

/-- A request's operation. -/
def decode (r : Request) : Except DecodeError Instr :=
  match r with
  | .xreq header writeData size => decodeXreq header writeData size
  | .uop header bus size => decodeUop header bus size
  | .address fn input => .ok (decodeAddressFn fn input)
  | .l1Evict input => .ok (.addrL1Evict (input.extractLsb' 9 18) (input.extractLsb' 0 9))
  | .l2Evict input => .ok (.addrL2Evict (input.extractLsb' 15 12) (input.extractLsb' 0 15))
  | .nru input => .ok (.nruSelect #v[wayBitsOf input 0, wayBitsOf input 1, wayBitsOf input 2, wayBitsOf input 3])

/-- R88: the XREQ header. -/
def xreqHeader (op control : BitVec 2) (address : Addr) : BitVec 36 := op ++ control ++ address

/-- R90: the UOP header. -/
def uopHeader (unit fn control : BitVec 2) (address : Addr) : BitVec 38 := unit ++ fn ++ control ++ address

/-- The canonical request of an operation: ignored header bits 0 (R89, opcode_table.json's note on `x`), buses the
operation does not read 0. -/
def encode (i : Instr) : Request :=
  match i with
  | .memTouch a => .xreq (xreqHeader 0b00 0b00 a) 0 0
  | .memRead a => .xreq (xreqHeader 0b00 0b01 a) 0 0
  | .memWrite a w => .xreq (xreqHeader 0b00 0b10 a) w 0
  | .memRdwr a w => .xreq (xreqHeader 0b00 0b11 a) w 0
  | .clockTick => .xreq (xreqHeader 0b01 0b00 0) 0 0
  | .init size => .xreq (xreqHeader 0b10 0b00 0) 0 size
  | .l2missR a => .uop (uopHeader 0b11 0b00 0b00 a) 0 0
  | .l2missW a => .uop (uopHeader 0b11 0b01 0b00 a) 0 0
  | .l1Access c a w => .uop (uopHeader 0b10 0b00 (bitsOfControl c) a) (busOfWord w) 0
  | .l1InsertLine a l => .uop (uopHeader 0b10 0b01 0b00 a) (busOfLine l) 0
  | .l1Init => .uop (uopHeader 0b10 0b10 0b00 0) 0 0
  | .l1ClearRef => .uop (uopHeader 0b10 0b11 0b00 0) 0 0
  | .l2Access c a l => .uop (uopHeader 0b01 0b00 (bitsOfControl c) a) (busOfLine l) 0
  | .l2InsertLine a l => .uop (uopHeader 0b01 0b01 0b00 a) (busOfLine l) 0
  | .l2Init => .uop (uopHeader 0b01 0b10 0b00 0) 0 0
  | .mmAccess c a l => .uop (uopHeader 0b00 0b00 (bitsOfControl c) a) (busOfLine l) 0
  | .mmInit size => .uop (uopHeader 0b00 0b01 0b00 0) 0 size
  | .addrL1 a => .address .l1 a
  | .addrL2 a => .address .l2 a
  | .addrLine a => .address .line a
  | .addrWordidx a => .address .wordIdx a
  | .addrL1Evict t s => .l1Evict (t ++ s)
  | .addrL2Evict t i => .l2Evict (t ++ i)
  | .nruSelect s => .nru (bitsOfWay s[3] ++ bitsOfWay s[2] ++ bitsOfWay s[1] ++ bitsOfWay s[0])

/-- A request in canonical form: it spells an operation and every bit the operation ignores is 0. -/
def Request.canonical (r : Request) : Bool :=
  match decode r with
  | .ok i => encode i == r
  | .error _ => false

/-- The request a word of spec/opcode_table.json stands for, its operand buses zero. `nbits` is the row's width (36
XREQ, 38 UOP, 32, 27 or 12 COMB) or that width in whole bytes. DESIGN CHOICE (log 20): the table's formats share
widths, so where `nbits` does not tell them apart (40: XREQ below 2^36, UOP above; 32: ADDR.L1; 27: ADDR.L1_EVICT)
the first format or row of the table is taken. -/
def tableRequest (nbits w : Nat) : Option Request :=
  if nbits = 36 ∧ w < 2 ^ 36 then some (.xreq (BitVec.ofNat 36 w) 0 0)
  else if nbits = 38 ∧ w < 2 ^ 38 then some (.uop (BitVec.ofNat 38 w) 0 0)
  else if nbits = 40 ∧ w < 2 ^ 36 then some (.xreq (BitVec.ofNat 36 w) 0 0)
  else if nbits = 40 ∧ w < 2 ^ 38 then some (.uop (BitVec.ofNat 38 w) 0 0)
  else if nbits = 32 ∧ w < 2 ^ 32 then some (.address .l1 (BitVec.ofNat 32 w))
  else if nbits = 27 ∧ w < 2 ^ 27 then some (.l1Evict (BitVec.ofNat 27 w))
  else if (nbits = 12 ∨ nbits = 16) ∧ w < 2 ^ 12 then some (.nru (BitVec.ofNat 12 w))
  else none

/-- The operation the decoder reads from a word of spec/opcode_table.json. -/
def decodeTableWord (nbits w : Nat) : Option Instr :=
  match tableRequest nbits w with
  | none => none
  | some r =>
    match decode r with
    | .ok i => some i
    | .error _ => none

end Sys2Proof
end

