-- ==== Sys2Proof/Machine/Cells.lean ====
section
/-! DEFINITION. Sparse arrays in one canonical form: (index, value) pairs, indices strictly rising, no pair whose value
is what an unlisted index reads as. Main Memory, L1 and L2 are held so (log 6, log 7). -/

namespace Sys2Proof.Machine

/-- The listed cells of an array. -/
abbrev Cells (α : Type) := List (Nat × α)

/-- The value at index `i`; `d` is what an unlisted index reads as. -/
def Cells.get {α : Type} (d : α) : Cells α → Nat → α
  | [], _ => d
  | c :: m, i => if c.1 = i then c.2 else Cells.get d m i

/-- The array with nothing listed at `i`. -/
def Cells.without {α : Type} (m : Cells α) (i : Nat) : Cells α := m.filter (fun c => c.1 != i)

/-- List `(i, v)` before the first greater index. -/
def Cells.place {α : Type} : Cells α → Nat → α → Cells α
  | [], i, v => [(i, v)]
  | c :: m, i, v => if i < c.1 then (i, v) :: c :: m else c :: Cells.place m i v

/-- Write `v` at `i`; a value equal to `d` is not listed. -/
def Cells.set {α : Type} [DecidableEq α] (d : α) (m : Cells α) (i : Nat) (v : α) : Cells α :=
  if v = d then Cells.without m i else Cells.place (Cells.without m i) i v

/-- Apply `f` to every cell (for an `f` with `f d = d`: to every index, listed or not). -/
def Cells.mapAll {α : Type} [DecidableEq α] (d : α) (f : α → α) : Cells α → Cells α
  | [] => []
  | c :: m => Cells.set d (Cells.mapAll d f m) c.1 (f c.2)

/-- The indices rise strictly. -/
def Cells.rising {α : Type} : Cells α → Bool
  | [] => true
  | c :: m => m.all (fun c' => decide (c.1 < c'.1)) && Cells.rising m

/-- The canonical form, for an array of `bound` places. -/
def Cells.wf {α : Type} [DecidableEq α] (d : α) (bound : Nat) (m : Cells α) : Bool :=
  Cells.rising m && m.all (fun c => decide (c.1 < bound) && decide (c.2 ≠ d))

end Sys2Proof.Machine
end

