-- ==== Sys2Proof/Machine/State.lean ====
section
/-! DEFINITION. The state of the block (spec/10_state.md), the outputs of an operation, the reasons a step stops, and
the state after reset. Plain data. -/

namespace Sys2Proof.Machine

/-- R22: "{ valid: bool, reference: bool, dirty: bool, tag: 18-bit unsigned, line: [8 × word] }" (R40: a plain record). -/
structure L1Entry where
  valid : Bool
  reference : Bool
  dirty : Bool
  tag : BitVec 18
  line : Line
  deriving DecidableEq, Repr

/-- R21: "a fixed array of 4 entries; the unit the NRU policy searches within". -/
abbrev L1Set := Vector L1Entry 4

/-- R29: "{ valid: bool, dirty: bool, tag: 12-bit unsigned, line: [8 × word] }". -/
structure L2Entry where
  valid : Bool
  dirty : Bool
  tag : BitVec 12
  line : Line
  deriving DecidableEq, Repr

/-- R21: the sets by number, 0 to 511. -/
abbrev L1Array := Cells L1Set

/-- R28: the entries by index, 0 to 32767. -/
abbrev L2Array := Cells L2Entry

/-- R31: the words of Main Memory by word index, 0 to `MEM_SIZE/4 - 1` (log 6). -/
abbrev Memory := Cells Word

/-- What an unlisted L1 way reads as: the all-zero state word (R141), line zero (log 7). -/
def L1Entry.empty : L1Entry := { valid := false, reference := false, dirty := false, tag := 0, line := Line.zero }

/-- What an unlisted L1 set reads as (log 7). -/
def L1Set.empty : L1Set := #v[L1Entry.empty, L1Entry.empty, L1Entry.empty, L1Entry.empty]

/-- What an unlisted L2 entry reads as (log 7). -/
def L2Entry.empty : L2Entry := { valid := false, dirty := false, tag := 0, line := Line.zero }

/-- R36: `EB1`, `EB2`: a displaced line and its address. -/
structure Evicted where
  address : Addr
  data : Line
  deriving DecidableEq, Repr

/-- R160: the sub-phases of BUSY. The payload is the line buffer that is live there (R36): `FB` at P5, `EB1` at P6 to P8. -/
inductive SubPhase where
  /-- first L1 lookup -/
  | p0
  /-- count the L1 miss -/
  | p1
  /-- L2 fetch -/
  | p2
  /-- count the L2 miss and run L2MISS.R -/
  | p3
  /-- L2 fetch retry -/
  | p4
  /-- L1 fill -/
  | p5 (fb : Line)
  /-- L2 write-back -/
  | p6 (eb1 : Evicted)
  /-- run L2MISS.W -/
  | p7 (eb1 : Evicted)
  /-- L2 write-back retry -/
  | p8 (eb1 : Evicted)
  /-- L1 retry -/
  | p9
  deriving DecidableEq, Repr

/-- R38: the controller's phase. -/
inductive Phase where
  /-- no INIT has completed since power-on -/
  | uninit
  /-- initialised, no operation in progress -/
  | idle
  /-- an external operation is in progress; seen between no two steps of the model -/
  | busy (sub : SubPhase)
  /-- a fatal error has occurred -/
  | faulted
  deriving DecidableEq, Repr

/-- R98, R191 to R193. -/
inductive FaultCode where
  | configError
  | outOfRange
  | retryMiss
  deriving DecidableEq, Repr

/-- R39: {`code`, `info`}; `info` is the offending size or address. -/
structure FaultRecord where
  code : FaultCode
  info : Nat
  deriving DecidableEq, Repr

/-- R110: the L1 fields of an address. -/
structure L1Fields where
  tag : BitVec 18
  setIndex : BitVec 9
  wordOffset : BitVec 3
  deriving DecidableEq, Repr

/-- R111: the L2 fields of an address. -/
structure L2Fields where
  tag : BitVec 12
  index : BitVec 15
  deriving DecidableEq, Repr

/-- The operands of MEM_ACCESS (R161). -/
structure Access where
  control : Control
  address : Addr
  writeData : Word
  deriving DecidableEq, Repr

/-- What L1.ACCESS returns (R142) and the array it leaves. `none` is `absent` (R15). -/
structure L1Reply where
  hit : Bool
  readData : Option Word
  array : L1Array
  deriving DecidableEq, Repr

/-- What L2.ACCESS returns (R132) and the array it leaves. -/
structure L2Reply where
  hit : Bool
  readData : Option Line
  array : L2Array
  deriving DecidableEq, Repr

/-- What L1.INSERT_LINE returns (R144) and the array it leaves: `needs_writeback = 1` with `evicted_address` and
`evicted_data` is `some`, `needs_writeback = 0` with both `absent` is `none` (R15). -/
structure L1Insert where
  evicted : Option Evicted
  array : L1Array
  deriving DecidableEq, Repr

/-- What L2.INSERT_LINE returns (R134) and the array it leaves. -/
structure L2Insert where
  evicted : Option Evicted
  array : L2Array
  deriving DecidableEq, Repr

/-- The outputs of the last operation (R88, R90, R15). -/
inductive Result where
  /-- nothing is produced: no operation yet, INIT, CLOCK_TICK, an `initialize`, an L2-miss handler, or a fault (R197) -/
  | absent
  /-- MEM_ACCESS: `read_data`, produced when `control[0] = 1` (R88, R174) -/
  | memAccess (readData : Option Word)
  /-- L1.ACCESS: `hit`, `read_data` -/
  | l1Access (hit : Bool) (readData : Option Word)
  /-- L2.ACCESS: `hit`, `read_data[8]` -/
  | l2Access (hit : Bool) (readData : Option Line)
  /-- MM.ACCESS: `read_data[8]`; "MM.ACCESS and the `initialize` operations return no status" (R87) -/
  | mmAccess (readData : Option Line)
  /-- L1.INSERT_LINE, L2.INSERT_LINE: `needs_writeback` with `evicted_address` and `evicted_data` -/
  | insertLine (evicted : Option Evicted)
  /-- ADDR.L1 -/
  | l1Fields (f : L1Fields)
  /-- ADDR.L2 -/
  | l2Fields (f : L2Fields)
  /-- ADDR.LINE, ADDR.L1_EVICT, ADDR.L2_EVICT -/
  | address (a : Addr)
  /-- ADDR.WORDIDX -/
  | wordIndex (j : Nat)
  /-- NRU.SELECT -/
  | way (w : Fin 4)
  deriving DecidableEq, Repr

/-- The state of the block (R20), its outputs, and the environment's remaining operations. -/
structure State where
  /-- the L1 array (R21) -/
  l1 : L1Array
  /-- the L2 array (R28) -/
  l2 : L2Array
  /-- Main Memory (R31) -/
  mm : Memory
  /-- `MEM_SIZE` in bytes (R32), a natural number with no width (R10) -/
  memSize : Nat
  /-- R33, R35 -/
  l1MissCount : Nat
  /-- R34, R35 -/
  l2MissCount : Nat
  /-- R38 -/
  phase : Phase
  /-- R39 -/
  fault : Option FaultRecord
  /-- the outputs of the last operation (log 14) -/
  result : Result
  /-- the operations the agents have still to issue, in order (R20: an input of the step relation; log 1) -/
  requests : List Request
  /-- how many free scratch lines have been drawn (log 8) -/
  scratchDraws : Nat
  deriving DecidableEq, Repr

/-- The reasons the machine stops with a fault: NONE. The block's fatal errors have an entry the spec describes (R197:
fault record, phase FAULTED, INIT still accepted), so raising one is a next state (log 10). Safe: nothing is hidden. -/
inductive Fault where
  deriving DecidableEq, Repr

/-- The reasons a step is refused. -/
inductive Refusal where
  /-- an operation with no meaning yet; raised by `exec`'s refused arms only. Safe. -/
  | notModelled (mnemonic : String)
  /-- R222: the operation is not accepted in this phase: "An operation that is not accepted has no step: the model
  refuses it". Raised by the meanings of the external and internal operations. Safe (log 11, log 12). -/
  | notAccepted (phase : Phase)
  /-- R94 (c): the request spells no operation: "a model refuses them". Raised by `step`. Safe. -/
  | reservedCode (error : DecodeError)
  deriving DecidableEq, Repr

/-- The machine right after reset. Reset is INIT (R7, R220), so this is Table R42 with the operand
`Config.resetSize` (DESIGN CHOICE, log 3); the elements the table leaves unspecified are zero (DESIGN CHOICE, log 5). -/
def State.reset : State :=
  { l1 := []
    l2 := []
    mm := []
    memSize := Config.resetSize
    l1MissCount := 0
    l2MissCount := 0
    phase := .idle
    fault := none
    result := .absent
    requests := []
    scratchDraws := 0 }

end Sys2Proof.Machine
end

