-- ==== Sys2Proof/Machine/Operands.lean ====
section
/-! DEFINITION. The address decomposer (spec/40_address_decomposer.md) and word selection: all the operand forms there
are ("rules R81 to R83, R92 and R93 are all the operand assembly there is", R93). -/

namespace Sys2Proof.Machine

/-- R81, R110: `tag = address[31:14]`, `set_index = address[13:5]`, `word_offset = address[4:2]`. -/
def addrL1 (a : Addr) : L1Fields :=
  { tag := a.extractLsb' 14 18, setIndex := a.extractLsb' 5 9, wordOffset := a.extractLsb' 2 3 }

/-- R82, R111: `tag = address[31:20]`, `index = address[19:5]`. -/
def addrL2 (a : Addr) : L2Fields := { tag := a.extractLsb' 20 12, index := a.extractLsb' 5 15 }

/-- R112: `address & 0xFFFFFFE0`. -/
def addrLine (a : Addr) : Addr := a &&& 0xFFFFFFE0#32

/-- R83, R113: `(address & 0xFFFFFFE0) / 4`. -/
def addrWordIdx (a : Addr) : Nat := (addrLine a).toNat / 4

/-- R92, R114: `(zext_32(existing_tag) << 14) | (zext_32(set_index) << 5)`. -/
def addrL1Evict (existingTag : BitVec 18) (setIndex : BitVec 9) : Addr :=
  (existingTag.setWidth 32 <<< 14) ||| (setIndex.setWidth 32 <<< 5)

/-- R93, R115: `(zext_32(existing_tag) << 20) | (zext_32(index) << 5)`. -/
def addrL2Evict (existingTag : BitVec 12) (index : BitVec 15) : Addr :=
  (existingTag.setWidth 32 <<< 20) ||| (index.setWidth 32 <<< 5)

/-- R26: the word of a line that address bits 4:2 select. -/
def lineWord (l : Line) (k : BitVec 3) : Word := l[k.toNat]'k.isLt

/-- R26: one word of a line replaced, "the other seven words of the line are unchanged" (R142). -/
def lineSetWord (l : Line) (k : BitVec 3) (w : Word) : Line := l.set k.toNat w k.isLt

/-- Way `w` of a set (R21). -/
def wayAt {α : Type} (v : Vector α 4) (w : Fin 4) : α := v[w]

/-- Way `w` of a set replaced; "the other three ways are unchanged" (R144). -/
def putWay {α : Type} (v : Vector α 4) (w : Fin 4) (x : α) : Vector α 4 := v.set w x

end Sys2Proof.Machine
end

