-- ==== Sys2Proof/Machine/Flags.lean ====
section
/-! DEFINITION. The state bits: what each operation makes of `valid`, `reference`, `dirty` (R148), the scan of a set,
the NRU arbiter (spec/44_nru_arbiter.md), the one status bit (R87) and the fault codes (R98). -/

namespace Sys2Proof.Machine

/-- R21: "every scan of a set is in the fixed order 0, 1, 2, 3 and the first match wins". -/
def firstWay {α : Type} (v : Vector α 4) (p : α → Bool) : Option (Fin 4) :=
  if p (wayAt v 0) then some 0
  else if p (wayAt v 1) then some 1
  else if p (wayAt v 2) then some 2
  else if p (wayAt v 3) then some 3
  else none

/-- R150: the victim among four valid ways: the first (0,0), else the first (0,1), else the first (1,0), else way 0. -/
def nruVictim (set : Vector WayBits 4) : Fin 4 :=
  match firstWay set (fun w => !w.reference && !w.dirty) with
  | some w => w
  | none =>
    match firstWay set (fun w => !w.reference && w.dirty) with
    | some w => w
    | none =>
      match firstWay set (fun w => w.reference && !w.dirty) with
      | some w => w
      | none => 0

/-- R150: step 1, the first invalid way; otherwise step 2. -/
def nruSelect (set : Vector WayBits 4) : Fin 4 :=
  match firstWay set (fun w => !w.valid) with
  | some w => w
  | none => nruVictim set

/-- What the arbiter reads of an entry (R150). -/
def wayBits (e : L1Entry) : WayBits := { valid := e.valid, reference := e.reference, dirty := e.dirty }

/-- What the arbiter reads of a set (R150). -/
def setBits (set : L1Set) : Vector WayBits 4 :=
  #v[wayBits (wayAt set 0), wayBits (wayAt set 1), wayBits (wayAt set 2), wayBits (wayAt set 3)]

/-- R142: the way that hits, "the first way with valid=true and matching tag". -/
def hitWay (set : L1Set) (tag : BitVec 18) : Option (Fin 4) := firstWay set (fun e => e.valid && e.tag == tag)

/-- R142, R148: the entry after a hit: reference 1; with write-enable the word stored and dirty 1. -/
def l1Touched (c : Control) (k : BitVec 3) (writeData : Word) (e : L1Entry) : L1Entry :=
  { e with
    reference := true
    dirty := c.write || e.dirty
    line := if c.write then lineSetWord e.line k writeData else e.line }

/-- R144, R148: the entry after a fill, whatever it was: (1,0,0), new tag, new line. -/
def l1Filled (tag : BitVec 18) (line : Line) : L1Entry :=
  { valid := true, reference := false, dirty := false, tag := tag, line := line }

/-- R141: the state word cleared; "L1[s][w].line is not written". -/
def l1Cleared (e : L1Entry) : L1Entry := { e with valid := false, reference := false, dirty := false, tag := 0 }

/-- R146: the reference bit cleared. -/
def l1Aged (e : L1Entry) : L1Entry := { e with reference := false }

/-- One entry operation on the four ways of a set. -/
def eachWay (f : L1Entry → L1Entry) (set : L1Set) : L1Set :=
  #v[f (wayAt set 0), f (wayAt set 1), f (wayAt set 2), f (wayAt set 3)]

/-- R132: an entry holds the line of `tag`. -/
def l2Holds (tag : BitVec 12) (e : L2Entry) : Bool := e.valid && e.tag == tag

/-- R132: the entry after a hit with write-enable: all 8 words stored, dirty 1, `valid` and `tag` unchanged. -/
def l2Written (writeData : Line) (e : L2Entry) : L2Entry := { e with line := writeData, dirty := true }

/-- R134: the entry after an insert, whatever it was. -/
def l2Filled (tag : BitVec 12) (line : Line) : L2Entry := { valid := true, dirty := false, tag := tag, line := line }

/-- R131: the valid bit cleared; `dirty`, `tag`, `line` "are not written". -/
def l2Cleared (e : L2Entry) : L2Entry := { e with valid := false }

/-- R98: the fault codes' numbers. -/
def faultCodeNumber (c : FaultCode) : Nat :=
  match c with
  | .configError => 1
  | .outOfRange => 2
  | .retryMiss => 3

/-- R37, R87: the one status bit: 1 = hit for an `access` of L1 or L2, 1 = write-back needed for an `insert_line`;
MM.ACCESS, the `initialize` operations and the functions return none, and MEM_ACCESS shows none (R174). -/
def statusBit (r : Result) : Option (BitVec 1) :=
  match r with
  | .l1Access hit _ => some (BitVec.ofBool hit)
  | .l2Access hit _ => some (BitVec.ofBool hit)
  | .insertLine evicted => some (BitVec.ofBool evicted.isSome)
  | .absent => none
  | .memAccess _ => none
  | .mmAccess _ => none
  | .l1Fields _ => none
  | .l2Fields _ => none
  | .address _ => none
  | .wordIndex _ => none
  | .way _ => none

end Sys2Proof.Machine
end

