-- ==== Sys2Proof/Machine/Ops.lean ====
section
/-! DEFINITION. The shared operations: reading and writing the arrays, the component operations of Main Memory, L2 and
L1 (spec/41 to 43), fault entry (R197), and which phase accepts what (R222). -/

namespace Sys2Proof.Machine

/-- `L1[i]`, the four ways of a set. -/
def l1SetAt (l1 : L1Array) (i : BitVec 9) : L1Set := Cells.get L1Set.empty l1 i.toNat

/-- `L1[i][w]` (R13). -/
def l1At (l1 : L1Array) (i : BitVec 9) (w : Fin 4) : L1Entry := wayAt (l1SetAt l1 i) w

/-- `L1[i] <- set`. -/
def l1PutSet (l1 : L1Array) (i : BitVec 9) (set : L1Set) : L1Array := Cells.set L1Set.empty l1 i.toNat set

/-- `L2[i]`. -/
def l2At (l2 : L2Array) (i : BitVec 15) : L2Entry := Cells.get L2Entry.empty l2 i.toNat

/-- `L2[i] <- e`. -/
def l2Put (l2 : L2Array) (i : BitVec 15) (e : L2Entry) : L2Array := Cells.set L2Entry.empty l2 i.toNat e

/-- `MM[j]`: a word nothing has written since INIT reads 0 (R42, R121). -/
def mmWord (mm : Memory) (j : Nat) : Word := Cells.get 0 mm j

/-- `MM[j] <- w`. -/
def mmPutWord (mm : Memory) (j : Nat) (w : Word) : Memory := Cells.set 0 mm j w

/-- `[MM[j0], ..., MM[j0+7]]` (R122). -/
def mmLine (mm : Memory) (j0 : Nat) : Line :=
  #v[mmWord mm j0, mmWord mm (j0 + 1), mmWord mm (j0 + 2), mmWord mm (j0 + 3),
     mmWord mm (j0 + 4), mmWord mm (j0 + 5), mmWord mm (j0 + 6), mmWord mm (j0 + 7)]

/-- `MM[j], MM[j+1], ... <- ws`, in order. -/
def mmPutWords (mm : Memory) (j : Nat) : List Word → Memory
  | [] => mm
  | w :: ws => mmPutWords (mmPutWord mm j w) (j + 1) ws

/-- `for k in 0..7: MM[j0+k] <- line[k]` (R122). -/
def mmPutLine (mm : Memory) (j0 : Nat) (line : Line) : Memory := mmPutWords mm j0 line.toList

/-- The canonical form of Main Memory (log 6): words of `MM[0 .. size/4 - 1]` only. -/
def Memory.wf (size : Nat) (mm : Memory) : Bool := Cells.wf 0 (size / 4) mm

/-- R192: the fault of an address out of range. -/
def outOfRange (a : Addr) : FaultRecord := { code := .outOfRange, info := a.toNat }

/-- R191: the fault of a size that is no multiple of 32. -/
def configError (size : Nat) : FaultRecord := { code := .configError, info := size }

/-- R193: the guard's fault. -/
def retryMiss (a : Addr) : FaultRecord := { code := .retryMiss, info := a.toNat }

/-- R122, MM.ACCESS: the bounds check first, then the read (pre-write), then the write. -/
def mmAccess (c : Control) (a : Addr) (writeData : Line) (size : Nat) (mm : Memory) :
    Except FaultRecord (Option Line × Memory) :=
  if size ≤ a.toNat then .error (outOfRange a)
  else
    .ok (if c.read then some (mmLine mm (addrWordIdx a)) else none,
      if c.write then mmPutLine mm (addrWordIdx a) writeData else mm)

/-- R14: `MemRead(a, 32)`, "exactly MM.ACCESS with control `01`" (`memRead_eq_mmAccess`). -/
def memRead (a : Addr) (size : Nat) (mm : Memory) : Except FaultRecord Line :=
  if size ≤ a.toNat then .error (outOfRange a) else .ok (mmLine mm (addrWordIdx a))

/-- R14: `MemWrite(a, 32, v)`, "exactly MM.ACCESS with control `10`" (`memWrite_eq_mmAccess`). -/
def memWrite (a : Addr) (line : Line) (size : Nat) (mm : Memory) : Except FaultRecord Memory :=
  if size ≤ a.toNat then .error (outOfRange a) else .ok (mmPutLine mm (addrWordIdx a) line)

/-- R121, MM.INIT: the recorded size and the zero-filled words. -/
def mmInit (size : Nat) : Except FaultRecord (Nat × Memory) :=
  if size % Config.lineBytes ≠ 0 then .error (configError size) else .ok (size, [])

/-- R132: `L2[index]` if it holds the line of `a`. -/
def l2Lookup (a : Addr) (l2 : L2Array) : Option L2Entry :=
  let e := l2At l2 (addrL2 a).index
  if l2Holds (addrL2 a).tag e then some e else none

/-- R132, L2.ACCESS. -/
def l2Access (c : Control) (a : Addr) (writeData : Line) (l2 : L2Array) : L2Reply :=
  match l2Lookup a l2 with
  | none => { hit := false, readData := none, array := l2 }
  | some e =>
    { hit := true
      readData := if c.read then some e.line else none
      array := if c.write then l2Put l2 (addrL2 a).index (l2Written writeData e) else l2 }

/-- R134, L2.INSERT_LINE: total and literal (R135), no test for a line already present. -/
def l2InsertLine (a : Addr) (line : Line) (l2 : L2Array) : L2Insert :=
  let f := addrL2 a
  let e := l2At l2 f.index
  { evicted := if e.valid && e.dirty then some { address := addrL2Evict e.tag f.index, data := e.line } else none
    array := l2Put l2 f.index (l2Filled f.tag line) }

/-- R131, L2.INIT. -/
def l2Init (l2 : L2Array) : L2Array := Cells.mapAll L2Entry.empty l2Cleared l2

/-- R142, L1.ACCESS. -/
def l1Access (c : Control) (a : Addr) (writeData : Word) (l1 : L1Array) : L1Reply :=
  let f := addrL1 a
  let set := l1SetAt l1 f.setIndex
  match hitWay set f.tag with
  | none => { hit := false, readData := none, array := l1 }
  | some w =>
    { hit := true
      readData := if c.read then some (lineWord (wayAt set w).line f.wordOffset) else none
      array := l1PutSet l1 f.setIndex (putWay set w (l1Touched c f.wordOffset writeData (wayAt set w))) }

/-- R144, L1.INSERT_LINE: total and literal (R145); the way is NRU.SELECT's. -/
def l1InsertLine (a : Addr) (line : Line) (l1 : L1Array) : L1Insert :=
  let f := addrL1 a
  let set := l1SetAt l1 f.setIndex
  let w := nruSelect (setBits set)
  let e := wayAt set w
  { evicted := if e.valid && e.dirty then some { address := addrL1Evict e.tag f.setIndex, data := e.line } else none
    array := l1PutSet l1 f.setIndex (putWay set w (l1Filled f.tag line)) }

/-- R141, L1.INIT. -/
def l1Init (l1 : L1Array) : L1Array := Cells.mapAll L1Set.empty (eachWay l1Cleared) l1

/-- R146, L1.CLEAR_REF. -/
def l1ClearRef (l1 : L1Array) : L1Array := Cells.mapAll L1Set.empty (eachWay l1Aged) l1

/-- R197, fault entry: `fault <- {code, info}`, `phase <- FAULTED`, no `read_data`; every other element as it stands.
There is no return from it (R200): only INIT leaves FAULTED, and it rebuilds the state. -/
def raise (f : FaultRecord) (s : State) : State := { s with fault := some f, phase := .faulted, result := .absent }

/-- An operation that raises, or goes on: the FAULTED state, or the state it leaves. -/
def settle (r : Except State State) : State :=
  match r with
  | .error s => s
  | .ok s => s

/-- The tail both L2-miss handlers share (R166, R167): insert `sb` into L2 for `a`; write a displaced dirty line
(`EB2`) to Main Memory. -/
def l2MissFill (a : Addr) (sb : Line) (s : State) : Except State State :=
  let r := l2InsertLine a sb s.l2
  match r.evicted with
  | none => .ok { s with l2 := r.array }
  | some eb2 =>
    match memWrite eb2.address eb2.data s.memSize s.mm with
    | .error f => .error (raise f { s with l2 := r.array })
    | .ok mm => .ok { s with l2 := r.array, mm := mm }

/-- R166, L2MISS.R: "fetch the containing line from Main Memory ... into a scratch line buffer" (`SB`), then insert. -/
def l2MissRead (a : Addr) (s : State) : Except State State :=
  match memRead a s.memSize s.mm with
  | .error f => .error (raise f s)
  | .ok sb => l2MissFill a sb s

/-- R167, L2MISS.W: no memory read; `SB` is any line: the next free one (log 8). -/
def l2MissWrite (p : Params) (a : Addr) (s : State) : Except State State :=
  l2MissFill a (p.scratchLine s.scratchDraws) { s with scratchDraws := s.scratchDraws + 1 }

/-- R222: IDLE alone accepts MEM_ACCESS and CLOCK_TICK. -/
def whenIdle (s : State) (next : State) : Host.Outcome State Fault Refusal :=
  if s.phase = .idle then .next next else .refused (.notAccepted s.phase)

/-- R176: INIT is "accepted when `phase` is UNINIT, IDLE or FAULTED, never while an operation is in progress". -/
def acceptsInit (p : Phase) : Bool :=
  match p with
  | .uninit => true
  | .idle => true
  | .faulted => true
  | .busy _ => false

/-- R222. -/
def whenAtRest (s : State) (next : State) : Host.Outcome State Fault Refusal :=
  if acceptsInit s.phase then .next next else .refused (.notAccepted s.phase)

/-- The phases an internal operation runs in: BUSY, where the controller issues it (R6), and IDLE, where a test bench
drives it directly (R231). In UNINIT "only INIT is accepted" (R41) and "the only operation accepted in FAULTED is
INIT" (R200). DESIGN CHOICE (log 12). -/
def acceptsInternal (p : Phase) : Bool :=
  match p with
  | .uninit => false
  | .idle => true
  | .faulted => false
  | .busy _ => true

/-- An internal operation's step (log 12). -/
def whenInitialised (s : State) (next : State) : Host.Outcome State Fault Refusal :=
  if acceptsInternal s.phase then .next next else .refused (.notAccepted s.phase)

/-- An operation's outputs. -/
def State.withResult (s : State) (r : Result) : State := { s with result := r }

/-- R41: power-on, before the first INIT: phase UNINIT, fault empty, every other element whatever it is (log 4). -/
def State.powerOn (any : State) : State := { any with phase := .uninit, fault := none, result := .absent }

/-- The next request, taken from the environment (log 1). -/
def fetch (s : State) : Option (Request × State) :=
  match s.requests with
  | [] => none
  | r :: rest => some (r, { s with requests := rest })

/-- `r` presented as the next request, before any other. -/
def present (r : Request) (s : State) : State := { s with requests := r :: s.requests }

end Sys2Proof.Machine
end

