-- ==== Sys2Proof/Machine/Controller.lean ====
section
/-! DEFINITION. The controller's hit/miss/evict sequence (spec/45_controller.md R160, R161): one function per
sub-phase of the machine P0 to P9, and MEM_ACCESS as the closed run of it (R6, R58: atomic). The line mover is P2 to
P5 (R168), the write-back sequencers P6 to P8 (R169) and the tail of the L2-miss handlers (R170). -/

namespace Sys2Proof.Machine

/-- Control goes to sub-phase `p`. -/
def State.goto (s : State) (p : SubPhase) : State := { s with phase := .busy p }

/-- `phase <- IDLE ; return rd`. -/
def finish (readData : Option Word) (s : State) : State := { s with phase := .idle, result := .memAccess readData }

/-- P0: `(hit, rd) = L1.ACCESS(address, write_data, control)`; a hit is the end. -/
def phase0 (q : Access) (s : State) : State :=
  let r := l1Access q.control q.address q.writeData s.l1
  if r.hit then finish r.readData { s with l1 := r.array } else s.goto .p1

/-- P1: `l1_miss_count <- l1_miss_count + 1`. -/
def phase1 (s : State) : State := { s with l1MissCount := s.l1MissCount + 1 }.goto .p2

/-- P2: `(hit2, FB) = L2.ACCESS(address, -, 01)`. A read-only access produces `read_data` exactly on a hit. -/
def phase2 (q : Access) (s : State) : State :=
  match (l2Access .readOnly q.address Line.zero s.l2).readData with
  | some fb => s.goto (.p5 fb)
  | none => s.goto .p3

/-- P3: `l2_miss_count <- l2_miss_count + 1 ; L2MISS.R(address)`, which may raise OutOfRange. -/
def phase3 (q : Access) (s : State) : State :=
  match l2MissRead q.address { s with l2MissCount := s.l2MissCount + 1 } with
  | .error faulted => faulted
  | .ok s' => s'.goto .p4

/-- P4: `(hit2, FB) = L2.ACCESS(address, -, 01)`, "it must hit now". -/
def phase4 (q : Access) (s : State) : State :=
  match (l2Access .readOnly q.address Line.zero s.l2).readData with
  | some fb => s.goto (.p5 fb)
  | none => raise (retryMiss q.address) s

/-- P5: `(wb, EB1.address, EB1.data) = L1.INSERT_LINE(address, FB)`. -/
def phase5 (q : Access) (fb : Line) (s : State) : State :=
  let r := l1InsertLine q.address fb s.l1
  match r.evicted with
  | some eb1 => { s with l1 := r.array }.goto (.p6 eb1)
  | none => { s with l1 := r.array }.goto .p9

/-- P6: `(hit3, _) = L2.ACCESS(EB1.address, EB1.data, 10)`. -/
def phase6 (eb1 : Evicted) (s : State) : State :=
  let r := l2Access .writeOnly eb1.address eb1.data s.l2
  if r.hit then { s with l2 := r.array }.goto .p9 else s.goto (.p7 eb1)

/-- P7: the count only with the parameter D7; `L2MISS.W(EB1.address)`. -/
def phase7 (p : Params) (eb1 : Evicted) (s : State) : State :=
  let n := if p.countWritebackL2Miss then s.l2MissCount + 1 else s.l2MissCount
  match l2MissWrite p eb1.address { s with l2MissCount := n } with
  | .error faulted => faulted
  | .ok s' => s'.goto (.p8 eb1)

/-- P8: `(hit3, _) = L2.ACCESS(EB1.address, EB1.data, 10)`, "it must hit now". -/
def phase8 (eb1 : Evicted) (s : State) : State :=
  let r := l2Access .writeOnly eb1.address eb1.data s.l2
  if r.hit then { s with l2 := r.array }.goto .p9 else raise (retryMiss eb1.address) s

/-- P9: `(hit, rd) = L1.ACCESS(address, write_data, control)`, "it must hit now". -/
def phase9 (q : Access) (s : State) : State :=
  let r := l1Access q.control q.address q.writeData s.l1
  if r.hit then finish r.readData { s with l1 := r.array } else raise (retryMiss q.address) s

/-- One sub-phase of a MEM_ACCESS with operands `q`; at rest nothing happens. -/
def microStep (p : Params) (q : Access) (s : State) : State :=
  match s.phase with
  | .uninit => s
  | .idle => s
  | .faulted => s
  | .busy .p0 => phase0 q s
  | .busy .p1 => phase1 s
  | .busy .p2 => phase2 q s
  | .busy .p3 => phase3 q s
  | .busy .p4 => phase4 q s
  | .busy (.p5 fb) => phase5 q fb s
  | .busy (.p6 eb1) => phase6 eb1 s
  | .busy (.p7 eb1) => phase7 p eb1 s
  | .busy (.p8 eb1) => phase8 eb1 s
  | .busy .p9 => phase9 q s

/-- `n` sub-phases. -/
def microRun (p : Params) (q : Access) : Nat → State → State
  | 0, s => s
  | n + 1, s => microRun p q n (microStep p q s)

/-- R161: MEM_ACCESS, from P0 to rest. "Control moves only forward through the phases" (R160), so ten sub-phases are
enough (`Obligations.ControlMovesForward`). -/
def memAccess (p : Params) (q : Access) (s : State) : State := microRun p q 10 (s.goto .p0)

/-- R176, INIT: Main Memory with its size check, then L1, L2, the counters (R221); a bad size leaves everything as it
was but for the fault record and the phase (R45, R197). `phase <- BUSY` in between is seen by nobody. -/
def initialise (size : Nat) (s : State) : State :=
  match mmInit size with
  | .error f => raise f s
  | .ok (memSize, mm) =>
    { s with
      memSize := memSize
      mm := mm
      l1 := l1Init s.l1
      l2 := l2Init s.l2
      l1MissCount := 0
      l2MissCount := 0
      fault := none
      phase := .idle
      result := .absent }

/-- R177, CLOCK_TICK: one L1.CLEAR_REF and nothing else (D13, log 19). -/
def tick (s : State) : State := { s with l1 := l1ClearRef s.l1, phase := .idle, result := .absent }

end Sys2Proof.Machine
end

