-- ==== Sys2Proof/Machine/Combinational.lean ====
section
/-! DEFINITION. The combinational functions as operations: the address decomposer (R110 to R115) and the NRU arbiter
(R150). They have no state and raise no fault; the value appears as `result`, in every phase (log 13). -/

namespace Sys2Proof.Machine

/-- R110. -/
def execAddrL1 (address : Addr) (s : State) : Host.Outcome State Fault Refusal :=
  .next (s.withResult (.l1Fields (addrL1 address)))

/-- R111. -/
def execAddrL2 (address : Addr) (s : State) : Host.Outcome State Fault Refusal :=
  .next (s.withResult (.l2Fields (addrL2 address)))

/-- R112. -/
def execAddrLine (address : Addr) (s : State) : Host.Outcome State Fault Refusal :=
  .next (s.withResult (.address (addrLine address)))

/-- R113. -/
def execAddrWordidx (address : Addr) (s : State) : Host.Outcome State Fault Refusal :=
  .next (s.withResult (.wordIndex (addrWordIdx address)))

/-- R114. -/
def execAddrL1Evict (existingTag : BitVec 18) (setIndex : BitVec 9) (s : State) : Host.Outcome State Fault Refusal :=
  .next (s.withResult (.address (addrL1Evict existingTag setIndex)))

/-- R115. -/
def execAddrL2Evict (existingTag : BitVec 12) (index : BitVec 15) (s : State) : Host.Outcome State Fault Refusal :=
  .next (s.withResult (.address (addrL2Evict existingTag index)))

/-- R150. -/
def execNruSelect (set : Vector WayBits 4) (s : State) : Host.Outcome State Fault Refusal :=
  .next (s.withResult (.way (nruSelect set)))

end Sys2Proof.Machine
end

