-- ==== Sys2Proof/Machine/External.lean ====
section
/-! DEFINITION. The external operations: the four MEM_ACCESS variants, CLOCK_TICK and INIT (spec/45_controller.md). -/

namespace Sys2Proof.Machine

/-- R162: MEM_ACCESS with control `00`. There is no write data; `control[1] = 0` means none is read. -/
def execMemTouch (address : Addr) (s : State) : Host.Outcome State Fault Refusal :=
  whenIdle s (memAccess Config.params { control := .neither, address := address, writeData := 0 } s)

/-- R163: MEM_ACCESS with control `01`. -/
def execMemRead (address : Addr) (s : State) : Host.Outcome State Fault Refusal :=
  whenIdle s (memAccess Config.params { control := .readOnly, address := address, writeData := 0 } s)

/-- R164: MEM_ACCESS with control `10`. -/
def execMemWrite (address : Addr) (writeData : Word) (s : State) : Host.Outcome State Fault Refusal :=
  whenIdle s (memAccess Config.params { control := .writeOnly, address := address, writeData := writeData } s)

/-- R165: MEM_ACCESS with control `11`. -/
def execMemRdwr (address : Addr) (writeData : Word) (s : State) : Host.Outcome State Fault Refusal :=
  whenIdle s (memAccess Config.params { control := .both, address := address, writeData := writeData } s)

/-- R177. -/
def execClockTick (s : State) : Host.Outcome State Fault Refusal := whenIdle s (tick s)

/-- R176. -/
def execInit (size : Nat) (s : State) : Host.Outcome State Fault Refusal := whenAtRest s (initialise size s)

end Sys2Proof.Machine
end

