-- ==== Sys2Proof/Machine/Handler.lean ====
section
/-! DEFINITION. The L2-miss handler as an operation of its own, cause read and cause write (R166, R167). -/

namespace Sys2Proof.Machine

/-- R166. A raise enters FAULTED (R197). -/
def execL2missR (address : Addr) (s : State) : Host.Outcome State Fault Refusal :=
  whenInitialised s (settle (l2MissRead address (s.withResult .absent)))

/-- R167. -/
def execL2missW (address : Addr) (s : State) : Host.Outcome State Fault Refusal :=
  whenInitialised s (settle (l2MissWrite Config.params address (s.withResult .absent)))

end Sys2Proof.Machine
end

