-- ==== Sys2Proof/Machine/L1Cache.lean ====
section
/-! DEFINITION. The operations of the L1 cache array (spec/43_l1_cache.md). "State touched: the L1 array only" (R140). -/

namespace Sys2Proof.Machine

/-- R142. -/
def execL1Access (control : Control) (address : Addr) (writeData : Word) (s : State) :
    Host.Outcome State Fault Refusal :=
  let r := l1Access control address writeData s.l1
  whenInitialised s ({ s with l1 := r.array }.withResult (.l1Access r.hit r.readData))

/-- R144. -/
def execL1InsertLine (address : Addr) (writeData : Line) (s : State) : Host.Outcome State Fault Refusal :=
  let r := l1InsertLine address writeData s.l1
  whenInitialised s ({ s with l1 := r.array }.withResult (.insertLine r.evicted))

/-- R141. -/
def execL1Init (s : State) : Host.Outcome State Fault Refusal :=
  whenInitialised s ({ s with l1 := l1Init s.l1 }.withResult .absent)

/-- R146. -/
def execL1ClearRef (s : State) : Host.Outcome State Fault Refusal :=
  whenInitialised s ({ s with l1 := l1ClearRef s.l1 }.withResult .absent)

end Sys2Proof.Machine
end

