-- ==== Sys2Proof/Machine/L2Cache.lean ====
section
/-! DEFINITION. The operations of the L2 cache array (spec/42_l2_cache.md). "State touched: the L2 array only" (R130). -/

namespace Sys2Proof.Machine

/-- R132. -/
def execL2Access (control : Control) (address : Addr) (writeData : Line) (s : State) :
    Host.Outcome State Fault Refusal :=
  let r := l2Access control address writeData s.l2
  whenInitialised s ({ s with l2 := r.array }.withResult (.l2Access r.hit r.readData))

/-- R134. -/
def execL2InsertLine (address : Addr) (writeData : Line) (s : State) : Host.Outcome State Fault Refusal :=
  let r := l2InsertLine address writeData s.l2
  whenInitialised s ({ s with l2 := r.array }.withResult (.insertLine r.evicted))

/-- R131. -/
def execL2Init (s : State) : Host.Outcome State Fault Refusal :=
  whenInitialised s ({ s with l2 := l2Init s.l2 }.withResult .absent)

end Sys2Proof.Machine
end

