-- ==== Sys2Proof/Machine/MainMemory.lean ====
section
/-! DEFINITION. The operations of Main Memory (spec/41_main_memory.md). "State touched: `MM` and `MEM_SIZE` only" (R120),
but for the fault a bad size or address raises (R197). -/

namespace Sys2Proof.Machine

/-- R122. -/
def execMmAccess (control : Control) (address : Addr) (writeData : Line) (s : State) :
    Host.Outcome State Fault Refusal :=
  whenInitialised s
    (match mmAccess control address writeData s.memSize s.mm with
    | .error f => raise f s
    | .ok (readData, mm) => { s with mm := mm }.withResult (.mmAccess readData))

/-- R121. -/
def execMmInit (size : Nat) (s : State) : Host.Outcome State Fault Refusal :=
  whenInitialised s
    (match mmInit size with
    | .error f => raise f s
    | .ok (memSize, mm) => { s with memSize := memSize, mm := mm }.withResult .absent)

end Sys2Proof.Machine
end

