-- ==== Sys2Proof/Machine/Dispatch.lean ====
section
/-! DEFINITION. One arm per operation. -/

namespace Sys2Proof.Machine

def exec (i : Instr) (s : State) : Host.Outcome State Fault Refusal :=
  match i with
  | .memTouch a => Sys2Proof.Machine.execMemTouch a s
  | .memRead a => Sys2Proof.Machine.execMemRead a s
  | .memWrite a w => Sys2Proof.Machine.execMemWrite a w s
  | .memRdwr a w => Sys2Proof.Machine.execMemRdwr a w s
  | .clockTick => Sys2Proof.Machine.execClockTick s
  | .init size => Sys2Proof.Machine.execInit size s
  | .l2missR a => Sys2Proof.Machine.execL2missR a s
  | .l2missW a => Sys2Proof.Machine.execL2missW a s
  | .l1Access c a w => Sys2Proof.Machine.execL1Access c a w s
  | .l1InsertLine a l => Sys2Proof.Machine.execL1InsertLine a l s
  | .l1Init => Sys2Proof.Machine.execL1Init s
  | .l1ClearRef => Sys2Proof.Machine.execL1ClearRef s
  | .l2Access c a l => Sys2Proof.Machine.execL2Access c a l s
  | .l2InsertLine a l => Sys2Proof.Machine.execL2InsertLine a l s
  | .l2Init => Sys2Proof.Machine.execL2Init s
  | .mmAccess c a l => Sys2Proof.Machine.execMmAccess c a l s
  | .mmInit size => Sys2Proof.Machine.execMmInit size s
  | .addrL1 a => Sys2Proof.Machine.execAddrL1 a s
  | .addrL2 a => Sys2Proof.Machine.execAddrL2 a s
  | .addrLine a => Sys2Proof.Machine.execAddrLine a s
  | .addrWordidx a => Sys2Proof.Machine.execAddrWordidx a s
  | .addrL1Evict tag set => Sys2Proof.Machine.execAddrL1Evict tag set s
  | .addrL2Evict tag index => Sys2Proof.Machine.execAddrL2Evict tag index s
  | .nruSelect set => Sys2Proof.Machine.execNruSelect set s

end Sys2Proof.Machine
end

