-- ==== Sys2Proof/Machine/Step.lean ====
section
/-! DEFINITION. One step: the environment's next operation, decoded and performed whole (R6, R16). -/

namespace Sys2Proof.Machine

/-- R6: "every operation runs to completion before the next begins". With no operation issued the block is at rest and
nothing changes (DESIGN CHOICE, log 2). A request that spells no operation is refused by name (R94). -/
def step (s : State) : Host.Outcome State Fault Refusal :=
  match fetch s with
  | none => .next s
  | some (r, s') =>
    match decode r with
    | .error e => .refused (.reservedCode e)
    | .ok i => exec i s'

/-- `s` with the table word's request presented as the next one (log 20); a word that stands for no request is
presented as a reserved XREQ header, which `step` refuses. -/
def State.withFetchWord (s : State) (nbits w : Nat) : State :=
  present ((tableRequest nbits w).getD (.xreq 0xC00000000#36 0 0)) s

end Sys2Proof.Machine
end

