-- ==== Sys2Proof/Safety.lean ====
section
/-! DEFINITION. What the claims are about: the memory a requester sees (R68), the hierarchy's invariants (R44, R67 to
R70), what an L1 miss displaces, the canonical form of the state, the frames, and a run without a fault (R197). -/

namespace Sys2Proof.Machine

/-- What stands behind L1 for the line of `a`: L2's copy if it holds the line, else Main Memory's (R68). -/
def behind (l2 : L2Array) (mm : Memory) (a : Addr) : Line :=
  match l2Lookup a l2 with
  | some e => e.line
  | none => mmLine mm (addrWordIdx a)

/-- R68: `View(a)`, "the word `a[4:2]` of the L1 entry that holds `la`, if one does; otherwise the word `a[4:2]` of
`L2[la[19:5]].line` if that entry is valid with tag `la[31:20]`; otherwise `MM[(a & ~3)/4]`". -/
def view (s : State) (a : Addr) : Word :=
  let f := addrL1 a
  let set := l1SetAt s.l1 f.setIndex
  match hitWay set f.tag with
  | some w => lineWord (wayAt set w).line f.wordOffset
  | none =>
    match l2Lookup a s.l2 with
    | some e => lineWord e.line f.wordOffset
    | none => mmWord s.mm ((a &&& 0xFFFFFFFC#32).toNat / 4)

/-- Two addresses of one word: they differ in bits 1:0 at most (R55). -/
def sameWord (a b : Addr) : Prop := a.toNat / 4 = b.toNat / 4

/-- Two addresses of one line (R112). -/
def sameLine (a b : Addr) : Prop := addrLine a = addrLine b

/-- The line of `a` is in L1 / in L2. -/
def inL1 (s : State) (a : Addr) : Bool := (hitWay (l1SetAt s.l1 (addrL1 a).setIndex) (addrL1 a).tag).isSome

/-- The line of `a` is in L2. -/
def inL2 (s : State) (a : Addr) : Bool := (l2Lookup a s.l2).isSome

/-! ### What an L1 miss on `a` displaces -/

/-- The way a fill for `a` takes: the one NRU.SELECT names in its set (R144). -/
def fillWay (s : State) (a : Addr) : Fin 4 := nruSelect (setBits (l1SetAt s.l1 (addrL1 a).setIndex))

/-- The L1 entry that fill displaces. -/
def victim (s : State) (a : Addr) : L1Entry := l1At s.l1 (addrL1 a).setIndex (fillWay s a)

/-- The address of the victim's line (R114). -/
def victimAddress (s : State) (a : Addr) : Addr := addrL1Evict (victim s a).tag (addrL1 a).setIndex

/-- The fill needs a write-back (R144). -/
abbrev dirtyVictim (s : State) (a : Addr) : Prop := (victim s a).valid = true ∧ (victim s a).dirty = true

/-- The write-back of a dirty victim misses L2 at P6: L2 has not its line, or the fetch of the line of `a` has put that
line in its place (R28: one entry an index). -/
abbrev writebackMisses (s : State) (a : Addr) : Prop :=
  dirtyVictim s a ∧ (inL2 s (victimAddress s a) = false ∨ (addrL2 (victimAddress s a)).index = (addrL2 a).index)

/-- The line of L2 entry `i` goes to Main Memory (R170): the entry is dirty, and L2MISS.R takes its place because L2 has
not the line of `a` (P3), or L2MISS.W does because it holds another line than the dirty victim's (P7). An entry that
holds the line of `a`, or the victim's (path V1 of R172), is none. -/
abbrev writtenToMemory (s : State) (a : Addr) (i : BitVec 15) : Prop :=
  (l2At s.l2 i).valid = true ∧ (l2At s.l2 i).dirty = true ∧
    ((i = (addrL2 a).index ∧ inL2 s a = false) ∨
      (dirtyVictim s a ∧ i = (addrL2 (victimAddress s a)).index ∧
        (l2At s.l2 i).tag ≠ (addrL2 (victimAddress s a)).tag))

/-- R151: the rank of a way: 0 invalid, 1 (0,0), 2 (0,1), 3 (1,0), 4 (1,1). -/
def nruRank (w : WayBits) : Nat :=
  if w.valid then (if w.reference then (if w.dirty then 4 else 3) else (if w.dirty then 2 else 1)) else 0

/-- The invariants of the hierarchy between external operations of an initialised block. -/
structure Coherent (s : State) : Prop where
  /-- R9 -/
  sizeMultiple : s.memSize % 32 = 0
  /-- R67: "within one set no two valid ways have equal tags" -/
  l1Unique : ∀ (i : BitVec 9) (v w : Fin 4), (l1At s.l1 i v).valid = true → (l1At s.l1 i w).valid = true →
    (l1At s.l1 i v).tag = (l1At s.l1 i w).tag → v = w
  /-- R44, R69 -/
  l1InvalidClear : ∀ (i : BitVec 9) (w : Fin 4), (l1At s.l1 i w).valid = false →
    (l1At s.l1 i w).reference = false ∧ (l1At s.l1 i w).dirty = false ∧ (l1At s.l1 i w).tag = 0
  /-- R70 -/
  l1InRange : ∀ (i : BitVec 9) (w : Fin 4), (l1At s.l1 i w).valid = true →
    (addrL1Evict (l1At s.l1 i w).tag i).toNat < s.memSize
  /-- R70 -/
  l2InRange : ∀ i : BitVec 15, (l2At s.l2 i).valid = true → (addrL2Evict (l2At s.l2 i).tag i).toNat < s.memSize
  /-- R24, R68: a line that is clean in L1 is not stale behind it -/
  l1CleanAgrees : ∀ (i : BitVec 9) (w : Fin 4), (l1At s.l1 i w).valid = true → (l1At s.l1 i w).dirty = false →
    (l1At s.l1 i w).line = behind s.l2 s.mm (addrL1Evict (l1At s.l1 i w).tag i)
  /-- R68: a line that is clean in L2 is not stale in Main Memory -/
  l2CleanAgrees : ∀ i : BitVec 15, (l2At s.l2 i).valid = true → (l2At s.l2 i).dirty = false →
    (l2At s.l2 i).line = mmLine s.mm (addrWordIdx (addrL2Evict (l2At s.l2 i).tag i))
  /-- R35: "`l2_miss_count <= l1_miss_count` always" -/
  missesOrdered : s.l2MissCount ≤ s.l1MissCount

/-- The arrays are in canonical form and `MEM_SIZE` is a multiple of 32 (R9): what every step keeps. -/
structure CanonicalForm (s : State) : Prop where
  sizeMultiple : s.memSize % 32 = 0
  l1 : Cells.wf L1Set.empty Config.l1Sets s.l1 = true
  l2 : Cells.wf L2Entry.empty Config.l2Entries s.l2 = true
  mm : Memory.wf s.memSize s.mm = true

/-- R38: "Between external operations `phase` is UNINIT, IDLE or FAULTED". -/
def atRest (s : State) : Bool :=
  match s.phase with
  | .uninit => true
  | .idle => true
  | .faulted => true
  | .busy _ => false

/-- R39, R197: a fault is recorded exactly in FAULTED. -/
def faultMatchesPhase (s : State) : Prop := s.fault.isSome = true ↔ s.phase = .faulted

/-- The hierarchy's invariants, claimed of an initialised block (R231: "claimed only for states reached through the
external operations"; in UNINIT the arrays are unspecified, R41). -/
def HierarchyInvariant (s : State) : Prop := s.phase = .idle → Coherent s

/-- The operation the next step performs, if its request spells one. -/
def nextOp (s : State) : Option Instr :=
  match fetch s with
  | none => none
  | some (r, _) =>
    match decode r with
    | .ok i => some i
    | .error _ => none

/-- The next step is one of the three agents' operations (R16) or a combinational function, not a leaf operation
driven from outside the controller (R231). -/
def nextIsInterfaceOp (s : State) : Prop := ∀ i, nextOp s = some i → i.isExternal = true ∨ i.isCombinational = true

/-- R197: "A claim about a run must take 'no fault recorded' as a premise or conclusion". -/
def noFault (s : State) : Prop := s.fault = none

/-- The position of a phase in the sequence P0 to P9, and past it at rest (R160: control moves only forward). -/
def phaseRank (p : Phase) : Nat :=
  match p with
  | .busy .p0 => 0
  | .busy .p1 => 1
  | .busy .p2 => 2
  | .busy .p3 => 3
  | .busy .p4 => 4
  | .busy (.p5 _) => 5
  | .busy (.p6 _) => 6
  | .busy (.p7 _) => 7
  | .busy (.p8 _) => 8
  | .busy .p9 => 9
  | .uninit => 10
  | .idle => 10
  | .faulted => 10

/-- MEM_ACCESS by its control value (R89). -/
def memInstr (c : Control) (a : Addr) (w : Word) : Instr :=
  if c.read then (if c.write then .memRdwr a w else .memRead a) else (if c.write then .memWrite a w else .memTouch a)

/-- The operations one after another; `none` if one of them has no step (R61: each completes before the next). -/
def runOps : List Instr → State → Option State
  | [], s => some s
  | i :: is, s =>
    match exec i s with
    | .next t => runOps is t
    | .fault _ => none
    | .refused _ => none

/-! ### Frames: what an operation leaves as it was -/

/-- Nothing but the L1 array and the outputs changes (R140). -/
structure OnlyL1 (s t : State) : Prop where
  l2 : t.l2 = s.l2
  mm : t.mm = s.mm
  memSize : t.memSize = s.memSize
  l1MissCount : t.l1MissCount = s.l1MissCount
  l2MissCount : t.l2MissCount = s.l2MissCount
  phase : t.phase = s.phase
  fault : t.fault = s.fault
  requests : t.requests = s.requests
  scratchDraws : t.scratchDraws = s.scratchDraws

/-- Nothing but the L2 array and the outputs changes (R130). -/
structure OnlyL2 (s t : State) : Prop where
  l1 : t.l1 = s.l1
  mm : t.mm = s.mm
  memSize : t.memSize = s.memSize
  l1MissCount : t.l1MissCount = s.l1MissCount
  l2MissCount : t.l2MissCount = s.l2MissCount
  phase : t.phase = s.phase
  fault : t.fault = s.fault
  requests : t.requests = s.requests
  scratchDraws : t.scratchDraws = s.scratchDraws

/-- Nothing but Main Memory, its size and the outputs changes (R120). -/
structure OnlyMainMemory (s t : State) : Prop where
  l1 : t.l1 = s.l1
  l2 : t.l2 = s.l2
  l1MissCount : t.l1MissCount = s.l1MissCount
  l2MissCount : t.l2MissCount = s.l2MissCount
  phase : t.phase = s.phase
  fault : t.fault = s.fault
  requests : t.requests = s.requests
  scratchDraws : t.scratchDraws = s.scratchDraws

/-- Nothing but L2, Main Memory's words, the outputs and the draw counter of log 8 changes (R166, R167). -/
structure OnlyL2AndWords (s t : State) : Prop where
  l1 : t.l1 = s.l1
  memSize : t.memSize = s.memSize
  l1MissCount : t.l1MissCount = s.l1MissCount
  l2MissCount : t.l2MissCount = s.l2MissCount
  phase : t.phase = s.phase
  fault : t.fault = s.fault
  requests : t.requests = s.requests

/-- Nothing but the outputs changes (R97: a combinational function has no state). -/
structure OnlyResult (s t : State) : Prop where
  l1 : t.l1 = s.l1
  l2 : t.l2 = s.l2
  mm : t.mm = s.mm
  memSize : t.memSize = s.memSize
  l1MissCount : t.l1MissCount = s.l1MissCount
  l2MissCount : t.l2MissCount = s.l2MissCount
  phase : t.phase = s.phase
  fault : t.fault = s.fault
  requests : t.requests = s.requests
  scratchDraws : t.scratchDraws = s.scratchDraws

/-- R197: fault entry with record `f`, every array, size and counter as in `s`. -/
structure Faulted (f : FaultRecord) (s t : State) : Prop where
  fault : t.fault = some f
  phase : t.phase = .faulted
  result : t.result = .absent
  l1 : t.l1 = s.l1
  l2 : t.l2 = s.l2
  mm : t.mm = s.mm
  memSize : t.memSize = s.memSize
  l1MissCount : t.l1MissCount = s.l1MissCount
  l2MissCount : t.l2MissCount = s.l2MissCount
  requests : t.requests = s.requests
  scratchDraws : t.scratchDraws = s.scratchDraws

/-- R198: the state at an OutOfRange fault of a MEM_ACCESS to `a`: both counters one greater, all else frozen. -/
structure FaultedAccess (a : Addr) (s t : State) : Prop where
  fault : t.fault = some { code := .outOfRange, info := a.toNat }
  phase : t.phase = .faulted
  result : t.result = .absent
  l1 : t.l1 = s.l1
  l2 : t.l2 = s.l2
  mm : t.mm = s.mm
  memSize : t.memSize = s.memSize
  l1MissCount : t.l1MissCount = s.l1MissCount + 1
  l2MissCount : t.l2MissCount = s.l2MissCount + 1
  requests : t.requests = s.requests
  scratchDraws : t.scratchDraws = s.scratchDraws

/-- What a MEM_ACCESS to `a` that ends well leaves: way `w` of the set of `a` holds the line, referenced, `dirty` as
given; no other way and no other set changes in L1; on an L1 hit nothing changes behind L1 and of the entry only
`reference`, `dirty` and the line may change; the counters count the misses (R175). -/
structure EndedAccess (a : Addr) (w : Fin 4) (dirty : Bool) (s t : State) : Prop where
  phase : t.phase = .idle
  fault : t.fault = s.fault
  memSize : t.memSize = s.memSize
  requests : t.requests = s.requests
  valid : (l1At t.l1 (addrL1 a).setIndex w).valid = true
  tag : (l1At t.l1 (addrL1 a).setIndex w).tag = (addrL1 a).tag
  reference : (l1At t.l1 (addrL1 a).setIndex w).reference = true
  dirty : (l1At t.l1 (addrL1 a).setIndex w).dirty = dirty
  otherWays : ∀ (i : BitVec 9) (u : Fin 4), ¬ (i = (addrL1 a).setIndex ∧ u = w) → l1At t.l1 i u = l1At s.l1 i u
  hit : inL1 s a = true → (l1At s.l1 (addrL1 a).setIndex w).valid = true ∧
    (l1At s.l1 (addrL1 a).setIndex w).tag = (addrL1 a).tag ∧
    t.l2 = s.l2 ∧ t.mm = s.mm ∧ t.scratchDraws = s.scratchDraws
  l1MissCount : t.l1MissCount = s.l1MissCount + (if inL1 s a then 0 else 1)
  l2MissCount : t.l2MissCount = s.l2MissCount + (if inL1 s a || inL2 s a then 0 else 1)

end Sys2Proof.Machine
end

