-- ==== Sys2Proof/Certificates/Slice0/Obligations.lean ====
section
/-! DEFINITION. The statements for the provers, in the order of OBLIGATIONS.json: encodings, the decomposer, the
arbiter, Main Memory, L2, L1, the L2-miss handler, the external operations, the rules of the whole block, and the
invariants every step keeps. Internal operations are stated for the phases that accept them (`acceptsInternal`: log 12,
the model's choice; InternalOperationsByPhase says which phases those are). -/

open Sys2Proof Sys2Proof.Machine

/-! ### Encodings -/

/-- R88 to R91, R110 to R115, R150: no bit of a request is dropped. -/
def Obligations.DecodeOfEncode : Prop := ∀ i : Instr, decode (encode i) = .ok i

/-- R89: the XREQ codes, for every `control`, address and data; CLOCK_TICK and INIT ignore `control` and `address`;
op `11` is reserved; the canonical headers are `0x4` and `0x8` followed by zeros. -/
def Obligations.XreqOpCodes : Prop :=
  ∀ (control : BitVec 2) (a : Addr) (w : Word) (size : Nat),
    decode (.xreq (xreqHeader 0b00 0b00 a) w size) = .ok (.memTouch a) ∧
    decode (.xreq (xreqHeader 0b00 0b01 a) w size) = .ok (.memRead a) ∧
    decode (.xreq (xreqHeader 0b00 0b10 a) w size) = .ok (.memWrite a w) ∧
    decode (.xreq (xreqHeader 0b00 0b11 a) w size) = .ok (.memRdwr a w) ∧
    decode (.xreq (xreqHeader 0b01 control a) w size) = .ok .clockTick ∧
    decode (.xreq (xreqHeader 0b10 control a) w size) = .ok (.init size) ∧
    decode (.xreq (xreqHeader 0b11 control a) w size) = .error .reservedXreqOp ∧
    encode .clockTick = .xreq 0x400000000#36 0 0 ∧ encode (.init size) = .xreq 0x800000000#36 0 size

/-- R91: the UOP codes, for every address, bus, size and `control` (`bits`; R85: bit 0 is read-enable, bit 1 is
write-enable); the reserved ones spell no operation. Word `k` of a line is bits `32k+31 : 32k` of the bus (R90),
L1.ACCESS takes word 0. -/
def Obligations.UopCodes : Prop :=
  ∀ (bits : BitVec 2) (a : Addr) (bus : BitVec 256) (size : Nat), ∃ (l : Line) (c : Control),
    c.read = bits.getLsbD 0 ∧ c.write = bits.getLsbD 1 ∧
    (∀ k : BitVec 3, lineWord l k = bus.extractLsb' (32 * k.toNat) 32) ∧
    decode (.uop (uopHeader 0b00 0b00 bits a) bus size) = .ok (.mmAccess c a l) ∧
    decode (.uop (uopHeader 0b00 0b01 bits a) bus size) = .ok (.mmInit size) ∧
    decode (.uop (uopHeader 0b00 0b10 bits a) bus size) = .error (.reservedUopFn 0b00 0b10) ∧
    decode (.uop (uopHeader 0b00 0b11 bits a) bus size) = .error (.reservedUopFn 0b00 0b11) ∧
    decode (.uop (uopHeader 0b01 0b00 bits a) bus size) = .ok (.l2Access c a l) ∧
    decode (.uop (uopHeader 0b01 0b01 bits a) bus size) = .ok (.l2InsertLine a l) ∧
    decode (.uop (uopHeader 0b01 0b10 bits a) bus size) = .ok .l2Init ∧
    decode (.uop (uopHeader 0b01 0b11 bits a) bus size) = .error (.reservedUopFn 0b01 0b11) ∧
    decode (.uop (uopHeader 0b10 0b00 bits a) bus size) = .ok (.l1Access c a (bus.extractLsb' 0 32)) ∧
    decode (.uop (uopHeader 0b10 0b01 bits a) bus size) = .ok (.l1InsertLine a l) ∧
    decode (.uop (uopHeader 0b10 0b10 bits a) bus size) = .ok .l1Init ∧
    decode (.uop (uopHeader 0b10 0b11 bits a) bus size) = .ok .l1ClearRef ∧
    decode (.uop (uopHeader 0b11 0b00 bits a) bus size) = .ok (.l2missR a) ∧
    decode (.uop (uopHeader 0b11 0b01 bits a) bus size) = .ok (.l2missW a) ∧
    decode (.uop (uopHeader 0b11 0b10 bits a) bus size) = .error (.reservedUopFn 0b11 0b10) ∧
    decode (.uop (uopHeader 0b11 0b11 bits a) bus size) = .error (.reservedUopFn 0b11 0b11)

/-- A sanity statement: R96's headers, and one word of each other format, written out by hand. -/
def Obligations.SampleWordsDecode : Prop :=
  decode (.xreq 0x200000024#36 0xBBBB#32 0) = .ok (.memWrite 0x24#32 0xBBBB#32) ∧
  decode (.xreq 0x100000024#36 0#32 0) = .ok (.memRead 0x24#32) ∧
  decode (.xreq 0x400000000#36 0#32 0) = .ok .clockTick ∧
  decode (.xreq 0x800000000#36 0#32 64) = .ok (.init 64) ∧
  decode (.uop 0x3000000024#38 0#256 0) = .ok (.l2missR 0x24#32) ∧
  decode (.l2Evict 0x8000#27) = .ok (.addrL2Evict 1#12 0#15)

/-- R6, R16, R95: a step takes the environment's next request and performs the operation it spells, with nothing around
it; with no request nothing happens (log 1, log 2: the model's). -/
def Obligations.StepRunsDecodedOperation : Prop :=
  (∀ (s : State) (r : Request) (rest : List Request) (i : Instr), s.requests = r :: rest → decode r = .ok i →
    step s = exec i { s with requests := rest }) ∧
  (∀ s : State, s.requests = [] → step s = .next s)

/-- The word the host presents is the operation the next step runs (log 20: the model's). -/
def Obligations.FetchedTableWordRuns : Prop :=
  ∀ (s : State) (nbits w : Nat) (i : Instr), decodeTableWord nbits w = some i →
    step (s.withFetchWord nbits w) = exec i s

/-- R94 (c): XREQ op `11` and the UOP codes R91 marks reserved spell no operation and are refused by name. -/
def Obligations.ReservedRequestsRefused : Prop :=
  ∀ (s : State) (rest : List Request) (c : BitVec 2) (a : Addr) (w : Word) (bus : BitVec 256) (size : Nat),
    (s.requests = .xreq (xreqHeader 0b11 c a) w size :: rest → step s = .refused (.reservedCode .reservedXreqOp)) ∧
    (∀ unit fn : BitVec 2, (unit, fn) ∈ [(0b00#2, 0b10#2), (0b00#2, 0b11#2), (0b01#2, 0b11#2), (0b11#2, 0b10#2),
        (0b11#2, 0b11#2)] → s.requests = .uop (uopHeader unit fn c a) bus size :: rest →
      step s = .refused (.reservedCode (.reservedUopFn unit fn)))

/-! ### The address decomposer

That a function has a step, in every phase, and leaves its value in `result` is the model's (log 13). -/

/-- R110: ADDR.L1. -/
def Obligations.AddrL1Fields : Prop :=
  ∀ (a : Addr) (s : State), ∃ t, exec (.addrL1 a) s = .next t ∧ OnlyResult s t ∧ t.result = .l1Fields (addrL1 a) ∧
    (addrL1 a).tag.toNat = a.toNat / 2 ^ 14 ∧ (addrL1 a).setIndex.toNat = a.toNat / 2 ^ 5 % 2 ^ 9 ∧
    (addrL1 a).wordOffset.toNat = a.toNat / 2 ^ 2 % 2 ^ 3

/-- R111: ADDR.L2. -/
def Obligations.AddrL2Fields : Prop :=
  ∀ (a : Addr) (s : State), ∃ t, exec (.addrL2 a) s = .next t ∧ OnlyResult s t ∧ t.result = .l2Fields (addrL2 a) ∧
    (addrL2 a).tag.toNat = a.toNat / 2 ^ 20 ∧ (addrL2 a).index.toNat = a.toNat / 2 ^ 5 % 2 ^ 15

/-- R112: ADDR.LINE clears the low five bits. -/
def Obligations.AddrLineClearsLowBits : Prop :=
  ∀ (a : Addr) (s : State), ∃ t, exec (.addrLine a) s = .next t ∧ OnlyResult s t ∧ t.result = .address (addrLine a) ∧
    (addrLine a).toNat = a.toNat / 32 * 32

/-- R113: ADDR.WORDIDX, "a natural number below 2^30, a multiple of 8". -/
def Obligations.AddrWordidxOfLine : Prop :=
  ∀ (a : Addr) (s : State), ∃ t, exec (.addrWordidx a) s = .next t ∧ OnlyResult s t ∧
    t.result = .wordIndex (addrWordIdx a) ∧ addrWordIdx a = a.toNat / 32 * 8 ∧ addrWordIdx a < 2 ^ 30 ∧
    addrWordIdx a % 8 = 0

/-- R114: ADDR.L1_EVICT and its law. -/
def Obligations.AddrL1EvictRebuildsLine : Prop :=
  ∀ (tag : BitVec 18) (set : BitVec 9) (a : Addr) (s : State),
    (∃ t, exec (.addrL1Evict tag set) s = .next t ∧ OnlyResult s t ∧ t.result = .address (addrL1Evict tag set)) ∧
    (addrL1Evict tag set).toNat = tag.toNat * 2 ^ 14 + set.toNat * 2 ^ 5 ∧
    addrL1 (addrL1Evict tag set) = { tag := tag, setIndex := set, wordOffset := 0 } ∧
    addrL1Evict (addrL1 a).tag (addrL1 a).setIndex = addrLine a

/-- R115: ADDR.L2_EVICT and its law. -/
def Obligations.AddrL2EvictRebuildsLine : Prop :=
  ∀ (tag : BitVec 12) (index : BitVec 15) (a : Addr) (s : State),
    (∃ t, exec (.addrL2Evict tag index) s = .next t ∧ OnlyResult s t ∧
      t.result = .address (addrL2Evict tag index)) ∧
    (addrL2Evict tag index).toNat = tag.toNat * 2 ^ 20 + index.toNat * 2 ^ 5 ∧
    addrL2 (addrL2Evict tag index) = { tag := tag, index := index } ∧
    addrL2Evict (addrL2 a).tag (addrL2 a).index = addrLine a

/-- R84: the L1 and L2 fields nest, so lines that collide in L2 collide in L1's set, and lines
that share an L1 set have L2 indices that differ in `index[14:9]` only. -/
def Obligations.CacheFieldsNest : Prop :=
  ∀ a b : Addr,
    (addrL1 a).setIndex = (addrL2 a).index.extractLsb' 0 9 ∧
    (addrL1 a).tag = (addrL2 a).tag ++ (addrL2 a).index.extractLsb' 9 6 ∧
    ((addrL2 a).index = (addrL2 b).index → (addrL1 a).setIndex = (addrL1 b).setIndex) ∧
    ((addrL1 a).setIndex = (addrL1 b).setIndex →
      (addrL2 a).index.extractLsb' 0 9 = (addrL2 b).index.extractLsb' 0 9)

/-- R116: tag and position name exactly one line, at both levels, and every pair is some line's. -/
def Obligations.TagAndPositionNameOneLine : Prop :=
  (∀ a b : Addr, ((addrL1 a).tag = (addrL1 b).tag ∧ (addrL1 a).setIndex = (addrL1 b).setIndex) ↔ sameLine a b) ∧
  (∀ a b : Addr, ((addrL2 a).tag = (addrL2 b).tag ∧ (addrL2 a).index = (addrL2 b).index) ↔ sameLine a b) ∧
  (∀ (tag : BitVec 18) (set : BitVec 9), ∃ a : Addr, (addrL1 a).tag = tag ∧ (addrL1 a).setIndex = set) ∧
  (∀ (tag : BitVec 12) (index : BitVec 15), ∃ a : Addr, (addrL2 a).tag = tag ∧ (addrL2 a).index = index)

/-! ### The NRU arbiter (its step: log 13, the model's) -/

/-- R150: the first invalid way; with four valid ways the first (0,0), else the first (0,1), else the first (1,0), else
way 0. -/
def Obligations.NruSelectsByPriority : Prop :=
  ∀ (set : Vector WayBits 4) (s : State), ∃ (t : State) (w : Fin 4), exec (.nruSelect set) s = .next t ∧
    OnlyResult s t ∧ t.result = .way w ∧
    (∀ u : Fin 4, (set[u]).valid = false → (set[w]).valid = false ∧ w ≤ u) ∧
    ((∀ u : Fin 4, (set[u]).valid = true) →
      (∀ u : Fin 4, (set[u]).reference = false → (set[u]).dirty = false →
        (set[w]).reference = false ∧ (set[w]).dirty = false ∧ w ≤ u) ∧
      ((∀ u : Fin 4, ¬ ((set[u]).reference = false ∧ (set[u]).dirty = false)) →
        (∀ u : Fin 4, (set[u]).reference = false → (set[u]).dirty = true →
          (set[w]).reference = false ∧ (set[w]).dirty = true ∧ w ≤ u) ∧
        ((∀ u : Fin 4, (set[u]).reference = true) →
          (∀ u : Fin 4, (set[u]).dirty = false → (set[w]).dirty = false ∧ w ≤ u) ∧
          ((∀ u : Fin 4, (set[u]).dirty = true) → w = 0))))

/-- R151: the lowest-numbered way among those of least rank. -/
def Obligations.NruSelectIsFirstOfLeastRank : Prop :=
  ∀ (set : Vector WayBits 4) (u : Fin 4),
    nruRank set[nruSelect set] ≤ nruRank set[u] ∧ (u < nruSelect set → nruRank set[nruSelect set] < nruRank set[u])

/-! ### Main Memory -/

/-- R122: MM.ACCESS: out of range it faults for every `control` and nothing moves; in range it returns the old line
with read-enable and stores the new one with write-enable. -/
def Obligations.MmAccessMovesOneLine : Prop :=
  ∀ (c : Control) (a : Addr) (d : Line) (s : State), acceptsInternal s.phase = true →
    (s.memSize ≤ a.toNat →
      ∃ t, exec (.mmAccess c a d) s = .next t ∧ Faulted { code := .outOfRange, info := a.toNat } s t) ∧
    (a.toNat < s.memSize →
      ∃ (t : State) (old : Line), exec (.mmAccess c a d) s = .next t ∧ OnlyMainMemory s t ∧ t.memSize = s.memSize ∧
        (∀ k : BitVec 3, lineWord old k = mmWord s.mm (addrWordIdx a + k.toNat)) ∧
        t.result = .mmAccess (if c.read then some old else none) ∧ statusBit t.result = none ∧
        (c.write = true → ∀ k : BitVec 3, mmWord t.mm (addrWordIdx a + k.toNat) = lineWord d k) ∧
        (∀ j : Nat, c.write = false ∨ j < addrWordIdx a ∨ addrWordIdx a + 8 ≤ j → mmWord t.mm j = mmWord s.mm j))

/-- R121: MM.INIT: a size that is no multiple of 32 faults before anything is written; any other is recorded and every
word is zero. -/
def Obligations.MmInitZeroesMemory : Prop :=
  ∀ (size : Nat) (s : State), acceptsInternal s.phase = true →
    (size % 32 ≠ 0 → ∃ t, exec (.mmInit size) s = .next t ∧ Faulted { code := .configError, info := size } s t) ∧
    (size % 32 = 0 → ∃ t, exec (.mmInit size) s = .next t ∧ OnlyMainMemory s t ∧ t.memSize = size ∧
      t.result = .absent ∧ ∀ j : Nat, mmWord t.mm j = 0)

/-- R123: a whole line is in range when any byte of it is. -/
def Obligations.WholeLineInRange : Prop :=
  ∀ (size : Nat) (a : Addr), size % 32 = 0 →
    (a.toNat < size ↔ (addrLine a).toNat + 31 < size) ∧ (a.toNat < size ↔ addrWordIdx a + 7 < size / 4)

/-! ### The L2 array -/

/-- R132: L2.ACCESS. -/
def Obligations.L2AccessHitOrMiss : Prop :=
  ∀ (c : Control) (a : Addr) (d : Line) (s : State), acceptsInternal s.phase = true →
    ∃ t, exec (.l2Access c a d) s = .next t ∧ OnlyL2 s t ∧
      (((l2At s.l2 (addrL2 a).index).valid = false ∨ (l2At s.l2 (addrL2 a).index).tag ≠ (addrL2 a).tag) →
        t.result = .l2Access false none ∧ statusBit t.result = some 0#1 ∧ t.l2 = s.l2) ∧
      ((l2At s.l2 (addrL2 a).index).valid = true → (l2At s.l2 (addrL2 a).index).tag = (addrL2 a).tag →
        t.result = .l2Access true (if c.read then some (l2At s.l2 (addrL2 a).index).line else none) ∧
        statusBit t.result = some 1#1 ∧
        l2At t.l2 (addrL2 a).index =
          { valid := true
            dirty := c.write || (l2At s.l2 (addrL2 a).index).dirty
            tag := (addrL2 a).tag
            line := if c.write then d else (l2At s.l2 (addrL2 a).index).line } ∧
        ∀ i : BitVec 15, i ≠ (addrL2 a).index → l2At t.l2 i = l2At s.l2 i)

/-- R134: L2.INSERT_LINE, which tests nothing but `valid` and `dirty` of the entry it displaces (R135). -/
def Obligations.L2InsertLineDisplacesEntry : Prop :=
  ∀ (a : Addr) (d : Line) (s : State), acceptsInternal s.phase = true →
    ∃ t, exec (.l2InsertLine a d) s = .next t ∧ OnlyL2 s t ∧
      ((l2At s.l2 (addrL2 a).index).valid = true → (l2At s.l2 (addrL2 a).index).dirty = true →
        t.result = .insertLine (some
          { address := addrL2Evict (l2At s.l2 (addrL2 a).index).tag (addrL2 a).index
            data := (l2At s.l2 (addrL2 a).index).line }) ∧ statusBit t.result = some 1#1) ∧
      (((l2At s.l2 (addrL2 a).index).valid = false ∨ (l2At s.l2 (addrL2 a).index).dirty = false) →
        t.result = .insertLine none ∧ statusBit t.result = some 0#1) ∧
      l2At t.l2 (addrL2 a).index = { valid := true, dirty := false, tag := (addrL2 a).tag, line := d } ∧
      ∀ i : BitVec 15, i ≠ (addrL2 a).index → l2At t.l2 i = l2At s.l2 i

/-- R131: L2.INIT clears every valid bit and writes nothing else. -/
def Obligations.L2InitClearsValidOnly : Prop :=
  ∀ s : State, acceptsInternal s.phase = true →
    ∃ t, exec .l2Init s = .next t ∧ OnlyL2 s t ∧ t.result = .absent ∧
      ∀ i : BitVec 15, (l2At t.l2 i).valid = false ∧ (l2At t.l2 i).dirty = (l2At s.l2 i).dirty ∧
        (l2At t.l2 i).tag = (l2At s.l2 i).tag ∧ (l2At t.l2 i).line = (l2At s.l2 i).line

/-- R136: the retry after an insert hits. -/
def Obligations.L2InsertThenReadHits : Prop :=
  ∀ (a b : Addr) (d x : Line) (s : State), acceptsInternal s.phase = true → sameLine a b →
    ∃ t u, exec (.l2InsertLine a d) s = .next t ∧ exec (.l2Access .readOnly b x) t = .next u ∧
      u.result = .l2Access true (some d)

/-- R137: two lines of one L2 index always conflict. -/
def Obligations.L2DirectMapConflict : Prop :=
  ∀ (a b : Addr) (d d' x : Line) (s : State), acceptsInternal s.phase = true →
    (addrL2 a).index = (addrL2 b).index → (addrL2 a).tag ≠ (addrL2 b).tag →
    ∃ t u v, exec (.l2InsertLine a d) s = .next t ∧ exec (.l2InsertLine b d') t = .next u ∧
      exec (.l2Access .readOnly a x) u = .next v ∧ v.result = .l2Access false none

/-! ### The L1 array -/

/-- R142: L1.ACCESS: the first way that matches, or a miss with no effect. -/
def Obligations.L1AccessFirstMatchingWay : Prop :=
  ∀ (c : Control) (a : Addr) (d : Word) (s : State), acceptsInternal s.phase = true →
    ∃ t, exec (.l1Access c a d) s = .next t ∧ OnlyL1 s t ∧
      ((∀ w : Fin 4, (l1At s.l1 (addrL1 a).setIndex w).valid = true →
          (l1At s.l1 (addrL1 a).setIndex w).tag ≠ (addrL1 a).tag) →
        t.result = .l1Access false none ∧ statusBit t.result = some 0#1 ∧ t.l1 = s.l1) ∧
      (∀ w : Fin 4, (l1At s.l1 (addrL1 a).setIndex w).valid = true →
        (l1At s.l1 (addrL1 a).setIndex w).tag = (addrL1 a).tag →
        (∀ u : Fin 4, u < w → (l1At s.l1 (addrL1 a).setIndex u).valid = true →
          (l1At s.l1 (addrL1 a).setIndex u).tag ≠ (addrL1 a).tag) →
        t.result = .l1Access true (if c.read then
          some (lineWord (l1At s.l1 (addrL1 a).setIndex w).line (addrL1 a).wordOffset) else none) ∧
        statusBit t.result = some 1#1 ∧
        (l1At t.l1 (addrL1 a).setIndex w).valid = true ∧ (l1At t.l1 (addrL1 a).setIndex w).tag = (addrL1 a).tag ∧
        (l1At t.l1 (addrL1 a).setIndex w).reference = true ∧
        (l1At t.l1 (addrL1 a).setIndex w).dirty = (c.write || (l1At s.l1 (addrL1 a).setIndex w).dirty) ∧
        (∀ k : BitVec 3, lineWord (l1At t.l1 (addrL1 a).setIndex w).line k =
          if c.write = true ∧ k = (addrL1 a).wordOffset then d
          else lineWord (l1At s.l1 (addrL1 a).setIndex w).line k) ∧
        ∀ (i : BitVec 9) (u : Fin 4), ¬ (i = (addrL1 a).setIndex ∧ u = w) → l1At t.l1 i u = l1At s.l1 i u)

/-- R144: L1.INSERT_LINE into the way NRU.SELECT names (R150), whatever the set holds (R145). -/
def Obligations.L1InsertLineFillsNruWay : Prop :=
  ∀ (a : Addr) (d : Line) (s : State), acceptsInternal s.phase = true →
    ∃ (t : State) (w : Fin 4), exec (.l1InsertLine a d) s = .next t ∧ OnlyL1 s t ∧
      w = nruSelect (setBits (l1SetAt s.l1 (addrL1 a).setIndex)) ∧
      ((l1At s.l1 (addrL1 a).setIndex w).valid = true → (l1At s.l1 (addrL1 a).setIndex w).dirty = true →
        t.result = .insertLine (some
          { address := addrL1Evict (l1At s.l1 (addrL1 a).setIndex w).tag (addrL1 a).setIndex
            data := (l1At s.l1 (addrL1 a).setIndex w).line }) ∧ statusBit t.result = some 1#1) ∧
      (((l1At s.l1 (addrL1 a).setIndex w).valid = false ∨ (l1At s.l1 (addrL1 a).setIndex w).dirty = false) →
        t.result = .insertLine none ∧ statusBit t.result = some 0#1) ∧
      l1At t.l1 (addrL1 a).setIndex w =
        { valid := true, reference := false, dirty := false, tag := (addrL1 a).tag, line := d } ∧
      ∀ (i : BitVec 9) (u : Fin 4), ¬ (i = (addrL1 a).setIndex ∧ u = w) → l1At t.l1 i u = l1At s.l1 i u

/-- R141: L1.INIT clears every state word and writes no line. -/
def Obligations.L1InitClearsStateWords : Prop :=
  ∀ s : State, acceptsInternal s.phase = true →
    ∃ t, exec .l1Init s = .next t ∧ OnlyL1 s t ∧ t.result = .absent ∧
      ∀ (i : BitVec 9) (w : Fin 4), l1At t.l1 i w =
        { valid := false, reference := false, dirty := false, tag := 0, line := (l1At s.l1 i w).line }

/-- R146: L1.CLEAR_REF clears every reference bit and changes nothing else; twice is once. -/
def Obligations.L1ClearRefAgesEveryWay : Prop :=
  ∀ s : State, acceptsInternal s.phase = true →
    ∃ t, exec .l1ClearRef s = .next t ∧ OnlyL1 s t ∧ t.result = .absent ∧
      (∀ (i : BitVec 9) (w : Fin 4), l1At t.l1 i w =
        { valid := (l1At s.l1 i w).valid, reference := false, dirty := (l1At s.l1 i w).dirty
          tag := (l1At s.l1 i w).tag, line := (l1At s.l1 i w).line }) ∧
      ∃ u, exec .l1ClearRef t = .next u ∧ ∀ (i : BitVec 9) (w : Fin 4), l1At u.l1 i w = l1At t.l1 i w

/-- R147: after a fill of an absent line every access to that line hits the way just filled. -/
def Obligations.L1InsertThenAccessHits : Prop :=
  ∀ (a b : Addr) (d : Line) (c : Control) (x : Word) (s : State), acceptsInternal s.phase = true → sameLine a b →
    (∀ w : Fin 4, (l1At s.l1 (addrL1 a).setIndex w).valid = true →
      (l1At s.l1 (addrL1 a).setIndex w).tag ≠ (addrL1 a).tag) →
    ∃ t u, exec (.l1InsertLine a d) s = .next t ∧ exec (.l1Access c b x) t = .next u ∧
      u.result = .l1Access true (if c.read then some (lineWord d (addrL1 b).wordOffset) else none) ∧
      (l1At u.l1 (addrL1 a).setIndex (nruSelect (setBits (l1SetAt s.l1 (addrL1 a).setIndex)))).reference = true

/-! ### The L2-miss handler -/

/-- R166: L2MISS.R: out of range it faults before L2 is touched; in range it fills `L2[index]` with Main Memory's line,
clean, and writes a displaced dirty line to Main Memory. That the displaced line is in range is R70. -/
def Obligations.L2MissReadFillsFromMemory : Prop :=
  ∀ (a : Addr) (s : State), acceptsInternal s.phase = true →
    (s.memSize ≤ a.toNat →
      ∃ t, exec (.l2missR a) s = .next t ∧ Faulted { code := .outOfRange, info := a.toNat } s t) ∧
    (a.toNat < s.memSize →
      ((l2At s.l2 (addrL2 a).index).valid = true → (l2At s.l2 (addrL2 a).index).dirty = true →
        (addrL2Evict (l2At s.l2 (addrL2 a).index).tag (addrL2 a).index).toNat < s.memSize) →
      ∃ (t : State) (sb : Line), exec (.l2missR a) s = .next t ∧ OnlyL2AndWords s t ∧
        t.scratchDraws = s.scratchDraws ∧ t.result = .absent ∧
        (∀ k : BitVec 3, lineWord sb k = mmWord s.mm (addrWordIdx a + k.toNat)) ∧
        l2At t.l2 (addrL2 a).index = { valid := true, dirty := false, tag := (addrL2 a).tag, line := sb } ∧
        (∀ i : BitVec 15, i ≠ (addrL2 a).index → l2At t.l2 i = l2At s.l2 i) ∧
        ((l2At s.l2 (addrL2 a).index).valid = true → (l2At s.l2 (addrL2 a).index).dirty = true →
          ∀ k : BitVec 3, mmWord t.mm
            (addrWordIdx (addrL2Evict (l2At s.l2 (addrL2 a).index).tag (addrL2 a).index) + k.toNat) =
              lineWord (l2At s.l2 (addrL2 a).index).line k) ∧
        (∀ j : Nat, ((l2At s.l2 (addrL2 a).index).valid = true → (l2At s.l2 (addrL2 a).index).dirty = true →
            j < addrWordIdx (addrL2Evict (l2At s.l2 (addrL2 a).index).tag (addrL2 a).index) ∨
            addrWordIdx (addrL2Evict (l2At s.l2 (addrL2 a).index).tag (addrL2 a).index) + 8 ≤ j) →
          mmWord t.mm j = mmWord s.mm j))

/-- R167: L2MISS.W: no memory read and no bounds check of its own address; `L2[index]` is valid and clean with the tag
of `a` and SOME line (the free scratch line, log 8: nothing is claimed of it). -/
def Obligations.L2MissWriteAllocates : Prop :=
  ∀ (a : Addr) (s : State), acceptsInternal s.phase = true →
    ((l2At s.l2 (addrL2 a).index).valid = true → (l2At s.l2 (addrL2 a).index).dirty = true →
      (addrL2Evict (l2At s.l2 (addrL2 a).index).tag (addrL2 a).index).toNat < s.memSize) →
    ∃ (t : State) (sb : Line), exec (.l2missW a) s = .next t ∧ OnlyL2AndWords s t ∧ t.result = .absent ∧
      l2At t.l2 (addrL2 a).index = { valid := true, dirty := false, tag := (addrL2 a).tag, line := sb } ∧
      (∀ i : BitVec 15, i ≠ (addrL2 a).index → l2At t.l2 i = l2At s.l2 i) ∧
      ((l2At s.l2 (addrL2 a).index).valid = true → (l2At s.l2 (addrL2 a).index).dirty = true →
        ∀ k : BitVec 3, mmWord t.mm
          (addrWordIdx (addrL2Evict (l2At s.l2 (addrL2 a).index).tag (addrL2 a).index) + k.toNat) =
            lineWord (l2At s.l2 (addrL2 a).index).line k) ∧
      (∀ j : Nat, ((l2At s.l2 (addrL2 a).index).valid = true → (l2At s.l2 (addrL2 a).index).dirty = true →
          j < addrWordIdx (addrL2Evict (l2At s.l2 (addrL2 a).index).tag (addrL2 a).index) ∨
          addrWordIdx (addrL2Evict (l2At s.l2 (addrL2 a).index).tag (addrL2 a).index) + 8 ≤ j) →
        mmWord t.mm j = mmWord s.mm j)

/-! ### The external operations -/

/-- R162: MEM_TOUCH: no data; the line ends in L1 referenced, its dirty bit as it was or 0 if just filled; otherwise
exactly the state a MEM_READ leaves. -/
def Obligations.MemTouchReferencesLine : Prop :=
  ∀ (a : Addr) (s : State), s.phase = .idle → Coherent s →
    (a.toNat < s.memSize → ∃ (t u : State) (w : Fin 4), exec (.memTouch a) s = .next t ∧
      EndedAccess a w (inL1 s a && (l1At s.l1 (addrL1 a).setIndex w).dirty) s t ∧ t.result = .memAccess none ∧
      (∀ b : Addr, view t b = view s b) ∧
      exec (.memRead a) s = .next u ∧ t = u.withResult (.memAccess none)) ∧
    (s.memSize ≤ a.toNat → ∃ t, exec (.memTouch a) s = .next t ∧ FaultedAccess a s t)

/-- R163: MEM_READ returns `View(a)`; the line ends in L1 referenced, its dirty bit unchanged, 0 if just filled. -/
def Obligations.MemReadReturnsView : Prop :=
  ∀ (a : Addr) (s : State), s.phase = .idle → Coherent s →
    (a.toNat < s.memSize → ∃ (t : State) (w : Fin 4), exec (.memRead a) s = .next t ∧
      EndedAccess a w (inL1 s a && (l1At s.l1 (addrL1 a).setIndex w).dirty) s t ∧
      t.result = .memAccess (some (view s a)) ∧ ∀ b : Addr, view t b = view s b) ∧
    (s.memSize ≤ a.toNat → ∃ t, exec (.memRead a) s = .next t ∧ FaultedAccess a s t)

/-- R164: MEM_WRITE stores the word in L1 only: behind L1 it leaves what a MEM_READ leaves; the line ends dirty and
referenced; every other word of the line and of memory is as the requester saw it. -/
def Obligations.MemWriteStoresInL1 : Prop :=
  ∀ (a : Addr) (d : Word) (s : State), s.phase = .idle → Coherent s →
    (a.toNat < s.memSize → ∃ (t : State) (w : Fin 4), exec (.memWrite a d) s = .next t ∧
      EndedAccess a w true s t ∧ t.result = .memAccess none ∧
      lineWord (l1At t.l1 (addrL1 a).setIndex w).line (addrL1 a).wordOffset = d ∧
      (∃ u, exec (.memRead a) s = .next u ∧ t.l2 = u.l2 ∧ t.mm = u.mm) ∧
      ∀ b : Addr, (sameWord a b → view t b = d) ∧ (¬ sameWord a b → view t b = view s b)) ∧
    (s.memSize ≤ a.toNat → ∃ t, exec (.memWrite a d) s = .next t ∧ FaultedAccess a s t)

/-- R165: MEM_RDWR returns the old word and leaves the new one. -/
def Obligations.MemRdwrExchanges : Prop :=
  ∀ (a : Addr) (d : Word) (s : State), s.phase = .idle → Coherent s →
    (a.toNat < s.memSize → ∃ (t : State) (w : Fin 4), exec (.memRdwr a d) s = .next t ∧
      EndedAccess a w true s t ∧ t.result = .memAccess (some (view s a)) ∧
      lineWord (l1At t.l1 (addrL1 a).setIndex w).line (addrL1 a).wordOffset = d ∧
      (∃ u, exec (.memRead a) s = .next u ∧ t.l2 = u.l2 ∧ t.mm = u.mm) ∧
      ∀ b : Addr, (sameWord a b → view t b = d) ∧ (¬ sameWord a b → view t b = view s b)) ∧
    (s.memSize ≤ a.toNat → ∃ t, exec (.memRdwr a d) s = .next t ∧ FaultedAccess a s t)

/-- R161 P1 to P8, R168 to R170: on a miss the fill takes the way NRU.SELECT names. L2 changes at the index of `a` and
at that of a dirty victim only: a dirty victim's line ends there, whole and dirty, and unless it took that place the
line of `a` is at its index, the entry as it was if L2 had it, else clean with Main Memory's words. The dirty L2 entries
displaced are in Main Memory, whole, and nothing else of it changes. -/
def Obligations.MissMovesNamedLinesOnly : Prop :=
  ∀ (c : Control) (a : Addr) (d : Word) (s : State), s.phase = .idle → Coherent s → a.toNat < s.memSize →
    inL1 s a = false →
    ∃ (t : State) (va : Addr), exec (memInstr c a d) s = .next t ∧ va = victimAddress s a ∧
      (l1At t.l1 (addrL1 a).setIndex (fillWay s a)).tag = (addrL1 a).tag ∧
      (∀ (i : BitVec 9) (u : Fin 4), ¬ (i = (addrL1 a).setIndex ∧ u = fillWay s a) → l1At t.l1 i u = l1At s.l1 i u) ∧
      (∀ i : BitVec 15, i ≠ (addrL2 a).index → (dirtyVictim s a → i ≠ (addrL2 va).index) → l2At t.l2 i = l2At s.l2 i) ∧
      (dirtyVictim s a → l2At t.l2 (addrL2 va).index =
        { valid := true, dirty := true, tag := (addrL2 va).tag, line := (victim s a).line }) ∧
      ((dirtyVictim s a → (addrL2 va).index ≠ (addrL2 a).index) →
        (inL2 s a = true → l2At t.l2 (addrL2 a).index = l2At s.l2 (addrL2 a).index) ∧
        (inL2 s a = false →
          (l2At t.l2 (addrL2 a).index).valid = true ∧ (l2At t.l2 (addrL2 a).index).dirty = false ∧
          (l2At t.l2 (addrL2 a).index).tag = (addrL2 a).tag ∧
          ∀ k : BitVec 3, lineWord (l2At t.l2 (addrL2 a).index).line k = mmWord s.mm (addrWordIdx a + k.toNat))) ∧
      (¬ dirtyVictim s a → inL2 s a = true → t.l2 = s.l2 ∧ t.mm = s.mm) ∧
      (∀ i : BitVec 15, writtenToMemory s a i → ∀ k : BitVec 3,
        mmWord t.mm (addrWordIdx (addrL2Evict (l2At s.l2 i).tag i) + k.toNat) = lineWord (l2At s.l2 i).line k) ∧
      (∀ j : Nat, (∀ i : BitVec 15, writtenToMemory s a i →
          j < addrWordIdx (addrL2Evict (l2At s.l2 i).tag i) ∨ addrWordIdx (addrL2Evict (l2At s.l2 i).tag i) + 8 ≤ j) →
        mmWord t.mm j = mmWord s.mm j)

/-- R177: CLOCK_TICK clears every reference bit and does nothing more. -/
def Obligations.ClockTickClearsReferenceBits : Prop :=
  ∀ s : State, s.phase = .idle →
    ∃ t, exec .clockTick s = .next t ∧ OnlyL1 s t ∧ t.result = .absent ∧
      ∀ (i : BitVec 9) (w : Fin 4), l1At t.l1 i w =
        { valid := (l1At s.l1 i w).valid, reference := false, dirty := (l1At s.l1 i w).dirty
          tag := (l1At s.l1 i w).tag, line := (l1At s.l1 i w).line }

/-- R42, R176: a successful INIT leaves Table R42; the elements the table leaves unspecified are as they were. -/
def Obligations.InitEstablishesResetTable : Prop :=
  ∀ (size : Nat) (s : State), acceptsInit s.phase = true → size % 32 = 0 →
    ∃ t, exec (.init size) s = .next t ∧ t.memSize = size ∧ (∀ j : Nat, mmWord t.mm j = 0) ∧
      (∀ (i : BitVec 9) (w : Fin 4), l1At t.l1 i w =
        { valid := false, reference := false, dirty := false, tag := 0, line := (l1At s.l1 i w).line }) ∧
      (∀ i : BitVec 15, l2At t.l2 i =
        { valid := false, dirty := (l2At s.l2 i).dirty, tag := (l2At s.l2 i).tag, line := (l2At s.l2 i).line }) ∧
      t.l1MissCount = 0 ∧ t.l2MissCount = 0 ∧ t.phase = .idle ∧ t.fault = none ∧ t.result = .absent ∧
      t.requests = s.requests ∧ t.scratchDraws = s.scratchDraws

/-- R45: an INIT with any other size raises ConfigError; every array, the size and the counters are exactly as before. -/
def Obligations.BadSizeInitRaisesConfigError : Prop :=
  ∀ (size : Nat) (s : State), acceptsInit s.phase = true → size % 32 ≠ 0 →
    ∃ t, exec (.init size) s = .next t ∧ Faulted { code := .configError, info := size } s t ∧
      faultCodeNumber .configError = 1

/-- R222: which external operation is accepted in which phase; what is not accepted is refused. -/
def Obligations.AcceptedOperationsByPhase : Prop :=
  ∀ (i : Instr) (s : State), i.isExternal = true →
    (s.phase = .idle → ∃ t, exec i s = .next t) ∧
    (s.phase = .uninit ∨ s.phase = .faulted →
      ((∃ size, i = .init size) → ∃ t, exec i s = .next t) ∧
      ((∀ size, i ≠ .init size) → exec i s = .refused (.notAccepted s.phase))) ∧
    (∀ p : SubPhase, s.phase = .busy p → exec i s = .refused (.notAccepted s.phase))

/-- The phases that accept an internal operation: IDLE and BUSY, not UNINIT and not FAULTED (log 12: the model's). -/
def Obligations.InternalOperationsByPhase : Prop :=
  ∀ (i : Instr) (s : State), i.isExternal = false → i.isCombinational = false →
    (s.phase = .idle → ∃ t, exec i s = .next t) ∧
    (∀ p : SubPhase, s.phase = .busy p → ∃ t, exec i s = .next t) ∧
    (s.phase = .uninit ∨ s.phase = .faulted → exec i s = .refused (.notAccepted s.phase))

/-! ### The whole block -/

/-- R68: the memory the requester sees. (i) a read returns the view; (ii) a write changes its own word of it and no
other, and an operation that does not write changes none; (iii) a tick changes none; (iv) INIT makes it zero. -/
def Obligations.RequesterSeesFlatMemory : Prop :=
  ∀ s : State, s.phase = .idle → Coherent s →
    (∀ (c : Control) (a : Addr) (d : Word), a.toNat < s.memSize →
      ∃ t, exec (memInstr c a d) s = .next t ∧
        t.result = .memAccess (if c.read then some (view s a) else none) ∧
        ∀ b : Addr, (c.write = true ∧ sameWord a b → view t b = d) ∧
          (¬ (c.write = true ∧ sameWord a b) → view t b = view s b)) ∧
    (∃ t, exec .clockTick s = .next t ∧ ∀ b : Addr, view t b = view s b) ∧
    (∀ size : Nat, size % 32 = 0 → ∃ t, exec (.init size) s = .next t ∧ ∀ b : Addr, b.toNat < size → view t b = 0)

/-- R62: the round-trip law, over any operations between the write and the read: any MEM_ACCESS in range that does not
write the word, and any ticks. -/
def Obligations.RoundTripLaw : Prop :=
  ∀ (s : State) (a : Addr) (d : Word) (between : List Instr), s.phase = .idle → Coherent s → a.toNat < s.memSize →
    (∀ i ∈ between, i = .clockTick ∨
      ∃ (c : Control) (b : Addr) (x : Word), i = memInstr c b x ∧ b.toNat < s.memSize ∧
        (c.write = true → ¬ sameWord a b)) →
    ∃ t u, runOps (.memWrite a d :: between) s = some t ∧ exec (.memRead a) t = .next u ∧
      u.result = .memAccess (some d)

/-- R199: a MEM_ACCESS faults exactly when its address is out of range. -/
def Obligations.AccessFaultsExactlyOutOfRange : Prop :=
  ∀ (c : Control) (a : Addr) (d : Word) (s : State), s.phase = .idle → Coherent s →
    ∃ t, exec (memInstr c a d) s = .next t ∧ (t.phase = .faulted ↔ s.memSize ≤ a.toNat) ∧
      (t.fault ≠ s.fault → s.memSize ≤ a.toNat)

/-- R198: the state at the fault, code 2 (R98). -/
def Obligations.OutOfRangeFaultState : Prop :=
  ∀ (c : Control) (a : Addr) (d : Word) (s : State), s.phase = .idle → Coherent s → s.memSize ≤ a.toNat →
    ∃ t, exec (memInstr c a d) s = .next t ∧ FaultedAccess a s t ∧ faultCodeNumber .outOfRange = 2

/-- R173: the only fault a MEM_ACCESS can raise is OutOfRange of its own address: no retry misses (R171) and no
write-back faults, whatever the parameters D7 and D11 are; at the fault only the counters have moved. -/
def Obligations.OnlyFaultIsOutOfRange : Prop :=
  ∀ (p : Params) (q : Access) (s : State), s.phase = .idle → Coherent s →
    ((memAccess p q s).phase = .idle ∧ (memAccess p q s).fault = s.fault) ∨
    (s.memSize ≤ q.address.toNat ∧ FaultedAccess q.address s (memAccess p q s))

/-- R195: which operation can raise what, in a state within the hierarchy's invariants. -/
def Obligations.OperationsRaiseOnlyTheirFaults : Prop :=
  ∀ (i : Instr) (s t : State), Coherent s → s.fault = none → exec i s = .next t → t.fault ≠ none →
    (∃ size, (i = .init size ∨ i = .mmInit size) ∧ t.fault = some { code := .configError, info := size }) ∨
    (∃ a : Addr, ((∃ c d, i = memInstr c a d) ∨ (∃ c l, i = .mmAccess c a l) ∨ i = .l2missR a) ∧
      t.fault = some { code := .outOfRange, info := a.toNat })

/-- R175: the miss counters: by MEM_ACCESS as the line is in L1, in L2 or in neither; by no other operation but INIT. -/
def Obligations.MissCountersCountMisses : Prop :=
  (∀ (c : Control) (a : Addr) (d : Word) (s : State), s.phase = .idle → Coherent s →
    ∃ t, exec (memInstr c a d) s = .next t ∧
      t.l1MissCount = s.l1MissCount + (if inL1 s a then 0 else 1) ∧
      t.l2MissCount = s.l2MissCount + (if inL1 s a || inL2 s a then 0 else 1)) ∧
  (∀ (i : Instr) (s t : State), (∀ c a d, i ≠ memInstr c a d) → (∀ size, i ≠ .init size) → exec i s = .next t →
    t.l1MissCount = s.l1MissCount ∧ t.l2MissCount = s.l2MissCount)

/-- R35: no operation but INIT lowers a counter, in any state. -/
def Obligations.CountersNeverDecrease : Prop :=
  ∀ (i : Instr) (s t : State), (∀ size, i ≠ .init size) → exec i s = .next t →
    s.l1MissCount ≤ t.l1MissCount ∧ s.l2MissCount ≤ t.l2MissCount

/-- R200: FAULTED is left by INIT only; an INIT that itself fails leaves the block FAULTED with the new record. -/
def Obligations.OnlyInitLeavesFaulted : Prop :=
  ∀ (i : Instr) (s t : State), s.phase = .faulted → i.isExternal = true → exec i s = .next t →
    ∃ size, i = .init size ∧ (size % 32 = 0 → t.phase = .idle ∧ t.fault = none) ∧
      (size % 32 ≠ 0 → t.phase = .faulted ∧ t.fault = some { code := .configError, info := size })

/-- R27: no external operation but INIT makes a valid L1 or L2 entry invalid, and a dirty entry of either is clean
afterwards only if another line took its place. -/
def Obligations.EntriesLeaveOnlyByDisplacement : Prop :=
  ∀ (i : Instr) (s t : State), Coherent s → i.isExternal = true → (∀ size, i ≠ .init size) → exec i s = .next t →
    (∀ (x : BitVec 9) (w : Fin 4), (l1At s.l1 x w).valid = true → (l1At t.l1 x w).valid = true ∧
      ((l1At s.l1 x w).dirty = true → (l1At t.l1 x w).dirty = false → (l1At t.l1 x w).tag ≠ (l1At s.l1 x w).tag)) ∧
    (∀ x : BitVec 15, (l2At s.l2 x).valid = true → (l2At t.l2 x).valid = true ∧
      ((l2At s.l2 x).dirty = true → (l2At t.l2 x).dirty = false → (l2At t.l2 x).tag ≠ (l2At s.l2 x).tag))

/-- R160: control moves only forward through the phases, whatever the state and the parameters. -/
def Obligations.ControlMovesForward : Prop :=
  ∀ (p : Params) (q : Access) (s : State), atRest s = false →
    phaseRank s.phase < phaseRank (microStep p q s).phase

/-- R167, D11, U3: the scratch line never survives a MEM_ACCESS: every choice of it gives the same state. -/
def Obligations.ScratchLineNeverSurvives : Prop :=
  ∀ (b : Bool) (f g : Nat → Line) (q : Access) (s : State), s.phase = .idle → Coherent s →
    memAccess { countWritebackL2Miss := b, scratchLine := f } q s =
      memAccess { countWritebackL2Miss := b, scratchLine := g } q s

/-- R161 P7, D7: the parameter `COUNT_WRITEBACK_L2_MISS` changes `l2_miss_count` and nothing else: it is one greater
exactly when an access in range misses L1 and displaces a dirty line whose write-back misses L2. -/
def Obligations.WritebackCountParameter : Prop :=
  ∀ (f : Nat → Line) (q : Access) (s : State), s.phase = .idle → Coherent s →
    ∃ n : Nat, n ≤ 1 ∧
      (n = 1 ↔ q.address.toNat < s.memSize ∧ inL1 s q.address = false ∧ writebackMisses s q.address) ∧
      memAccess { countWritebackL2Miss := true, scratchLine := f } q s =
      { memAccess { countWritebackL2Miss := false, scratchLine := f } q s with
        l2MissCount := (memAccess { countWritebackL2Miss := false, scratchLine := f } q s).l2MissCount + n }

/-! ### Invariants -/

/-- The state after reset is within every invariant below (its values are log 3's and log 5's where R42 gives none). -/
def Obligations.ResetWithinInvariants : Prop :=
  CanonicalForm State.reset ∧ Coherent State.reset ∧ atRest State.reset = true ∧ faultMatchesPhase State.reset

/-- Every step of every kind keeps the arrays in canonical form, with `MEM_SIZE` a multiple of 32 (R9; log 6, log 7: the
form is the model's). -/
def Obligations.StepKeepsCanonicalForm : Prop :=
  ∀ s t : State, CanonicalForm s → step s = .next t → CanonicalForm t

/-- R44, R67 to R70: every external operation and every function keeps the hierarchy's invariants, whatever resting
phase it is issued in (INIT establishes them from any state). -/
def Obligations.StepKeepsHierarchyInvariant : Prop :=
  ∀ s t : State, HierarchyInvariant s → nextIsInterfaceOp s → step s = .next t → HierarchyInvariant t

/-- R38, R39, R197: every step from rest ends at rest, with a fault recorded exactly in FAULTED. -/
def Obligations.StepEndsAtRest : Prop :=
  ∀ s t : State, atRest s = true → faultMatchesPhase s → step s = .next t → atRest t = true ∧ faultMatchesPhase t

/-- Two memories in canonical form that read alike are one list (log 6: the form is the model's). -/
def Obligations.EqualReadsEqualMemories : Prop :=
  ∀ (size : Nat) (m n : Memory), Memory.wf size m = true → Memory.wf size n = true →
    (∀ j : Nat, mmWord m j = mmWord n j) → m = n
end

