-- ==== Sys2Proof/Laws/Cells.lean ====
section
/-! SUPPORT. The laws of sparse arrays: read after write, write elsewhere, a map over all cells, and the canonical form
every operation keeps. The reads hold for every list, canonical or not. -/

namespace Sys2Proof.Machine

section
variable {α : Type}

@[simp] theorem Cells.get_nil (d : α) (i : Nat) : Cells.get d [] i = d := rfl

@[simp] theorem Cells.get_cons (d : α) (c : Nat × α) (m : Cells α) (i : Nat) :
    Cells.get d (c :: m) i = if c.1 = i then c.2 else Cells.get d m i := rfl

theorem Cells.get_without_same (d : α) (m : Cells α) (i : Nat) : Cells.get d (Cells.without m i) i = d := by
  induction m with
  | nil => rfl
  | cons c m ih =>
    simp only [Cells.without] at ih
    by_cases h : c.1 = i <;> simp [Cells.without, h, ih]

theorem Cells.get_without_other (d : α) (m : Cells α) {i j : Nat} (h : j ≠ i) :
    Cells.get d (Cells.without m i) j = Cells.get d m j := by
  induction m with
  | nil => rfl
  | cons c m ih =>
    simp only [Cells.without] at ih
    by_cases hc : c.1 = i
    · simp [Cells.without, hc, ih, Ne.symm h]
    · simp [Cells.without, hc, ih]

theorem Cells.get_place_same (d : α) (m : Cells α) (i : Nat) (v : α) (hm : ∀ c ∈ m, c.1 ≠ i) :
    Cells.get d (Cells.place m i v) i = v := by
  induction m with
  | nil => simp [Cells.place]
  | cons c m ih =>
    by_cases h : i < c.1
    · simp [Cells.place, h]
    · simp only [Cells.place, h, if_false, Cells.get_cons]
      rw [if_neg (hm c (by simp)), ih (fun c' h' => hm c' (by simp [h']))]

theorem Cells.get_place_other (d : α) (m : Cells α) {i j : Nat} (v : α) (h : j ≠ i) :
    Cells.get d (Cells.place m i v) j = Cells.get d m j := by
  induction m with
  | nil => simp [Cells.place, Ne.symm h]
  | cons c m ih =>
    by_cases hc : i < c.1
    · simp [Cells.place, hc, Ne.symm h]
    · simp [Cells.place, hc, ih]

theorem Cells.not_mem_without (m : Cells α) (i : Nat) : ∀ c ∈ Cells.without m i, c.1 ≠ i := by
  simp [Cells.without]

theorem Cells.get_set_same [DecidableEq α] (d : α) (m : Cells α) (i : Nat) (v : α) : Cells.get d (Cells.set d m i v) i = v := by
  unfold Cells.set
  split
  · next h => rw [Cells.get_without_same, h]
  · exact Cells.get_place_same d _ i v (Cells.not_mem_without m i)

theorem Cells.get_set_other [DecidableEq α] (d : α) (m : Cells α) {i j : Nat} (v : α) (h : j ≠ i) :
    Cells.get d (Cells.set d m i v) j = Cells.get d m j := by
  unfold Cells.set
  split
  · exact Cells.get_without_other d m h
  · rw [Cells.get_place_other d _ v h, Cells.get_without_other d m h]

theorem Cells.get_set [DecidableEq α] (d : α) (m : Cells α) (i j : Nat) (v : α) :
    Cells.get d (Cells.set d m i v) j = if j = i then v else Cells.get d m j := by
  by_cases h : j = i
  · subst h; simp [Cells.get_set_same]
  · simp [h, Cells.get_set_other]

theorem Cells.without_place (m : Cells α) (i : Nat) (v : α) (hm : ∀ c ∈ m, c.1 ≠ i) :
    Cells.without (Cells.place m i v) i = m := by
  have hid : ∀ m' : Cells α, (∀ c ∈ m', c.1 ≠ i) → Cells.without m' i = m' := fun m' h' =>
    List.filter_eq_self.2 (by simpa using h')
  induction m with
  | nil => simp [Cells.place, Cells.without]
  | cons c m ih =>
    by_cases h : i < c.1
    · have e : Cells.without ((i, v) :: c :: m) i = Cells.without (c :: m) i := by simp [Cells.without]
      simp only [Cells.place, h, if_true]
      rw [e, hid _ hm]
    · have hc := hm c (by simp)
      have e : ∀ m' : Cells α, Cells.without (c :: m') i = c :: Cells.without m' i := by
        simp [Cells.without, hc]
      simp only [Cells.place, h, if_false]
      rw [e, ih (fun c' h' => hm c' (by simp [h']))]

theorem Cells.without_without (m : Cells α) (i : Nat) : Cells.without (Cells.without m i) i = Cells.without m i := by
  simp [Cells.without]

/-- Of two writes to one index the second stands. -/
theorem Cells.set_set [DecidableEq α] (d : α) (m : Cells α) (i : Nat) (v w : α) :
    Cells.set d (Cells.set d m i v) i w = Cells.set d m i w := by
  have e : Cells.without (Cells.set d m i v) i = Cells.without m i := by
    unfold Cells.set
    split
    · exact Cells.without_without m i
    · exact Cells.without_place _ i v (Cells.not_mem_without m i)
  unfold Cells.set at e ⊢
  rw [e]

/-- A map that fixes what unlisted indices read as is a map of every index. -/
theorem Cells.get_mapAll [DecidableEq α] (d : α) (f : α → α) (hf : f d = d) (m : Cells α) (i : Nat) :
    Cells.get d (Cells.mapAll d f m) i = f (Cells.get d m i) := by
  induction m with
  | nil => simp [Cells.mapAll, hf]
  | cons c m ih =>
    rw [Cells.mapAll, Cells.get_set, ih, Cells.get_cons]
    by_cases h : c.1 = i
    · simp [h]
    · simp [h, Ne.symm h]

end

section
variable {α : Type}

theorem Cells.rising_cons (c : Nat × α) (m : Cells α) :
    Cells.rising (c :: m) = true ↔ (∀ c' ∈ m, c.1 < c'.1) ∧ Cells.rising m = true := by
  simp [Cells.rising]

theorem Cells.mem_place (m : Cells α) (i : Nat) (v : α) (c : Nat × α) (h : c ∈ Cells.place m i v) :
    c = (i, v) ∨ c ∈ m := by
  induction m with
  | nil => simpa [Cells.place] using h
  | cons c0 m ih =>
    by_cases hc : i < c0.1
    · simpa [Cells.place, hc] using h
    · simp only [Cells.place, hc, if_false, List.mem_cons] at h
      rcases h with h | h
      · exact Or.inr (by simp [h])
      · rcases ih h with h | h
        · exact Or.inl h
        · exact Or.inr (by simp [h])

theorem Cells.rising_without (m : Cells α) (i : Nat) (h : Cells.rising m = true) :
    Cells.rising (Cells.without m i) = true := by
  induction m with
  | nil => rfl
  | cons c m ih =>
    rw [Cells.rising_cons] at h
    by_cases hc : c.1 = i
    · simpa [Cells.without, hc] using ih h.2
    · have e : Cells.without (c :: m) i = c :: Cells.without m i := by
        simp [Cells.without, hc]
      rw [e, Cells.rising_cons]
      exact ⟨fun c' h' => h.1 c' (List.mem_of_mem_filter h'), ih h.2⟩

theorem Cells.rising_place (m : Cells α) (i : Nat) (v : α) (h : Cells.rising m = true) (hm : ∀ c ∈ m, c.1 ≠ i) :
    Cells.rising (Cells.place m i v) = true := by
  induction m with
  | nil => rfl
  | cons c m ih =>
    have h' := (Cells.rising_cons c m).1 h
    by_cases hc : i < c.1
    · simp only [Cells.place, hc, if_true]
      rw [Cells.rising_cons]
      refine ⟨fun c' hc' => ?_, h⟩
      rcases List.mem_cons.1 hc' with rfl | hc'
      · exact hc
      · exact lt_trans hc (h'.1 c' hc')
    · simp only [Cells.place, hc, if_false]
      rw [Cells.rising_cons]
      refine ⟨fun c' hc' => ?_, ih h'.2 (fun c' h1 => hm c' (by simp [h1]))⟩
      rcases Cells.mem_place m i v c' hc' with rfl | hc'
      · exact lt_of_le_of_ne (not_lt.1 hc) (hm c (by simp))
      · exact h'.1 c' hc'

/-- Below every listed index an array reads as unlisted. -/
theorem Cells.get_below {d : α} (m : Cells α) (i : Nat) (h : ∀ c ∈ m, i < c.1) : Cells.get d m i = d := by
  induction m with
  | nil => rfl
  | cons c m ih =>
    have hc : c.1 ≠ i := ne_of_gt (h c (by simp))
    simp [hc, ih (fun c' h' => h c' (by simp [h']))]

end

section
variable {α : Type} [DecidableEq α] {d : α} {bound : Nat}

theorem Cells.wf_iff (d : α) (bound : Nat) (m : Cells α) :
    Cells.wf d bound m = true ↔ Cells.rising m = true ∧ ∀ c ∈ m, c.1 < bound ∧ c.2 ≠ d := by
  simp [Cells.wf]

/-- A write keeps the canonical form. -/
theorem Cells.wf_set (m : Cells α) (i : Nat) (v : α) (h : Cells.wf d bound m = true) (hi : i < bound) :
    Cells.wf d bound (Cells.set d m i v) = true := by
  rw [Cells.wf_iff] at h ⊢
  have hw : ∀ c ∈ Cells.without m i, c.1 < bound ∧ c.2 ≠ d := fun c hc => h.2 c (List.mem_of_mem_filter hc)
  unfold Cells.set
  split
  · exact ⟨Cells.rising_without m i h.1, hw⟩
  · next hv =>
    refine ⟨Cells.rising_place _ i v (Cells.rising_without m i h.1) (Cells.not_mem_without m i), fun c hc => ?_⟩
    rcases Cells.mem_place _ i v c hc with rfl | hc
    · exact ⟨hi, hv⟩
    · exact hw c hc

/-- A map keeps the canonical form. -/
theorem Cells.wf_mapAll (f : α → α) (m : Cells α) (h : Cells.wf d bound m = true) :
    Cells.wf d bound (Cells.mapAll d f m) = true := by
  induction m with
  | nil => rfl
  | cons c m ih =>
    rw [Cells.wf_iff] at h
    exact Cells.wf_set _ _ _
      (ih ((Cells.wf_iff d bound m).2 ⟨((Cells.rising_cons c m).1 h.1).2, fun c' hc' => h.2 c' (by simp [hc'])⟩))
      (h.2 c (by simp)).1

end

end Sys2Proof.Machine
end

