-- ==== Sys2Proof/Laws/Operands.lean ====
section
/-! SUPPORT. The laws of the address decomposer, each function as arithmetic on naturals (R110 to R116). -/

namespace Sys2Proof.Machine

theorem addrL1_tag_toNat (a : Addr) : (addrL1 a).tag.toNat = a.toNat / 2 ^ 14 := by
  have := a.isLt
  simp [addrL1, Nat.shiftRight_eq_div_pow]
  omega

theorem addrL1_setIndex_toNat (a : Addr) : (addrL1 a).setIndex.toNat = a.toNat / 2 ^ 5 % 2 ^ 9 := by
  simp [addrL1, Nat.shiftRight_eq_div_pow]

theorem addrL1_wordOffset_toNat (a : Addr) : (addrL1 a).wordOffset.toNat = a.toNat / 2 ^ 2 % 2 ^ 3 := by
  simp [addrL1, Nat.shiftRight_eq_div_pow]

theorem addrL2_tag_toNat (a : Addr) : (addrL2 a).tag.toNat = a.toNat / 2 ^ 20 := by
  have := a.isLt
  simp [addrL2, Nat.shiftRight_eq_div_pow]
  omega

theorem addrL2_index_toNat (a : Addr) : (addrL2 a).index.toNat = a.toNat / 2 ^ 5 % 2 ^ 15 := by
  simp [addrL2, Nat.shiftRight_eq_div_pow]

theorem addrLine_toNat (a : Addr) : (addrLine a).toNat = a.toNat / 32 * 32 := by
  have e : addrLine a = (a >>> 5) <<< 5 := by
    apply BitVec.eq_of_getLsbD_eq
    intro i hi
    have : (0xFFFFFFE0#32).getLsbD i = decide (5 ≤ i ∧ i < 32) := by
      have : ∀ j : Fin 32, (0xFFFFFFE0#32).getLsbD j.1 = decide (5 ≤ j.1 ∧ j.1 < 32) := by decide
      exact this ⟨i, hi⟩
    simp only [addrLine, BitVec.getLsbD_and, BitVec.getLsbD_shiftLeft, BitVec.getLsbD_ushiftRight, this]
    by_cases h : i < 5
    · simp [h]
    · have h' : 5 ≤ i := by omega
      simp [h, hi, h', show 5 + (i - 5) = i by omega]
  have := a.isLt
  rw [e]
  simp [Nat.shiftRight_eq_div_pow, Nat.shiftLeft_eq]
  omega

theorem addrWordIdx_eq (a : Addr) : addrWordIdx a = a.toNat / 32 * 8 := by
  rw [addrWordIdx, addrLine_toNat]; omega

/-- `a & ~3` keeps bits 31:2 (R68). -/
theorem wordAddress_toNat (a : Addr) : (a &&& 0xFFFFFFFC#32).toNat / 4 = a.toNat / 4 := by
  have e : a &&& 0xFFFFFFFC#32 = (a >>> 2) <<< 2 := by
    apply BitVec.eq_of_getLsbD_eq
    intro i hi
    have : (0xFFFFFFFC#32).getLsbD i = decide (2 ≤ i ∧ i < 32) := by
      have : ∀ j : Fin 32, (0xFFFFFFFC#32).getLsbD j.1 = decide (2 ≤ j.1 ∧ j.1 < 32) := by decide
      exact this ⟨i, hi⟩
    simp only [BitVec.getLsbD_and, BitVec.getLsbD_shiftLeft, BitVec.getLsbD_ushiftRight, this]
    by_cases h : i < 2
    · simp [h]
    · have h' : 2 ≤ i := by omega
      simp [h, hi, h', show 2 + (i - 2) = i by omega]
  have := a.isLt
  rw [e]
  simp [Nat.shiftRight_eq_div_pow, Nat.shiftLeft_eq]
  omega

theorem addrL1Evict_toNat (t : BitVec 18) (i : BitVec 9) :
    (addrL1Evict t i).toNat = t.toNat * 2 ^ 14 + i.toNat * 2 ^ 5 := by
  have ht := t.isLt
  have hi := i.isLt
  have e : addrL1Evict t i = (t ++ i).setWidth 32 <<< 5 := by
    apply BitVec.eq_of_getLsbD_eq
    intro k hk
    simp only [addrL1Evict, BitVec.getLsbD_or, BitVec.getLsbD_shiftLeft, BitVec.getLsbD_setWidth,
      BitVec.getLsbD_append]
    by_cases h5 : k < 5
    · simp [h5]; omega
    · by_cases h14 : k < 14
      · simp [h14, h5, hk, show k - 5 < 9 by omega, show k - 5 < 32 by omega]
      · simp [h14, h5, hk, show ¬ k - 5 < 9 by omega, show k - 5 < 32 by omega, show k - 14 < 32 by omega,
          show k - 5 - 9 = k - 14 by omega, BitVec.getLsbD_of_ge i (k - 5) (by omega)]
  rw [e]
  have hc : (t ++ i).toNat = t.toNat * 2 ^ 9 + i.toNat := by
    rw [BitVec.toNat_append, Nat.shiftLeft_eq, Nat.mul_comm, Nat.two_pow_add_eq_or_of_lt hi]
  simp only [BitVec.toNat_shiftLeft, BitVec.toNat_setWidth, hc, Nat.shiftLeft_eq]
  omega

theorem addrL2Evict_toNat (t : BitVec 12) (i : BitVec 15) :
    (addrL2Evict t i).toNat = t.toNat * 2 ^ 20 + i.toNat * 2 ^ 5 := by
  have ht := t.isLt
  have hi := i.isLt
  have e : addrL2Evict t i = (t ++ i).setWidth 32 <<< 5 := by
    apply BitVec.eq_of_getLsbD_eq
    intro k hk
    simp only [addrL2Evict, BitVec.getLsbD_or, BitVec.getLsbD_shiftLeft, BitVec.getLsbD_setWidth,
      BitVec.getLsbD_append]
    by_cases h5 : k < 5
    · simp [h5]; omega
    · by_cases h20 : k < 20
      · simp [h20, h5, hk, show k - 5 < 15 by omega, show k - 5 < 32 by omega]
      · simp [h20, h5, hk, show ¬ k - 5 < 15 by omega, show k - 5 < 32 by omega, show k - 20 < 32 by omega,
          show k - 5 - 15 = k - 20 by omega, BitVec.getLsbD_of_ge i (k - 5) (by omega)]
  rw [e]
  have hc : (t ++ i).toNat = t.toNat * 2 ^ 15 + i.toNat := by
    rw [BitVec.toNat_append, Nat.shiftLeft_eq, Nat.mul_comm, Nat.two_pow_add_eq_or_of_lt hi]
  simp only [BitVec.toNat_shiftLeft, BitVec.toNat_setWidth, hc, Nat.shiftLeft_eq]
  omega

/-- Two addresses have the same L1 tag and set exactly when they are in one line. -/
theorem addrL1_same_iff (a b : Addr) :
    ((addrL1 a).tag = (addrL1 b).tag ∧ (addrL1 a).setIndex = (addrL1 b).setIndex) ↔ a.toNat / 32 = b.toNat / 32 := by
  have ha := a.isLt
  have hb := b.isLt
  simp only [← BitVec.toNat_inj, addrL1_tag_toNat, addrL1_setIndex_toNat]
  omega

/-- Two addresses have the same L2 tag and index exactly when they are in one line. -/
theorem addrL2_same_iff (a b : Addr) :
    ((addrL2 a).tag = (addrL2 b).tag ∧ (addrL2 a).index = (addrL2 b).index) ↔ a.toNat / 32 = b.toNat / 32 := by
  have ha := a.isLt
  have hb := b.isLt
  simp only [← BitVec.toNat_inj, addrL2_tag_toNat, addrL2_index_toNat]
  omega

/-- The line number of a rebuilt L1 address. -/
theorem addrL1Evict_div (t : BitVec 18) (i : BitVec 9) : (addrL1Evict t i).toNat / 32 = t.toNat * 2 ^ 9 + i.toNat := by
  rw [addrL1Evict_toNat]; omega

/-- The line number of a rebuilt L2 address. -/
theorem addrL2Evict_div (t : BitVec 12) (i : BitVec 15) :
    (addrL2Evict t i).toNat / 32 = t.toNat * 2 ^ 15 + i.toNat := by
  rw [addrL2Evict_toNat]; omega

/-- A rebuilt L1 address is in the line of `a` exactly when tag and set are those of `a`. -/
theorem addrL1Evict_sameLine_iff (t : BitVec 18) (i : BitVec 9) (a : Addr) :
    (addrL1Evict t i).toNat / 32 = a.toNat / 32 ↔ t = (addrL1 a).tag ∧ i = (addrL1 a).setIndex := by
  have ha := a.isLt
  have ht := t.isLt
  have hi := i.isLt
  simp only [← BitVec.toNat_inj, addrL1_tag_toNat, addrL1_setIndex_toNat, addrL1Evict_div]
  omega

/-- A rebuilt L2 address is in the line of `a` exactly when tag and index are those of `a`. -/
theorem addrL2Evict_sameLine_iff (t : BitVec 12) (i : BitVec 15) (a : Addr) :
    (addrL2Evict t i).toNat / 32 = a.toNat / 32 ↔ t = (addrL2 a).tag ∧ i = (addrL2 a).index := by
  have ha := a.isLt
  have ht := t.isLt
  have hi := i.isLt
  simp only [← BitVec.toNat_inj, addrL2_tag_toNat, addrL2_index_toNat, addrL2Evict_div]
  omega

theorem addrLine_eq_iff (a b : Addr) : addrLine a = addrLine b ↔ a.toNat / 32 = b.toNat / 32 := by
  rw [← BitVec.toNat_inj, addrLine_toNat, addrLine_toNat]; omega

/-- R123: the bounds check gives one answer for every address of a line. -/
theorem lt_size_congr {a b : Addr} {size : Nat} (hs : size % 32 = 0) (h : a.toNat / 32 = b.toNat / 32) :
    a.toNat < size ↔ b.toNat < size := by omega

@[simp] theorem lineWord_lineSetWord_same (l : Line) (k : BitVec 3) (w : Word) :
    lineWord (lineSetWord l k w) k = w := by
  simp [lineWord, lineSetWord]

theorem lineWord_lineSetWord_other (l : Line) {k j : BitVec 3} (w : Word) (h : j ≠ k) :
    lineWord (lineSetWord l k w) j = lineWord l j := by
  have : k.toNat ≠ j.toNat := fun e => h (BitVec.eq_of_toNat_eq e.symm)
  simp [lineWord, lineSetWord, this]

end Sys2Proof.Machine
end

