-- ==== Sys2Proof/Laws/Arrays.lean ====
section
/-! SUPPORT. The laws of the arrays: read after write for L1 sets, L2 entries and lines of Main Memory; the scan of a
set; what each component operation does, said once. -/

namespace Sys2Proof.Machine

/-! ### The scan of a set (R21) -/

section
variable {α : Type} (v : Vector α 4) (p : α → Bool)

/-- A scan that finds a way found the first one. -/
theorem firstWay_some {w : Fin 4} (h : firstWay v p = some w) :
    p (wayAt v w) = true ∧ ∀ u : Fin 4, u < w → p (wayAt v u) = false := by
  unfold firstWay at h
  split at h
  · next h0 => cases h; exact ⟨h0, fun u hu => absurd hu (by omega)⟩
  · next h0 =>
    split at h
    · next h1 =>
      cases h
      refine ⟨h1, fun u hu => ?_⟩
      have : u = 0 := by omega
      subst this; simpa using h0
    · next h1 =>
      split at h
      · next h2 =>
        cases h
        refine ⟨h2, fun u hu => ?_⟩
        have : u = 0 ∨ u = 1 := by omega
        rcases this with rfl | rfl
        · simpa using h0
        · simpa using h1
      · next h2 =>
        split at h
        · next h3 =>
          cases h
          refine ⟨h3, fun u hu => ?_⟩
          have : u = 0 ∨ u = 1 ∨ u = 2 := by omega
          rcases this with rfl | rfl | rfl
          · simpa using h0
          · simpa using h1
          · simpa using h2
        · cases h

/-- A scan that finds no way: no way satisfies the test. -/
theorem firstWay_none : firstWay v p = none ↔ ∀ w : Fin 4, p (wayAt v w) = false := by
  unfold firstWay
  constructor
  · intro h w
    split at h
    · cases h
    · next h0 =>
      split at h
      · cases h
      · next h1 =>
        split at h
        · cases h
        · next h2 =>
          split at h
          · cases h
          · next h3 =>
            have : w = 0 ∨ w = 1 ∨ w = 2 ∨ w = 3 := by omega
            rcases this with rfl | rfl | rfl | rfl
            · simpa using h0
            · simpa using h1
            · simpa using h2
            · simpa using h3
  · intro h
    have h0 := h 0
    have h1 := h 1
    have h2 := h 2
    have h3 := h 3
    simp [h0, h1, h2, h3]

/-- The scan finds `w` when `w` satisfies the test and no lower way does. -/
theorem firstWay_eq_some {w : Fin 4} (hw : p (wayAt v w) = true) (hlt : ∀ u : Fin 4, u < w → p (wayAt v u) = false) :
    firstWay v p = some w := by
  cases h : firstWay v p with
  | none => rw [firstWay_none] at h; rw [h w] at hw; cases hw
  | some u =>
    have := firstWay_some v p h
    rcases lt_trichotomy u w with hl | rfl | hl
    · rw [hlt u hl] at this; cases this.1
    · rfl
    · rw [this.2 w hl] at hw; cases hw

end

@[simp] theorem eachWay_get (f : L1Entry → L1Entry) (set : L1Set) (w : Fin 4) : wayAt (eachWay f set) w = f (wayAt set w) := by
  have : w = 0 ∨ w = 1 ∨ w = 2 ∨ w = 3 := by omega
  rcases this with rfl | rfl | rfl | rfl <;> rfl

@[simp] theorem setBits_get (set : L1Set) (w : Fin 4) : wayAt (setBits set) w = wayBits (wayAt set w) := by
  have : w = 0 ∨ w = 1 ∨ w = 2 ∨ w = 3 := by omega
  rcases this with rfl | rfl | rfl | rfl <;> rfl

/-- Reading a way after writing one. -/
@[simp] theorem wayAt_putWay {α : Type} (v : Vector α 4) (w u : Fin 4) (x : α) :
    wayAt (putWay v w x) u = if u = w then x else wayAt v u := by
  by_cases h : u = w
  · subst h; simp [wayAt, putWay]
  · have : w.1 ≠ u.1 := fun e => h (Fin.ext e.symm)
    simp [wayAt, putWay, h, this]

theorem hitWay_some {set : L1Set} {tag : BitVec 18} {w : Fin 4} (h : hitWay set tag = some w) :
    (wayAt set w).valid = true ∧ (wayAt set w).tag = tag := by
  simpa using (firstWay_some _ _ h).1

theorem hitWay_none (set : L1Set) (tag : BitVec 18) :
    hitWay set tag = none ↔ ∀ w : Fin 4, (wayAt set w).valid = true → (wayAt set w).tag ≠ tag := by
  unfold hitWay
  rw [firstWay_none]
  simp

/-- In a set without duplicates, a valid way with the tag is the way that hits. -/
theorem hitWay_eq_some {set : L1Set} {tag : BitVec 18} {w : Fin 4} (hv : (wayAt set w).valid = true)
    (ht : (wayAt set w).tag = tag)
    (hu : ∀ u : Fin 4, (wayAt set u).valid = true → (wayAt set u).tag = tag → u = w) : hitWay set tag = some w := by
  apply firstWay_eq_some
  · simp [hv, ht]
  · intro u hlt
    by_contra h
    have h' : (wayAt set u).valid = true ∧ (wayAt set u).tag = tag := by simpa using h
    exact absurd (hu u h'.1 h'.2) (ne_of_lt hlt)

/-! ### Reads after writes -/

@[simp] theorem l1SetAt_l1PutSet (l1 : L1Array) (i j : BitVec 9) (set : L1Set) :
    l1SetAt (l1PutSet l1 i set) j = if j = i then set else l1SetAt l1 j := by
  simp only [l1SetAt, l1PutSet, Cells.get_set, BitVec.toNat_inj]

@[simp] theorem l2At_l2Put (l2 : L2Array) (i j : BitVec 15) (e : L2Entry) :
    l2At (l2Put l2 i e) j = if j = i then e else l2At l2 j := by
  simp only [l2At, l2Put, Cells.get_set, BitVec.toNat_inj]

@[simp] theorem mmWord_mmPutWord (mm : Memory) (i j : Nat) (w : Word) :
    mmWord (mmPutWord mm i w) j = if j = i then w else mmWord mm j := by
  simp only [mmWord, mmPutWord, Cells.get_set]

theorem mmWord_mmPutWords (mm : Memory) (i j : Nat) (ws : List Word) :
    mmWord (mmPutWords mm i ws) j = if h : i ≤ j ∧ j - i < ws.length then ws[j - i]'h.2 else mmWord mm j := by
  induction ws generalizing mm i with
  | nil => simp [mmPutWords]
  | cons w ws ih =>
    rw [mmPutWords, ih]
    by_cases h1 : i + 1 ≤ j ∧ j - (i + 1) < ws.length
    · have h2 : i ≤ j ∧ j - i < (w :: ws).length := by simp; omega
      rw [dif_pos h1, dif_pos h2]
      have : j - i = (j - (i + 1)) + 1 := by omega
      simp [this]
    · rw [dif_neg h1, mmWord_mmPutWord]
      by_cases hj : j = i
      · subst hj; simp
      · rw [if_neg hj, dif_neg (by simp; omega)]

/-- A word of the line just written. -/
theorem mmWord_mmPutLine_in (mm : Memory) (j0 : Nat) (l : Line) (k : BitVec 3) :
    mmWord (mmPutLine mm j0 l) (j0 + k.toNat) = lineWord l k := by
  have := k.isLt
  rw [mmPutLine, mmWord_mmPutWords, dif_pos (by simp; omega)]
  simp [lineWord]

/-- A word outside the line just written. -/
theorem mmWord_mmPutLine_out (mm : Memory) (j0 j : Nat) (l : Line) (h : j < j0 ∨ j0 + 8 ≤ j) :
    mmWord (mmPutLine mm j0 l) j = mmWord mm j := by
  rw [mmPutLine, mmWord_mmPutWords, dif_neg (by simp; omega)]

@[simp] theorem lineWord_mmLine (mm : Memory) (j0 : Nat) (k : BitVec 3) :
    lineWord (mmLine mm j0) k = mmWord mm (j0 + k.toNat) := by
  have h := k.isLt
  obtain ⟨n, hn⟩ : ∃ n, k.toNat = n := ⟨_, rfl⟩
  have : n = 0 ∨ n = 1 ∨ n = 2 ∨ n = 3 ∨ n = 4 ∨ n = 5 ∨ n = 6 ∨ n = 7 := by omega
  simp only [lineWord, hn]
  rcases this with rfl | rfl | rfl | rfl | rfl | rfl | rfl | rfl <;> rfl

/-- Two lines with the same eight words are the same line. -/
theorem line_ext {l m : Line} (h : ∀ k : BitVec 3, lineWord l k = lineWord m k) : l = m :=
  Vector.ext fun i hi => by
    have := h (BitVec.ofNat 3 i)
    have e : (BitVec.ofNat 3 i).toNat = i := by simp; omega
    simpa only [lineWord, e] using this

@[simp] theorem mmLine_mmPutLine_same (mm : Memory) (j0 : Nat) (l : Line) : mmLine (mmPutLine mm j0 l) j0 = l :=
  line_ext fun k => by rw [lineWord_mmLine, mmWord_mmPutLine_in]

theorem mmLine_mmPutLine_other (mm : Memory) {i j : Nat} (l : Line) (h : j + 8 ≤ i ∨ i + 8 ≤ j) :
    mmLine (mmPutLine mm i l) j = mmLine mm j :=
  line_ext fun k => by
    have := k.isLt
    rw [lineWord_mmLine, lineWord_mmLine, mmWord_mmPutLine_out _ _ _ _ (by omega)]

/-- Writing the line of `a` and reading the line of `b`. -/
theorem mmLine_mmPutLine (mm : Memory) (a b : Addr) (l : Line) :
    mmLine (mmPutLine mm (addrWordIdx a) l) (addrWordIdx b) =
      if a.toNat / 32 = b.toNat / 32 then l else mmLine mm (addrWordIdx b) := by
  by_cases h : a.toNat / 32 = b.toNat / 32
  · rw [if_pos h, addrWordIdx_eq a, addrWordIdx_eq b, h, mmLine_mmPutLine_same]
  · rw [if_neg h, mmLine_mmPutLine_other]
    rw [addrWordIdx_eq, addrWordIdx_eq]; omega

@[simp] theorem l1SetAt_l1Init (l1 : L1Array) (i : BitVec 9) :
    l1SetAt (l1Init l1) i = eachWay l1Cleared (l1SetAt l1 i) :=
  Cells.get_mapAll _ _ (by decide) _ _

@[simp] theorem l1SetAt_l1ClearRef (l1 : L1Array) (i : BitVec 9) :
    l1SetAt (l1ClearRef l1) i = eachWay l1Aged (l1SetAt l1 i) :=
  Cells.get_mapAll _ _ (by decide) _ _

@[simp] theorem l1At_l1Init (l1 : L1Array) (i : BitVec 9) (w : Fin 4) :
    l1At (l1Init l1) i w = l1Cleared (l1At l1 i w) := by
  simp only [l1At, l1SetAt_l1Init, eachWay_get]

@[simp] theorem l1At_l1ClearRef (l1 : L1Array) (i : BitVec 9) (w : Fin 4) :
    l1At (l1ClearRef l1) i w = l1Aged (l1At l1 i w) := by
  simp only [l1At, l1SetAt_l1ClearRef, eachWay_get]

@[simp] theorem l2At_l2Init (l2 : L2Array) (i : BitVec 15) : l2At (l2Init l2) i = l2Cleared (l2At l2 i) :=
  Cells.get_mapAll _ _ (by decide) _ _

@[simp] theorem l1SetAt_nil (i : BitVec 9) : l1SetAt [] i = L1Set.empty := rfl
@[simp] theorem l2At_nil (i : BitVec 15) : l2At [] i = L2Entry.empty := rfl
@[simp] theorem mmWord_nil (j : Nat) : mmWord [] j = 0 := rfl

@[simp] theorem l1Set_empty_get (w : Fin 4) : wayAt L1Set.empty w = L1Entry.empty := by
  have : w = 0 ∨ w = 1 ∨ w = 2 ∨ w = 3 := by omega
  rcases this with rfl | rfl | rfl | rfl <;> rfl

/-! ### The component operations -/

/-- R14: `MemRead` is MM.ACCESS with control `01`. -/
theorem memRead_eq_mmAccess (a : Addr) (d : Line) (size : Nat) (mm : Memory) :
    mmAccess .readOnly a d size mm = (memRead a size mm).map (fun l => (some l, mm)) := by
  unfold mmAccess memRead; split <;> rfl

/-- R14: `MemWrite` is MM.ACCESS with control `10`. -/
theorem memWrite_eq_mmAccess (a : Addr) (l : Line) (size : Nat) (mm : Memory) :
    mmAccess .writeOnly a l size mm = (memWrite a l size mm).map (fun m => (none, m)) := by
  unfold mmAccess memWrite; split <;> rfl

theorem memRead_ok {a : Addr} {size : Nat} (mm : Memory) (h : a.toNat < size) :
    memRead a size mm = .ok (mmLine mm (addrWordIdx a)) := by
  rw [memRead, if_neg (by omega)]

theorem memWrite_ok {a : Addr} {size : Nat} (l : Line) (mm : Memory) (h : a.toNat < size) :
    memWrite a l size mm = .ok (mmPutLine mm (addrWordIdx a) l) := by
  rw [memWrite, if_neg (by omega)]

/-- R132: the entry at the index, when it is valid and its tag is the address's. -/
theorem l2Lookup_eq_some {a : Addr} {l2 : L2Array} {e : L2Entry} :
    l2Lookup a l2 = some e ↔ e = l2At l2 (addrL2 a).index ∧ e.valid = true ∧ e.tag = (addrL2 a).tag := by
  by_cases h : l2Holds (addrL2 a).tag (l2At l2 (addrL2 a).index) = true
  · have h' : (l2At l2 (addrL2 a).index).valid = true ∧ (l2At l2 (addrL2 a).index).tag = (addrL2 a).tag := by
      simpa [l2Holds] using h
    simp only [l2Lookup, h, if_true, Option.some.injEq]
    exact ⟨fun he => he ▸ ⟨rfl, h'⟩, fun he => he.1.symm⟩
  · simp only [l2Lookup, h]
    constructor
    · intro he; cases he
    · rintro ⟨rfl, hv, ht⟩; simp [l2Holds, hv, ht] at h

theorem l2Lookup_eq_none {a : Addr} {l2 : L2Array} :
    l2Lookup a l2 = none ↔
      ((l2At l2 (addrL2 a).index).valid = true → (l2At l2 (addrL2 a).index).tag ≠ (addrL2 a).tag) := by
  simp [l2Lookup, l2Holds]

/-- A lookup depends on the line only. -/
theorem l2Lookup_congr {a b : Addr} (h : a.toNat / 32 = b.toNat / 32) (l2 : L2Array) :
    l2Lookup a l2 = l2Lookup b l2 := by
  have := (addrL2_same_iff a b).2 h
  unfold l2Lookup
  rw [this.1, this.2]

/-- A lookup after an entry is written. -/
theorem l2Lookup_l2Put (a : Addr) (l2 : L2Array) (i : BitVec 15) (e : L2Entry) :
    l2Lookup a (l2Put l2 i e) =
      if (addrL2 a).index = i then (if l2Holds (addrL2 a).tag e then some e else none) else l2Lookup a l2 := by
  unfold l2Lookup
  by_cases h : (addrL2 a).index = i
  · simp [h]
  · simp [h]

theorem l2Access_readData (a : Addr) (d : Line) (l2 : L2Array) :
    (l2Access .readOnly a d l2).readData = (l2Lookup a l2).map (·.line) := by
  unfold l2Access
  cases l2Lookup a l2 <;> rfl

theorem l2Access_hit (c : Control) (a : Addr) (d : Line) (l2 : L2Array) :
    (l2Access c a d l2).hit = (l2Lookup a l2).isSome := by
  unfold l2Access
  cases l2Lookup a l2 <;> rfl

theorem l2Access_write_array {a : Addr} {l2 : L2Array} {e : L2Entry} (d : Line) (h : l2Lookup a l2 = some e) :
    (l2Access .writeOnly a d l2).array = l2Put l2 (addrL2 a).index (l2Written d e) := by
  unfold l2Access
  rw [h]; rfl

theorem l1Access_miss {a : Addr} {l1 : L1Array} (c : Control) (w : Word)
    (h : hitWay (l1SetAt l1 (addrL1 a).setIndex) (addrL1 a).tag = none) :
    l1Access c a w l1 = { hit := false, readData := none, array := l1 } := by
  unfold l1Access
  simp only [h]

theorem l1Access_hit {a : Addr} {l1 : L1Array} {u : Fin 4} (c : Control) (w : Word)
    (h : hitWay (l1SetAt l1 (addrL1 a).setIndex) (addrL1 a).tag = some u) :
    l1Access c a w l1 =
      { hit := true
        readData := if c.read then
            some (lineWord (l1At l1 (addrL1 a).setIndex u).line (addrL1 a).wordOffset) else none
        array := l1PutSet l1 (addrL1 a).setIndex (putWay (l1SetAt l1 (addrL1 a).setIndex) u
          (l1Touched c (addrL1 a).wordOffset w (l1At l1 (addrL1 a).setIndex u))) } := by
  unfold l1Access
  simp only [h, l1At]

end Sys2Proof.Machine
end

