-- ==== Sys2Proof/Laws/State.lean ====
section
/-! SUPPORT. One lemma per field per state update, true by `rfl`, so that no proof unfolds a record update. -/

namespace Sys2Proof.Machine

@[simp] theorem State.withResult_l1 (s : State) (r : Result) : (s.withResult r).l1 = s.l1 := rfl
@[simp] theorem State.withResult_l2 (s : State) (r : Result) : (s.withResult r).l2 = s.l2 := rfl
@[simp] theorem State.withResult_mm (s : State) (r : Result) : (s.withResult r).mm = s.mm := rfl
@[simp] theorem State.withResult_memSize (s : State) (r : Result) : (s.withResult r).memSize = s.memSize := rfl
@[simp] theorem State.withResult_l1MissCount (s : State) (r : Result) : (s.withResult r).l1MissCount = s.l1MissCount := rfl
@[simp] theorem State.withResult_l2MissCount (s : State) (r : Result) : (s.withResult r).l2MissCount = s.l2MissCount := rfl
@[simp] theorem State.withResult_phase (s : State) (r : Result) : (s.withResult r).phase = s.phase := rfl
@[simp] theorem State.withResult_fault (s : State) (r : Result) : (s.withResult r).fault = s.fault := rfl
@[simp] theorem State.withResult_result (s : State) (r : Result) : (s.withResult r).result = r := rfl
@[simp] theorem State.withResult_requests (s : State) (r : Result) : (s.withResult r).requests = s.requests := rfl
@[simp] theorem State.withResult_scratchDraws (s : State) (r : Result) : (s.withResult r).scratchDraws = s.scratchDraws := rfl

@[simp] theorem raise_l1 (f : FaultRecord) (s : State) : (raise f s).l1 = s.l1 := rfl
@[simp] theorem raise_l2 (f : FaultRecord) (s : State) : (raise f s).l2 = s.l2 := rfl
@[simp] theorem raise_mm (f : FaultRecord) (s : State) : (raise f s).mm = s.mm := rfl
@[simp] theorem raise_memSize (f : FaultRecord) (s : State) : (raise f s).memSize = s.memSize := rfl
@[simp] theorem raise_l1MissCount (f : FaultRecord) (s : State) : (raise f s).l1MissCount = s.l1MissCount := rfl
@[simp] theorem raise_l2MissCount (f : FaultRecord) (s : State) : (raise f s).l2MissCount = s.l2MissCount := rfl
@[simp] theorem raise_phase (f : FaultRecord) (s : State) : (raise f s).phase = .faulted := rfl
@[simp] theorem raise_fault (f : FaultRecord) (s : State) : (raise f s).fault = some f := rfl
@[simp] theorem raise_result (f : FaultRecord) (s : State) : (raise f s).result = .absent := rfl
@[simp] theorem raise_requests (f : FaultRecord) (s : State) : (raise f s).requests = s.requests := rfl
@[simp] theorem raise_scratchDraws (f : FaultRecord) (s : State) : (raise f s).scratchDraws = s.scratchDraws := rfl

@[simp] theorem State.goto_l1 (s : State) (p : SubPhase) : (s.goto p).l1 = s.l1 := rfl
@[simp] theorem State.goto_l2 (s : State) (p : SubPhase) : (s.goto p).l2 = s.l2 := rfl
@[simp] theorem State.goto_mm (s : State) (p : SubPhase) : (s.goto p).mm = s.mm := rfl
@[simp] theorem State.goto_memSize (s : State) (p : SubPhase) : (s.goto p).memSize = s.memSize := rfl
@[simp] theorem State.goto_l1MissCount (s : State) (p : SubPhase) : (s.goto p).l1MissCount = s.l1MissCount := rfl
@[simp] theorem State.goto_l2MissCount (s : State) (p : SubPhase) : (s.goto p).l2MissCount = s.l2MissCount := rfl
@[simp] theorem State.goto_phase (s : State) (p : SubPhase) : (s.goto p).phase = .busy p := rfl
@[simp] theorem State.goto_fault (s : State) (p : SubPhase) : (s.goto p).fault = s.fault := rfl
@[simp] theorem State.goto_result (s : State) (p : SubPhase) : (s.goto p).result = s.result := rfl
@[simp] theorem State.goto_requests (s : State) (p : SubPhase) : (s.goto p).requests = s.requests := rfl
@[simp] theorem State.goto_scratchDraws (s : State) (p : SubPhase) : (s.goto p).scratchDraws = s.scratchDraws := rfl

@[simp] theorem finish_l1 (rd : Option Word) (s : State) : (finish rd s).l1 = s.l1 := rfl
@[simp] theorem finish_l2 (rd : Option Word) (s : State) : (finish rd s).l2 = s.l2 := rfl
@[simp] theorem finish_mm (rd : Option Word) (s : State) : (finish rd s).mm = s.mm := rfl
@[simp] theorem finish_memSize (rd : Option Word) (s : State) : (finish rd s).memSize = s.memSize := rfl
@[simp] theorem finish_l1MissCount (rd : Option Word) (s : State) : (finish rd s).l1MissCount = s.l1MissCount := rfl
@[simp] theorem finish_l2MissCount (rd : Option Word) (s : State) : (finish rd s).l2MissCount = s.l2MissCount := rfl
@[simp] theorem finish_phase (rd : Option Word) (s : State) : (finish rd s).phase = .idle := rfl
@[simp] theorem finish_fault (rd : Option Word) (s : State) : (finish rd s).fault = s.fault := rfl
@[simp] theorem finish_result (rd : Option Word) (s : State) : (finish rd s).result = .memAccess rd := rfl
@[simp] theorem finish_requests (rd : Option Word) (s : State) : (finish rd s).requests = s.requests := rfl
@[simp] theorem finish_scratchDraws (rd : Option Word) (s : State) : (finish rd s).scratchDraws = s.scratchDraws := rfl

@[simp] theorem State.powerOn_l1 (s : State) : (s.powerOn).l1 = s.l1 := rfl
@[simp] theorem State.powerOn_l2 (s : State) : (s.powerOn).l2 = s.l2 := rfl
@[simp] theorem State.powerOn_mm (s : State) : (s.powerOn).mm = s.mm := rfl
@[simp] theorem State.powerOn_memSize (s : State) : (s.powerOn).memSize = s.memSize := rfl
@[simp] theorem State.powerOn_l1MissCount (s : State) : (s.powerOn).l1MissCount = s.l1MissCount := rfl
@[simp] theorem State.powerOn_l2MissCount (s : State) : (s.powerOn).l2MissCount = s.l2MissCount := rfl
@[simp] theorem State.powerOn_phase (s : State) : (s.powerOn).phase = .uninit := rfl
@[simp] theorem State.powerOn_fault (s : State) : (s.powerOn).fault = none := rfl
@[simp] theorem State.powerOn_result (s : State) : (s.powerOn).result = .absent := rfl
@[simp] theorem State.powerOn_requests (s : State) : (s.powerOn).requests = s.requests := rfl
@[simp] theorem State.powerOn_scratchDraws (s : State) : (s.powerOn).scratchDraws = s.scratchDraws := rfl

@[simp] theorem present_l1 (r : Request) (s : State) : (present r s).l1 = s.l1 := rfl
@[simp] theorem present_l2 (r : Request) (s : State) : (present r s).l2 = s.l2 := rfl
@[simp] theorem present_mm (r : Request) (s : State) : (present r s).mm = s.mm := rfl
@[simp] theorem present_memSize (r : Request) (s : State) : (present r s).memSize = s.memSize := rfl
@[simp] theorem present_l1MissCount (r : Request) (s : State) : (present r s).l1MissCount = s.l1MissCount := rfl
@[simp] theorem present_l2MissCount (r : Request) (s : State) : (present r s).l2MissCount = s.l2MissCount := rfl
@[simp] theorem present_phase (r : Request) (s : State) : (present r s).phase = s.phase := rfl
@[simp] theorem present_fault (r : Request) (s : State) : (present r s).fault = s.fault := rfl
@[simp] theorem present_result (r : Request) (s : State) : (present r s).result = s.result := rfl
@[simp] theorem present_requests (r : Request) (s : State) : (present r s).requests = r :: s.requests := rfl
@[simp] theorem present_scratchDraws (r : Request) (s : State) : (present r s).scratchDraws = s.scratchDraws := rfl

@[simp] theorem tick_l1 (s : State) : (tick s).l1 = l1ClearRef s.l1 := rfl
@[simp] theorem tick_l2 (s : State) : (tick s).l2 = s.l2 := rfl
@[simp] theorem tick_mm (s : State) : (tick s).mm = s.mm := rfl
@[simp] theorem tick_memSize (s : State) : (tick s).memSize = s.memSize := rfl
@[simp] theorem tick_l1MissCount (s : State) : (tick s).l1MissCount = s.l1MissCount := rfl
@[simp] theorem tick_l2MissCount (s : State) : (tick s).l2MissCount = s.l2MissCount := rfl
@[simp] theorem tick_phase (s : State) : (tick s).phase = .idle := rfl
@[simp] theorem tick_fault (s : State) : (tick s).fault = s.fault := rfl
@[simp] theorem tick_result (s : State) : (tick s).result = .absent := rfl
@[simp] theorem tick_requests (s : State) : (tick s).requests = s.requests := rfl
@[simp] theorem tick_scratchDraws (s : State) : (tick s).scratchDraws = s.scratchDraws := rfl

/-- INIT with a legal size, field by field (R42, R176). -/
theorem initialise_of_sizeAligned {size : Nat} (h : size % 32 = 0) (s : State) :
    initialise size s =
      { s with
        memSize := size, mm := [], l1 := l1Init s.l1, l2 := l2Init s.l2, l1MissCount := 0, l2MissCount := 0,
        fault := none, phase := .idle, result := .absent } := by
  simp [initialise, mmInit, Config.lineBytes, h]

/-- INIT with an illegal size (R45). -/
theorem initialise_of_not_sizeAligned {size : Nat} (h : size % 32 ≠ 0) (s : State) :
    initialise size s = raise (configError size) s := by
  simp [initialise, mmInit, Config.lineBytes, h]

theorem whenIdle_of_idle {s n : State} (h : s.phase = .idle) : whenIdle s n = .next n := by
  unfold whenIdle
  rw [if_pos h]

theorem whenAtRest_of_accepts {s n : State} (h : acceptsInit s.phase = true) : whenAtRest s n = .next n := by
  unfold whenAtRest
  rw [if_pos h]

theorem whenInitialised_of_accepts {s n : State} (h : acceptsInternal s.phase = true) :
    whenInitialised s n = .next n := by
  unfold whenInitialised
  rw [if_pos h]

theorem whenIdle_eq_next {s t : State} {n : State} : whenIdle s n = .next t ↔ s.phase = .idle ∧ n = t := by
  unfold whenIdle; split <;> simp_all

theorem whenAtRest_eq_next {s t : State} {n : State} :
    whenAtRest s n = .next t ↔ acceptsInit s.phase = true ∧ n = t := by
  unfold whenAtRest; split <;> simp_all

theorem whenInitialised_eq_next {s t : State} {n : State} :
    whenInitialised s n = .next t ↔ acceptsInternal s.phase = true ∧ n = t := by
  unfold whenInitialised; split <;> simp_all

end Sys2Proof.Machine
end

