-- ==== Sys2Proof/Laws/Controller.lean ====
section
/-! SUPPORT. What the sequence P0 to P9 does, said once: each stage of the machine in closed form, and MEM_ACCESS as
the composition of the stages, for a coherent state (R161, R171, R173, R199). -/

namespace Sys2Proof.Machine

/-! ### L2 and Main Memory together -/

/-- The clauses of `Coherent` that concern L2 and Main Memory. -/
structure L2Sound (l2 : L2Array) (mm : Memory) (size : Nat) : Prop where
  sizeMultiple : size % 32 = 0
  inRange : ∀ i : BitVec 15, (l2At l2 i).valid = true → (addrL2Evict (l2At l2 i).tag i).toNat < size
  cleanAgrees : ∀ i : BitVec 15, (l2At l2 i).valid = true → (l2At l2 i).dirty = false →
    (l2At l2 i).line = mmLine mm (addrWordIdx (addrL2Evict (l2At l2 i).tag i))

theorem Coherent.l2Sound {s : State} (h : Coherent s) : L2Sound s.l2 s.mm s.memSize :=
  ⟨h.sizeMultiple, h.l2InRange, h.l2CleanAgrees⟩

/-- Main Memory once `L2[i]` is displaced: a valid dirty line is written to it (R170). -/
def displaced (l2 : L2Array) (mm : Memory) (i : BitVec 15) : Memory :=
  if (l2At l2 i).valid && (l2At l2 i).dirty then
    mmPutLine mm (addrWordIdx (addrL2Evict (l2At l2 i).tag i)) (l2At l2 i).line
  else mm

/-- The handlers' common tail never faults when the displaced line is in range (R173). -/
theorem l2MissFill_ok (a : Addr) (sb : Line) (s : State)
    (h : (l2At s.l2 (addrL2 a).index).valid = true → (l2At s.l2 (addrL2 a).index).dirty = true →
      (addrL2Evict (l2At s.l2 (addrL2 a).index).tag (addrL2 a).index).toNat < s.memSize) :
    l2MissFill a sb s = .ok { s with
      l2 := l2Put s.l2 (addrL2 a).index (l2Filled (addrL2 a).tag sb)
      mm := displaced s.l2 s.mm (addrL2 a).index } := by
  unfold l2MissFill l2InsertLine displaced
  by_cases hd : ((l2At s.l2 (addrL2 a).index).valid && (l2At s.l2 (addrL2 a).index).dirty) = true
  · simp only [hd, if_true]
    have hd' : (l2At s.l2 (addrL2 a).index).valid = true ∧ (l2At s.l2 (addrL2 a).index).dirty = true := by
      simpa using hd
    rw [memWrite_ok _ _ (h hd'.1 hd'.2)]
  · simp only [hd]
    rfl

/-- R166, in range: L2MISS.R fills the entry with Main Memory's line. -/
theorem l2MissRead_ok {a : Addr} {s : State} (ha : a.toNat < s.memSize)
    (h : (l2At s.l2 (addrL2 a).index).valid = true → (l2At s.l2 (addrL2 a).index).dirty = true →
      (addrL2Evict (l2At s.l2 (addrL2 a).index).tag (addrL2 a).index).toNat < s.memSize) :
    l2MissRead a s = .ok { s with
      l2 := l2Put s.l2 (addrL2 a).index (l2Filled (addrL2 a).tag (mmLine s.mm (addrWordIdx a)))
      mm := displaced s.l2 s.mm (addrL2 a).index } := by
  simp only [l2MissRead, memRead_ok _ ha]
  exact l2MissFill_ok a _ s h

/-- R166, R192: out of range nothing is touched. -/
theorem l2MissRead_outOfRange {a : Addr} {s : State} (ha : s.memSize ≤ a.toNat) :
    l2MissRead a s = .error (raise (outOfRange a) s) := by
  simp only [l2MissRead, memRead, ha, if_true]

/-- R167: L2MISS.W fills the entry with the next scratch line. -/
theorem l2MissWrite_ok (p : Params) {a : Addr} {s : State}
    (h : (l2At s.l2 (addrL2 a).index).valid = true → (l2At s.l2 (addrL2 a).index).dirty = true →
      (addrL2Evict (l2At s.l2 (addrL2 a).index).tag (addrL2 a).index).toNat < s.memSize) :
    l2MissWrite p a s = .ok { s with
      l2 := l2Put s.l2 (addrL2 a).index (l2Filled (addrL2 a).tag (p.scratchLine s.scratchDraws))
      mm := displaced s.l2 s.mm (addrL2 a).index
      scratchDraws := s.scratchDraws + 1 } :=
  l2MissFill_ok a _ { s with scratchDraws := s.scratchDraws + 1 } h

/-- R170: a displaced dirty line is in Main Memory. -/
theorem mmWord_displaced_in {l2 : L2Array} (mm : Memory) {i : BitVec 15} (hv : (l2At l2 i).valid = true)
    (hd : (l2At l2 i).dirty = true) (k : BitVec 3) :
    mmWord (displaced l2 mm i) (addrWordIdx (addrL2Evict (l2At l2 i).tag i) + k.toNat) =
      lineWord (l2At l2 i).line k := by
  unfold displaced
  simp only [hv, hd, Bool.and_self, if_true]
  exact mmWord_mmPutLine_in _ _ _ _

/-- R170: no other word of Main Memory changes. -/
theorem mmWord_displaced_out {l2 : L2Array} (mm : Memory) {i : BitVec 15} {j : Nat}
    (h : (l2At l2 i).valid = true → (l2At l2 i).dirty = true →
      j < addrWordIdx (addrL2Evict (l2At l2 i).tag i) ∨ addrWordIdx (addrL2Evict (l2At l2 i).tag i) + 8 ≤ j) :
    mmWord (displaced l2 mm i) j = mmWord mm j := by
  unfold displaced
  split
  · next hx =>
    have hx' : (l2At l2 i).valid = true ∧ (l2At l2 i).dirty = true := by simpa using hx
    exact mmWord_mmPutLine_out _ _ _ _ (h hx'.1 hx'.2)
  · rfl

theorem mmLine_displaced (l2 : L2Array) (mm : Memory) (i : BitVec 15) (b : Addr) :
    mmLine (displaced l2 mm i) (addrWordIdx b) =
      if (l2At l2 i).valid = true ∧ (l2At l2 i).dirty = true ∧ (l2At l2 i).tag = (addrL2 b).tag ∧ i = (addrL2 b).index
      then (l2At l2 i).line else mmLine mm (addrWordIdx b) := by
  unfold displaced
  by_cases hd : (l2At l2 i).valid = true ∧ (l2At l2 i).dirty = true
  · have hd' : ((l2At l2 i).valid && (l2At l2 i).dirty) = true := by simpa using hd
    rw [if_pos hd', mmLine_mmPutLine]
    simp only [addrL2Evict_sameLine_iff, hd.1, hd.2, true_and]
  · have hd' : ((l2At l2 i).valid && (l2At l2 i).dirty) = false := by simpa using hd
    rw [hd']
    simp only [Bool.false_eq_true, if_false]
    rw [if_neg]
    exact fun h => hd ⟨h.1, h.2.1⟩

/-- R68: displacing an entry and writing another over it changes nothing of what stands behind L1, but for the line
written. -/
theorem behind_put_displaced {l2 : L2Array} {mm : Memory} {size : Nat} (h : L2Sound l2 mm size) (a b : Addr)
    (e : L2Entry) (ht : e.tag = (addrL2 a).tag) (hv : e.valid = true) :
    behind (l2Put l2 (addrL2 a).index e) (displaced l2 mm (addrL2 a).index) b =
      if a.toNat / 32 = b.toNat / 32 then e.line else behind l2 mm b := by
  unfold behind
  rw [l2Lookup_l2Put]
  by_cases hi : (addrL2 b).index = (addrL2 a).index
  · rw [if_pos hi]
    by_cases hab : a.toNat / 32 = b.toNat / 32
    · have := ((addrL2_same_iff a b).2 hab).1
      simp [l2Holds, hv, ht, this, hab]
    · have hne : (addrL2 a).tag ≠ (addrL2 b).tag := fun he => hab ((addrL2_same_iff a b).1 ⟨he, hi.symm⟩)
      simp only [l2Holds, hv, ht, Bool.true_and, beq_iff_eq, hne, if_false, hab]
      rw [mmLine_displaced]
      cases hl : l2Lookup b l2 with
      | none =>
        rw [l2Lookup_eq_none, hi] at hl
        rw [if_neg]
        exact fun hc => hl hc.1 hc.2.2.1
      | some e' =>
        rw [l2Lookup_eq_some, hi] at hl
        obtain ⟨rfl, hv', ht'⟩ := hl
        by_cases hd : (l2At l2 (addrL2 a).index).dirty = true
        · rw [if_pos ⟨hv', hd, ht', hi.symm⟩]
        · have hc := h.cleanAgrees _ hv' (by simpa using hd)
          rw [if_neg (fun hc => hd hc.2.1)]
          have hs : (addrL2Evict (l2At l2 (addrL2 a).index).tag (addrL2 a).index).toNat / 32 = b.toNat / 32 :=
            (addrL2Evict_sameLine_iff _ _ _).2 ⟨ht', hi.symm⟩
          simp only [hc, addrWordIdx_eq, hs]
  · rw [if_neg hi]
    have hab : a.toNat / 32 ≠ b.toNat / 32 := fun he => hi ((addrL2_same_iff a b).2 he).2.symm
    rw [if_neg hab]
    cases l2Lookup b l2 with
    | none =>
      simp only
      rw [mmLine_displaced, if_neg]
      exact fun hc => hi hc.2.2.2.symm
    | some e' => rfl

/-- R70, R68: an entry written over a displaced one keeps L2 sound. -/
theorem L2Sound.put_displaced {l2 : L2Array} {mm : Memory} {size : Nat} (h : L2Sound l2 mm size) (a : Addr)
    (ha : a.toNat < size) (e : L2Entry) (ht : e.tag = (addrL2 a).tag)
    (hc : e.dirty = false → l2Lookup a l2 = none ∧ e.line = mmLine mm (addrWordIdx a)) :
    L2Sound (l2Put l2 (addrL2 a).index e) (displaced l2 mm (addrL2 a).index) size := by
  have hsame : ∀ t, t = (addrL2 a).tag → (addrL2Evict t (addrL2 a).index).toNat / 32 = a.toNat / 32 :=
    fun t ht => (addrL2Evict_sameLine_iff _ _ _).2 ⟨ht, rfl⟩
  refine ⟨h.sizeMultiple, fun i hv => ?_, fun i hv hd => ?_⟩
  · rw [l2At_l2Put] at hv ⊢
    by_cases hi : i = (addrL2 a).index
    · subst hi
      rw [if_pos rfl]
      exact (lt_size_congr h.sizeMultiple (hsame _ ht)).2 ha
    · rw [if_neg hi] at hv ⊢
      exact h.inRange i hv
  · rw [l2At_l2Put] at hv hd ⊢
    by_cases hi : i = (addrL2 a).index
    · subst hi
      rw [if_pos rfl] at hv hd ⊢
      obtain ⟨hn, hl⟩ := hc hd
      rw [l2Lookup_eq_none] at hn
      rw [hl, addrWordIdx_eq (addrL2Evict _ _), hsame _ ht, ← addrWordIdx_eq, mmLine_displaced, if_neg]
      exact fun hx => hn hx.1 hx.2.2.1
    · rw [if_neg hi] at hv hd ⊢
      rw [mmLine_displaced, if_neg, ← h.cleanAgrees i hv hd]
      intro hx
      apply hi
      have := (addrL2Evict_sameLine_iff (l2At l2 i).tag i (addrL2Evict (l2At l2 i).tag i)).1 rfl
      rw [hx.2.2.2, ← this.2]

/-- A dirty write over the entry that holds the line keeps L2 sound. -/
theorem L2Sound.put_dirty {l2 : L2Array} {mm : Memory} {size : Nat} (h : L2Sound l2 mm size) (a : Addr)
    (ha : a.toNat < size) (e : L2Entry) (ht : e.tag = (addrL2 a).tag) (hd : e.dirty = true) :
    L2Sound (l2Put l2 (addrL2 a).index e) mm size := by
  refine ⟨h.sizeMultiple, fun i hv => ?_, fun i hv hd' => ?_⟩
  · rw [l2At_l2Put] at hv ⊢
    by_cases hi : i = (addrL2 a).index
    · subst hi
      rw [if_pos rfl]
      exact (lt_size_congr h.sizeMultiple ((addrL2Evict_sameLine_iff _ _ _).2 ⟨ht, rfl⟩)).2 ha
    · rw [if_neg hi] at hv ⊢
      exact h.inRange i hv
  · rw [l2At_l2Put] at hv hd' ⊢
    by_cases hi : i = (addrL2 a).index
    · rw [if_pos hi, hd] at hd'; cases hd'
    · rw [if_neg hi] at hv hd' ⊢
      exact h.cleanAgrees i hv hd'

/-- Writing over the entry that holds the line of `a` changes what stands behind L1 for that line only. -/
theorem behind_put_hit {l2 : L2Array} {mm : Memory} (a b : Addr) (e e' : L2Entry) (hl : l2Lookup a l2 = some e)
    (ht : e'.tag = (addrL2 a).tag) (hv : e'.valid = true) :
    behind (l2Put l2 (addrL2 a).index e') mm b = if a.toNat / 32 = b.toNat / 32 then e'.line else behind l2 mm b := by
  unfold behind
  rw [l2Lookup_l2Put]
  by_cases hi : (addrL2 b).index = (addrL2 a).index
  · rw [if_pos hi]
    by_cases hab : a.toNat / 32 = b.toNat / 32
    · have := ((addrL2_same_iff a b).2 hab).1
      simp [l2Holds, hv, ht, this, hab]
    · have hne : (addrL2 a).tag ≠ (addrL2 b).tag := fun he => hab ((addrL2_same_iff a b).1 ⟨he, hi.symm⟩)
      rw [l2Lookup_eq_some] at hl
      obtain ⟨rfl, hv', ht'⟩ := hl
      have hn : l2Lookup b l2 = none := by
        rw [l2Lookup_eq_none, hi, ht']
        exact fun _ => hne
      simp only [l2Holds, hv, ht, Bool.true_and, beq_iff_eq, hne, if_false, hab, hn]
  · rw [if_neg hi]
    have hab : a.toNat / 32 ≠ b.toNat / 32 := fun he => hi ((addrL2_same_iff a b).2 he).2.symm
    rw [if_neg hab]

theorem behind_congr {a b : Addr} (h : a.toNat / 32 = b.toNat / 32) (l2 : L2Array) (mm : Memory) :
    behind l2 mm a = behind l2 mm b := by
  unfold behind
  rw [l2Lookup_congr h, addrWordIdx_eq, addrWordIdx_eq, h]

/-! ### The stages -/

@[simp] theorem microRun_zero (p : Params) (q : Access) (s : State) : microRun p q 0 s = s := rfl

theorem microRun_succ (p : Params) (q : Access) (n : Nat) (s : State) :
    microRun p q (n + 1) s = microRun p q n (microStep p q s) := rfl

theorem microRun_add (p : Params) (q : Access) (m n : Nat) (s : State) :
    microRun p q (m + n) s = microRun p q n (microRun p q m s) := by
  induction m generalizing s with
  | zero => simp
  | succ m ih => rw [Nat.add_right_comm, microRun_succ, ih, microRun_succ]

/-- At rest nothing moves. -/
theorem microRun_rest (p : Params) (q : Access) (n : Nat) (s : State) (h : atRest s = true) :
    microRun p q n s = s := by
  induction n with
  | zero => rfl
  | succ n ih =>
    have : microStep p q s = s := by
      unfold microStep
      unfold atRest at h
      split <;> simp_all
    rw [microRun_succ, this, ih]

/-- P2 to P4 (R168): L2 holds the line afterwards. -/
def fetched (a : Addr) (s : State) : State :=
  match l2Lookup a s.l2 with
  | some _ => s
  | none =>
    { s with
      l2MissCount := s.l2MissCount + 1
      l2 := l2Put s.l2 (addrL2 a).index (l2Filled (addrL2 a).tag (mmLine s.mm (addrWordIdx a)))
      mm := displaced s.l2 s.mm (addrL2 a).index }

theorem fetch_reaches (p : Params) (q : Access) (s : State) (h : L2Sound s.l2 s.mm s.memSize)
    (ha : q.address.toNat < s.memSize) :
    ∃ n, n ≤ 3 ∧ microRun p q n (s.goto .p2) =
      (fetched q.address s).goto (.p5 (behind s.l2 s.mm q.address)) := by
  cases hl : l2Lookup q.address s.l2 with
  | some e =>
    refine ⟨1, by omega, ?_⟩
    simp only [microRun_succ, microRun_zero, microStep, State.goto_phase, phase2, l2Access_readData, State.goto_l2, hl,
      fetched, behind, Option.map_some]
    rfl
  | none =>
    refine ⟨3, le_refl _, ?_⟩
    have h3 := l2MissFill_ok q.address (mmLine s.mm (addrWordIdx q.address))
      { s.goto .p3 with l2MissCount := s.l2MissCount + 1 } (fun hv _ => h.inRange _ hv)
    have hh : l2Holds (addrL2 q.address).tag
        (l2Filled (addrL2 q.address).tag (mmLine s.mm (addrWordIdx q.address))) = true := by simp [l2Holds, l2Filled]
    have hl2 : l2Lookup q.address (l2Put s.l2 (addrL2 q.address).index
        (l2Filled (addrL2 q.address).tag (mmLine s.mm (addrWordIdx q.address)))) =
        some (l2Filled (addrL2 q.address).tag (mmLine s.mm (addrWordIdx q.address))) := by
      rw [l2Lookup_l2Put, if_pos rfl, if_pos hh]
    simp only [microRun_succ, microRun_zero, microStep, State.goto_phase, phase2, l2Access_readData, State.goto_l2, hl,
      Option.map_none, phase3, l2MissRead, State.goto_memSize, State.goto_mm, memRead_ok _ ha]
    erw [h3]
    simp only [phase4, State.goto_phase, l2Access_readData, State.goto_l2, hl2, Option.map_some, fetched, behind, hl]
    rfl

/-- P6 to P8 (R169): the line displaced from L1 is in L2, dirty, afterwards. -/
def writtenBack (p : Params) (eb1 : Evicted) (s : State) : State :=
  let f := addrL2 eb1.address
  match l2Lookup eb1.address s.l2 with
  | some e => { s with l2 := l2Put s.l2 f.index (l2Written eb1.data e) }
  | none =>
    { s with
      l2MissCount := if p.countWritebackL2Miss then s.l2MissCount + 1 else s.l2MissCount
      l2 := l2Put (l2Put s.l2 f.index (l2Filled f.tag (p.scratchLine s.scratchDraws))) f.index
        (l2Written eb1.data (l2Filled f.tag (p.scratchLine s.scratchDraws)))
      mm := displaced s.l2 s.mm f.index
      scratchDraws := s.scratchDraws + 1 }

theorem writeBack_reaches (p : Params) (q : Access) (eb1 : Evicted) (s : State)
    (h : L2Sound s.l2 s.mm s.memSize) :
    ∃ n, n ≤ 3 ∧ microRun p q n (s.goto (.p6 eb1)) = (writtenBack p eb1 s).goto .p9 := by
  cases hl : l2Lookup eb1.address s.l2 with
  | some e =>
    refine ⟨1, by omega, ?_⟩
    simp only [microRun_succ, microRun_zero, microStep, State.goto_phase, phase6, l2Access_hit, State.goto_l2, hl,
      Option.isSome_some, if_true, l2Access_write_array _ hl, writtenBack]
    rfl
  | none =>
    refine ⟨3, le_refl _, ?_⟩
    have h3 := l2MissFill_ok eb1.address (p.scratchLine s.scratchDraws)
      { s.goto (.p7 eb1) with
        l2MissCount := if p.countWritebackL2Miss then s.l2MissCount + 1 else s.l2MissCount
        scratchDraws := s.scratchDraws + 1 } (fun hv _ => h.inRange _ hv)
    have hh : l2Holds (addrL2 eb1.address).tag
        (l2Filled (addrL2 eb1.address).tag (p.scratchLine s.scratchDraws)) = true := by simp [l2Holds, l2Filled]
    have hl2 : l2Lookup eb1.address (l2Put s.l2 (addrL2 eb1.address).index
        (l2Filled (addrL2 eb1.address).tag (p.scratchLine s.scratchDraws))) =
        some (l2Filled (addrL2 eb1.address).tag (p.scratchLine s.scratchDraws)) := by
      rw [l2Lookup_l2Put, if_pos rfl, if_pos hh]
    simp only [microRun_succ, microRun_zero, microStep, State.goto_phase, phase6, l2Access_hit, State.goto_l2, hl,
      Option.isSome_none, Bool.false_eq_true, if_false, phase7, l2MissWrite, State.goto_scratchDraws,
      State.goto_l2MissCount]
    erw [h3]
    simp only [State.goto_phase, phase8, l2Access_hit, State.goto_l2, hl2, Option.isSome_some, if_true,
      l2Access_write_array _ hl2, writtenBack, hl]
    rfl

/-- `s` with another L1 array. -/
def State.withL1 (s : State) (l1 : L1Array) : State := { s with l1 := l1 }

@[simp] theorem State.withL1_l1 (s : State) (l1 : L1Array) : (s.withL1 l1).l1 = l1 := rfl
@[simp] theorem State.withL1_l2 (s : State) (l1 : L1Array) : (s.withL1 l1).l2 = s.l2 := rfl
@[simp] theorem State.withL1_mm (s : State) (l1 : L1Array) : (s.withL1 l1).mm = s.mm := rfl
@[simp] theorem State.withL1_memSize (s : State) (l1 : L1Array) : (s.withL1 l1).memSize = s.memSize := rfl
@[simp] theorem State.withL1_l1MissCount (s : State) (l1 : L1Array) : (s.withL1 l1).l1MissCount = s.l1MissCount := rfl
@[simp] theorem State.withL1_l2MissCount (s : State) (l1 : L1Array) : (s.withL1 l1).l2MissCount = s.l2MissCount := rfl
@[simp] theorem State.withL1_phase (s : State) (l1 : L1Array) : (s.withL1 l1).phase = s.phase := rfl
@[simp] theorem State.withL1_fault (s : State) (l1 : L1Array) : (s.withL1 l1).fault = s.fault := rfl
@[simp] theorem State.withL1_requests (s : State) (l1 : L1Array) : (s.withL1 l1).requests = s.requests := rfl

/-- P1: `s` with one more L1 miss counted. -/
def State.countL1Miss (s : State) : State := { s with l1MissCount := s.l1MissCount + 1 }

@[simp] theorem State.countL1Miss_l1 (s : State) : s.countL1Miss.l1 = s.l1 := rfl
@[simp] theorem State.countL1Miss_l2 (s : State) : s.countL1Miss.l2 = s.l2 := rfl
@[simp] theorem State.countL1Miss_mm (s : State) : s.countL1Miss.mm = s.mm := rfl
@[simp] theorem State.countL1Miss_memSize (s : State) : s.countL1Miss.memSize = s.memSize := rfl
@[simp] theorem State.countL1Miss_l1MissCount (s : State) : s.countL1Miss.l1MissCount = s.l1MissCount + 1 := rfl
@[simp] theorem State.countL1Miss_l2MissCount (s : State) : s.countL1Miss.l2MissCount = s.l2MissCount := rfl
@[simp] theorem State.countL1Miss_phase (s : State) : s.countL1Miss.phase = s.phase := rfl
@[simp] theorem State.countL1Miss_fault (s : State) : s.countL1Miss.fault = s.fault := rfl
@[simp] theorem State.countL1Miss_requests (s : State) : s.countL1Miss.requests = s.requests := rfl

/-- P1 to P8: what a MEM_ACCESS that misses L1 does before its retry. -/
def refilled (p : Params) (a : Addr) (s : State) : State :=
  let r := l1InsertLine a (behind s.l2 s.mm a) s.l1
  match r.evicted with
  | none => (fetched a s.countL1Miss).withL1 r.array
  | some eb1 => writtenBack p eb1 ((fetched a s.countL1Miss).withL1 r.array)

theorem fetched_l1 (a : Addr) (s : State) : (fetched a s).l1 = s.l1 := by
  unfold fetched; split <;> rfl

theorem fetched_memSize (a : Addr) (s : State) : (fetched a s).memSize = s.memSize := by
  unfold fetched; split <;> rfl

theorem fetched_l2Sound (a : Addr) (s : State) (h : L2Sound s.l2 s.mm s.memSize) (ha : a.toNat < s.memSize) :
    L2Sound (fetched a s).l2 (fetched a s).mm s.memSize := by
  unfold fetched
  cases hl : l2Lookup a s.l2 with
  | some e => exact h
  | none => exact h.put_displaced a ha (l2Filled _ _) rfl (fun _ => ⟨hl, rfl⟩)

theorem fetched_behind (a b : Addr) (s : State) (h : L2Sound s.l2 s.mm s.memSize) :
    behind (fetched a s).l2 (fetched a s).mm b = behind s.l2 s.mm b := by
  unfold fetched
  cases hl : l2Lookup a s.l2 with
  | some e => rfl
  | none =>
    simp only
    rw [behind_put_displaced h a b (l2Filled (addrL2 a).tag _) rfl rfl]
    split
    · next hab =>
      rw [← behind_congr hab]
      unfold behind
      rw [hl]; rfl
    · rfl

theorem writtenBack_l1 (p : Params) (e : Evicted) (s : State) : (writtenBack p e s).l1 = s.l1 := by
  unfold writtenBack; simp only; split <;> rfl

theorem writtenBack_memSize (p : Params) (e : Evicted) (s : State) : (writtenBack p e s).memSize = s.memSize := by
  unfold writtenBack; simp only; split <;> rfl

theorem l2Put_l2Put (l2 : L2Array) (i : BitVec 15) (e e' : L2Entry) : l2Put (l2Put l2 i e) i e' = l2Put l2 i e' :=
  Cells.set_set _ _ _ _ _

theorem writtenBack_l2Sound (p : Params) (eb1 : Evicted) (s : State) (h : L2Sound s.l2 s.mm s.memSize)
    (ha : eb1.address.toNat < s.memSize) :
    L2Sound (writtenBack p eb1 s).l2 (writtenBack p eb1 s).mm s.memSize := by
  unfold writtenBack
  cases hl : l2Lookup eb1.address s.l2 with
  | some e => exact h.put_dirty eb1.address ha _ (l2Lookup_eq_some.1 hl).2.2 rfl
  | none =>
    simp only
    rw [l2Put_l2Put]
    refine h.put_displaced eb1.address ha (l2Written _ (l2Filled _ _)) rfl (fun hd => ?_)
    cases hd

/-- R169: the displaced line is written exactly once, and nothing else changes behind L1. -/
theorem writtenBack_behind (p : Params) (eb1 : Evicted) (b : Addr) (s : State) (h : L2Sound s.l2 s.mm s.memSize) :
    behind (writtenBack p eb1 s).l2 (writtenBack p eb1 s).mm b =
      if eb1.address.toNat / 32 = b.toNat / 32 then eb1.data else behind s.l2 s.mm b := by
  unfold writtenBack
  cases hl : l2Lookup eb1.address s.l2 with
  | some e =>
    simp only
    rw [behind_put_hit eb1.address b e (l2Written eb1.data e) hl (l2Lookup_eq_some.1 hl).2.2 (l2Lookup_eq_some.1 hl).2.1]
    rfl
  | none =>
    simp only
    rw [l2Put_l2Put, behind_put_displaced h eb1.address b (l2Written _ (l2Filled (addrL2 eb1.address).tag _)) rfl rfl]
    rfl

/-! ### The view -/

/-- The line of `a` as the requester sees it (R68). -/
def viewLine (s : State) (a : Addr) : Line :=
  match hitWay (l1SetAt s.l1 (addrL1 a).setIndex) (addrL1 a).tag with
  | some w => (l1At s.l1 (addrL1 a).setIndex w).line
  | none => behind s.l2 s.mm a

theorem view_eq (s : State) (a : Addr) : view s a = lineWord (viewLine s a) (addrL1 a).wordOffset := by
  unfold view viewLine
  simp only
  cases hitWay (l1SetAt s.l1 (addrL1 a).setIndex) (addrL1 a).tag with
  | some w => rfl
  | none =>
    simp only [behind]
    cases l2Lookup a s.l2 with
    | some e => rfl
    | none =>
      simp only
      rw [lineWord_mmLine, wordAddress_toNat, addrWordIdx_eq, addrL1_wordOffset_toNat]
      congr 1; omega

theorem viewLine_congr {a b : Addr} (h : a.toNat / 32 = b.toNat / 32) (s : State) : viewLine s a = viewLine s b := by
  have := (addrL1_same_iff a b).2 h
  unfold viewLine
  rw [this.1, this.2, behind_congr h]

/-- The way that hits, in a coherent state: the one valid way with the tag. -/
theorem Coherent.hitWay_of_valid {s : State} (h : Coherent s) {i : BitVec 9} {w : Fin 4}
    (hv : (l1At s.l1 i w).valid = true) : hitWay (l1SetAt s.l1 i) (l1At s.l1 i w).tag = some w :=
  hitWay_eq_some hv rfl (fun u hu ht => h.l1Unique i u w hu hv ht)

/-- R147: after a miss and a fill, the filled way hits. -/
theorem hitWay_putWay_filled {set : L1Set} {tag : BitVec 18} (h : hitWay set tag = none) (w : Fin 4) (l : Line) :
    hitWay (putWay set w (l1Filled tag l)) tag = some w := by
  rw [hitWay_none] at h
  refine hitWay_eq_some (by simp [l1Filled]) (by simp [l1Filled]) (fun u hv ht => ?_)
  by_contra hu
  simp only [wayAt_putWay, hu, if_false] at hv ht
  exact h u hv ht

@[simp] theorem l1At_l1PutSet_putWay (l1 : L1Array) (i j : BitVec 9) (w u : Fin 4) (e : L1Entry) :
    l1At (l1PutSet l1 i (putWay (l1SetAt l1 i) w e)) j u = if j = i ∧ u = w then e else l1At l1 j u := by
  unfold l1At
  rw [l1SetAt_l1PutSet]
  by_cases hj : j = i
  · subst hj; simp
  · simp [hj]

end Sys2Proof.Machine
end

