-- ==== Sys2Proof/Laws/Coherence.lean ====
section
/-! SUPPORT. What a MEM_ACCESS does to a coherent state: the refill of a miss changes no line the requester sees, the
access that hits changes its own word only, and both keep the state coherent. -/

namespace Sys2Proof.Machine

/-- The line of `a` hits no way of L1. -/
abbrev missesL1 (s : State) (a : Addr) : Prop := hitWay (l1SetAt s.l1 (addrL1 a).setIndex) (addrL1 a).tag = none

/-- The line of `a` hits way `w` of L1. -/
abbrev hitsL1 (s : State) (a : Addr) (w : Fin 4) : Prop :=
  hitWay (l1SetAt s.l1 (addrL1 a).setIndex) (addrL1 a).tag = some w

/-- R144: the fill, by entry. -/
theorem l1InsertLine_at (a : Addr) (l : Line) (s : State) (i : BitVec 9) (u : Fin 4) :
    l1At (l1InsertLine a l s.l1).array i u =
      if i = (addrL1 a).setIndex ∧ u = fillWay s a then l1Filled (addrL1 a).tag l else l1At s.l1 i u := by
  exact l1At_l1PutSet_putWay _ _ _ _ _ _

/-- R144: what the fill reports. -/
theorem l1InsertLine_evicted (a : Addr) (l : Line) (s : State) :
    (l1InsertLine a l s.l1).evicted =
      if (victim s a).valid && (victim s a).dirty then
        some { address := victimAddress s a, data := (victim s a).line } else none := rfl

/-! ### The stages of a refill, by L2 entry and by word of Main Memory -/

/-- P2 to P4: an L2 hit fetches without a change. -/
theorem fetched_of_inL2 {a : Addr} {s : State} (h : inL2 s a = true) : fetched a s = s := by
  unfold inL2 at h
  unfold fetched
  cases hl : l2Lookup a s.l2 with
  | some e => rfl
  | none => rw [hl] at h; cases h

/-- P2 to P4: an L2 miss puts Main Memory's line at the index of `a`, clean, and the displaced dirty line in Main Memory. -/
theorem fetched_of_not_inL2 {a : Addr} {s : State} (h : inL2 s a = false) :
    (fetched a s).l2 = l2Put s.l2 (addrL2 a).index (l2Filled (addrL2 a).tag (mmLine s.mm (addrWordIdx a))) ∧
      (fetched a s).mm = displaced s.l2 s.mm (addrL2 a).index := by
  unfold inL2 at h
  unfold fetched
  cases hl : l2Lookup a s.l2 with
  | some e => rw [hl] at h; cases h
  | none => exact ⟨rfl, rfl⟩

/-- P2 to P4: L2 changes at the index of `a` only. -/
theorem fetched_l2At_other (a : Addr) (s : State) {i : BitVec 15} (h : i ≠ (addrL2 a).index) :
    l2At (fetched a s).l2 i = l2At s.l2 i := by
  cases hi : inL2 s a with
  | true => rw [fetched_of_inL2 hi]
  | false => rw [(fetched_of_not_inL2 hi).1, l2At_l2Put, if_neg h]

/-- P6: after the fetch of the line of `a`, another line is not in L2 exactly if it was not, or has the same index. -/
theorem fetched_lookup_none {a b : Addr} {s : State} (hn : b.toNat / 32 ≠ a.toNat / 32) :
    l2Lookup b (fetched a s).l2 = none ↔ inL2 s b = false ∨ (addrL2 b).index = (addrL2 a).index := by
  have hb : inL2 s b = false ↔ l2Lookup b s.l2 = none := by
    unfold inL2
    cases l2Lookup b s.l2 <;> simp
  have htag : (addrL2 b).index = (addrL2 a).index → (addrL2 a).tag ≠ (addrL2 b).tag :=
    fun hi ht => hn ((addrL2_same_iff b a).1 ⟨ht.symm, hi⟩)
  rw [hb, l2Lookup_eq_none, l2Lookup_eq_none]
  by_cases hi : (addrL2 b).index = (addrL2 a).index
  · refine iff_of_true (fun _ => ?_) (Or.inr hi)
    cases ha : inL2 s a with
    | true =>
      rw [fetched_of_inL2 ha, hi]
      obtain ⟨e, he⟩ := Option.isSome_iff_exists.1 ha
      have := l2Lookup_eq_some.1 he
      rw [← this.1, this.2.2]
      exact htag hi
    | false =>
      rw [(fetched_of_not_inL2 ha).1, l2At_l2Put, if_pos hi]
      exact htag hi
  · rw [fetched_l2At_other a s hi]
    exact ⟨Or.inl, fun h => h.resolve_right hi⟩

/-- P6 to P8 (R169): the line displaced from L1 is in L2, whole and dirty, and no other entry changes. -/
theorem writtenBack_l2At (p : Params) (e : Evicted) (s : State) (i : BitVec 15) :
    l2At (writtenBack p e s).l2 i =
      if i = (addrL2 e.address).index then { valid := true, dirty := true, tag := (addrL2 e.address).tag, line := e.data }
      else l2At s.l2 i := by
  unfold writtenBack
  simp only
  split
  · next hl =>
    have := l2Lookup_eq_some.1 hl
    simp only [l2At_l2Put, l2Written, this.2.1, this.2.2]
  · rw [l2Put_l2Put, l2At_l2Put]
    rfl

/-- P6 to P8 (R170): Main Memory changes only where the write-back misses L2, by the dirty line that L2MISS.W displaces. -/
theorem writtenBack_mm (p : Params) (e : Evicted) (s : State) :
    (writtenBack p e s).mm =
      if inL2 s e.address then s.mm else displaced s.l2 s.mm (addrL2 e.address).index := by
  unfold writtenBack inL2
  simp only
  cases l2Lookup e.address s.l2 <;> rfl

/-- P5 to P8 with a dirty victim. -/
theorem refilled_of_dirtyVictim (p : Params) {a : Addr} {s : State} (h : dirtyVictim s a) :
    refilled p a s = writtenBack p { address := victimAddress s a, data := (victim s a).line }
      ((fetched a s.countL1Miss).withL1 (l1InsertLine a (behind s.l2 s.mm a) s.l1).array) := by
  unfold refilled
  simp only [l1InsertLine_evicted, h.1, h.2, Bool.and_self, if_true]

/-- P5 with an invalid or clean victim. -/
theorem refilled_of_not_dirtyVictim (p : Params) {a : Addr} {s : State} (h : ¬ dirtyVictim s a) :
    refilled p a s = (fetched a s.countL1Miss).withL1 (l1InsertLine a (behind s.l2 s.mm a) s.l1).array := by
  have hv : ((victim s a).valid && (victim s a).dirty) = false := by simpa [dirtyVictim] using h
  unfold refilled
  simp [l1InsertLine_evicted, hv]

/-- The refilled state: L1 is the fill's array. -/
theorem refilled_l1 (p : Params) (a : Addr) (s : State) :
    (refilled p a s).l1 = (l1InsertLine a (behind s.l2 s.mm a) s.l1).array := by
  unfold refilled
  simp only
  cases (l1InsertLine a (behind s.l2 s.mm a) s.l1).evicted with
  | none => rfl
  | some e => simp only [writtenBack_l1, State.withL1_l1]

theorem refilled_memSize (p : Params) (a : Addr) (s : State) : (refilled p a s).memSize = s.memSize := by
  unfold refilled
  simp only
  cases (l1InsertLine a (behind s.l2 s.mm a) s.l1).evicted with
  | none => simp only [State.withL1_memSize, fetched_memSize, State.countL1Miss_memSize]
  | some e => simp only [writtenBack_memSize, State.withL1_memSize, fetched_memSize, State.countL1Miss_memSize]

theorem victim_inRange {s : State} (h : Coherent s) (a : Addr) (hv : (victim s a).valid = true) :
    (victimAddress s a).toNat < s.memSize := h.l1InRange _ _ hv

theorem refilled_l2Sound (p : Params) (a : Addr) {s : State} (h : Coherent s) (ha : a.toNat < s.memSize) :
    L2Sound (refilled p a s).l2 (refilled p a s).mm s.memSize := by
  have hf := fetched_l2Sound a s.countL1Miss h.l2Sound ha
  have hm := fetched_memSize a s.countL1Miss
  unfold refilled
  simp only [l1InsertLine_evicted]
  by_cases hd : ((victim s a).valid && (victim s a).dirty) = true
  · have hv : (victim s a).valid = true := by simp at hd; exact hd.1
    have := writtenBack_l2Sound p { address := victimAddress s a, data := (victim s a).line }
      ((fetched a s.countL1Miss).withL1 (l1InsertLine a (behind s.l2 s.mm a) s.l1).array)
      (by simpa [hm] using hf) (by simpa [hm] using victim_inRange h a hv)
    simp only [hd, if_true]
    simpa [hm] using this
  · simp only [hd]
    exact hf

/-- Behind L1 the refill changes the line of a dirty victim only (R169). -/
theorem refilled_behind (p : Params) (a b : Addr) {s : State} (h : Coherent s) (ha : a.toNat < s.memSize) :
    behind (refilled p a s).l2 (refilled p a s).mm b =
      if (victim s a).valid = true ∧ (victim s a).dirty = true ∧ (victimAddress s a).toNat / 32 = b.toNat / 32
      then (victim s a).line else behind s.l2 s.mm b := by
  have hf := fetched_l2Sound a s.countL1Miss h.l2Sound ha
  have hm := fetched_memSize a s.countL1Miss
  have hb := fetched_behind a b s.countL1Miss h.l2Sound
  simp only [State.countL1Miss_l2, State.countL1Miss_mm] at hb
  unfold refilled
  simp only [l1InsertLine_evicted]
  by_cases hd : (victim s a).valid = true ∧ (victim s a).dirty = true
  · simp only [hd.1, hd.2, Bool.and_self, if_true, true_and]
    rw [writtenBack_behind p _ b _ (by simpa [hm] using hf)]
    simp only [State.withL1_l2, State.withL1_mm, hb]
  · have hd' : ((victim s a).valid && (victim s a).dirty) = false := by simpa using hd
    simp only [hd', Bool.false_eq_true, if_false]
    rw [if_neg (fun hx => hd ⟨hx.1, hx.2.1⟩)]
    exact hb

theorem l1At_def (l1 : L1Array) (i : BitVec 9) (w : Fin 4) : wayAt (l1SetAt l1 i) w = l1At l1 i w := rfl

/-- After the refill the filled way hits (R171, P9). -/
theorem refilled_hits (p : Params) {a : Addr} {s : State} (hm : missesL1 s a) :
    hitsL1 (refilled p a s) a (fillWay s a) := by
  unfold hitsL1
  rw [refilled_l1]
  simp only [l1InsertLine, l1SetAt_l1PutSet, if_true]
  exact hitWay_putWay_filled hm _ _

/-- The victim's line is not the missing line. -/
theorem victim_other {a : Addr} {s : State} (hm : missesL1 s a) (hv : (victim s a).valid = true) :
    (victimAddress s a).toNat / 32 ≠ a.toNat / 32 := by
  intro he
  have := (addrL1Evict_sameLine_iff _ _ _).1 he
  exact (hitWay_none _ _).1 hm (fillWay s a) hv this.1

/-- An L1 entry that is not the victim has not the victim's address. -/
theorem entry_ne_victim {a : Addr} {s : State} (h : Coherent s) {i : BitVec 9} {u : Fin 4}
    (hne : ¬ (i = (addrL1 a).setIndex ∧ u = fillWay s a)) (hu : (l1At s.l1 i u).valid = true)
    (hv : (victim s a).valid = true) :
    (victimAddress s a).toNat / 32 ≠ (addrL1Evict (l1At s.l1 i u).tag i).toNat / 32 := by
  intro he
  have h1 := (addrL1Evict_sameLine_iff _ _ _).1 he
  have h2 := (addrL1Evict_sameLine_iff (l1At s.l1 i u).tag i (addrL1Evict (l1At s.l1 i u).tag i)).1 rfl
  rw [← h2.1, ← h2.2] at h1
  apply hne
  refine ⟨h1.2.symm, ?_⟩
  have hi := h1.2
  subst hi
  exact h.l1Unique _ u (fillWay s a) hu hv h1.1.symm

/-- R67 to R70: the refill keeps the state coherent. -/
theorem refilled_coherent (p : Params) {a : Addr} {s : State} (h : Coherent s) (ha : a.toNat < s.memSize)
    (hm : missesL1 s a) (hc : (refilled p a s).l2MissCount ≤ (refilled p a s).l1MissCount) :
    Coherent (refilled p a s) := by
  have hs := refilled_l2Sound p a h ha
  have hb := fun b => refilled_behind p a b h ha
  have hat : ∀ i u, l1At (refilled p a s).l1 i u = if i = (addrL1 a).setIndex ∧ u = fillWay s a
      then l1Filled (addrL1 a).tag (behind s.l2 s.mm a) else l1At s.l1 i u := by
    intro i u; rw [refilled_l1, l1InsertLine_at]
  have hfresh : ∀ u, (l1At s.l1 (addrL1 a).setIndex u).valid = true →
      (l1At s.l1 (addrL1 a).setIndex u).tag ≠ (addrL1 a).tag := (hitWay_none _ _).1 hm
  have hline : ∀ t, t = (addrL1 a).tag → (addrL1Evict t (addrL1 a).setIndex).toNat / 32 = a.toNat / 32 :=
    fun t ht => (addrL1Evict_sameLine_iff _ _ _).2 ⟨ht, rfl⟩
  refine ⟨by rw [refilled_memSize]; exact h.sizeMultiple, ?_, ?_, ?_, ?_, ?_, ?_, hc⟩
  · intro i v w hv hw ht
    rw [hat] at hv ht
    rw [hat] at hw ht
    by_cases h1 : i = (addrL1 a).setIndex ∧ v = fillWay s a
    · by_cases h2 : i = (addrL1 a).setIndex ∧ w = fillWay s a
      · rw [h1.2, h2.2]
      · rw [if_pos h1, if_neg h2] at ht
        rw [if_neg h2] at hw
        rw [h1.1] at hw ht
        exact absurd ht.symm (hfresh w hw)
    · by_cases h2 : i = (addrL1 a).setIndex ∧ w = fillWay s a
      · rw [if_neg h1, if_pos h2] at ht
        rw [if_neg h1] at hv
        rw [h2.1] at hv ht
        exact absurd ht (hfresh v hv)
      · rw [if_neg h1, if_neg h2] at ht
        rw [if_neg h1] at hv
        rw [if_neg h2] at hw
        exact h.l1Unique i v w hv hw ht
  · intro i u hv
    rw [hat] at hv ⊢
    split at hv
    · cases hv
    · next h1 => rw [if_neg h1]; exact h.l1InvalidClear i u hv
  · intro i u hv
    rw [hat] at hv ⊢
    rw [refilled_memSize]
    split
    · next h1 =>
      rw [h1.1]
      exact (lt_size_congr h.sizeMultiple (hline _ rfl)).2 ha
    · next h1 => rw [if_neg h1] at hv; exact h.l1InRange i u hv
  · intro i hv
    rw [refilled_memSize]
    exact hs.inRange i hv
  · intro i u hv hd
    rw [hat] at hv hd ⊢
    rw [hb]
    split
    · next h1 =>
      rw [h1.1, if_neg]
      · exact (behind_congr (hline _ rfl) _ _).symm
      · intro hx
        exact victim_other hm hx.1 (hx.2.2.trans (hline _ rfl))
    · next h1 =>
      rw [if_neg h1] at hv hd
      rw [if_neg]
      · exact h.l1CleanAgrees i u hv hd
      · intro hx
        exact entry_ne_victim h h1 hv hx.1 hx.2.2
  · exact hs.cleanAgrees

/-- R68 (iii): the refill changes no line the requester sees. -/
theorem refilled_viewLine (p : Params) {a : Addr} {s : State} (h : Coherent s) (ha : a.toNat < s.memSize)
    (hm : missesL1 s a) (b : Addr) : viewLine (refilled p a s) b = viewLine s b := by
  by_cases hab : a.toNat / 32 = b.toNat / 32
  · rw [viewLine_congr hab.symm, viewLine_congr hab.symm]
    have h1 : viewLine (refilled p a s) a = behind s.l2 s.mm a := by
      unfold viewLine
      rw [refilled_hits p hm]
      simp only
      rw [refilled_l1, l1InsertLine_at, if_pos ⟨rfl, rfl⟩]
      rfl
    have h2 : viewLine s a = behind s.l2 s.mm a := by
      unfold viewLine
      rw [hm]
    rw [h1, h2]
  · -- another line: its way, if any, is the victim or is untouched
    have hset : ∀ u, wayAt (l1SetAt (refilled p a s).l1 (addrL1 b).setIndex) u =
        if (addrL1 b).setIndex = (addrL1 a).setIndex ∧ u = fillWay s a
        then l1Filled (addrL1 a).tag (behind s.l2 s.mm a) else wayAt (l1SetAt s.l1 (addrL1 b).setIndex) u := by
      intro u
      have := l1InsertLine_at a (behind s.l2 s.mm a) s (addrL1 b).setIndex u
      rw [← refilled_l1 p] at this
      exact this
    have hnot : ∀ u, (addrL1 b).setIndex = (addrL1 a).setIndex ∧ u = fillWay s a → (addrL1 a).tag ≠ (addrL1 b).tag :=
      fun u h1 h2 => hab ((addrL1_same_iff a b).1 ⟨h2, h1.1.symm⟩)
    cases hb : hitWay (l1SetAt s.l1 (addrL1 b).setIndex) (addrL1 b).tag with
    | none =>
      have hb' : hitWay (l1SetAt (refilled p a s).l1 (addrL1 b).setIndex) (addrL1 b).tag = none := by
        rw [hitWay_none] at hb ⊢
        intro u hu
        rw [hset] at hu ⊢
        split
        · next h1 => exact hnot u h1
        · next h1 => rw [if_neg h1] at hu; exact hb u hu
      unfold viewLine
      rw [hb, hb', refilled_behind p a b h ha, if_neg]
      intro hx
      have := (addrL1Evict_sameLine_iff _ _ _).1 hx.2.2
      have hv := hx.1
      unfold victim at this hv
      rw [this.2] at hv
      refine (hitWay_none _ _).1 hb (fillWay s a) hv ?_
      rw [← this.1, this.2]
      rfl
    | some w =>
      have hw := hitWay_some hb
      have hvl : viewLine s b = (wayAt (l1SetAt s.l1 (addrL1 b).setIndex) w).line := by
        unfold viewLine; rw [hb]; rfl
      by_cases h1 : (addrL1 b).setIndex = (addrL1 a).setIndex ∧ w = fillWay s a
      · have hvic : victim s a = wayAt (l1SetAt s.l1 (addrL1 b).setIndex) w := by
          unfold victim l1At; rw [h1.1, h1.2]
        have hva : (victimAddress s a).toNat / 32 = b.toNat / 32 :=
          (addrL1Evict_sameLine_iff _ _ _).2 ⟨by rw [hvic, hw.2], h1.1.symm⟩
        have hb' : hitWay (l1SetAt (refilled p a s).l1 (addrL1 b).setIndex) (addrL1 b).tag = none := by
          rw [hitWay_none]
          intro u hu
          rw [hset] at hu ⊢
          split
          · next h2 => exact hnot u h2
          · next h2 =>
            rw [if_neg h2] at hu
            intro ht
            exact h2 ⟨h1.1, (h.l1Unique (addrL1 b).setIndex u w hu hw.1 (ht.trans hw.2.symm)).trans h1.2⟩
        have e : viewLine (refilled p a s) b = behind (refilled p a s).l2 (refilled p a s).mm b := by
          unfold viewLine; rw [hb']
        rw [e, refilled_behind p a b h ha, hvl, hvic]
        by_cases hd : (wayAt (l1SetAt s.l1 (addrL1 b).setIndex) w).dirty = true
        · rw [if_pos ⟨hw.1, hd, hva⟩]
        · rw [if_neg (fun hx => hd hx.2.1)]
          have hcl := h.l1CleanAgrees (addrL1 b).setIndex w hw.1 (by simpa [l1At] using hd)
          have hs : (addrL1Evict (l1At s.l1 (addrL1 b).setIndex w).tag (addrL1 b).setIndex).toNat / 32 = b.toNat / 32 :=
            (addrL1Evict_sameLine_iff _ _ _).2 ⟨hw.2, rfl⟩
          rw [← behind_congr hs, ← hcl]
          rfl
      · have hb' : hitWay (l1SetAt (refilled p a s).l1 (addrL1 b).setIndex) (addrL1 b).tag = some w := by
          have e := hset w
          rw [if_neg h1] at e
          refine hitWay_eq_some (by rw [e]; exact hw.1) (by rw [e]; exact hw.2) (fun u hu ht => ?_)
          rw [hset] at hu ht
          split at hu
          · next h2 => rw [if_pos h2] at ht; exact absurd ht (hnot u h2)
          · next h2 =>
            rw [if_neg h2] at ht
            exact h.l1Unique (addrL1 b).setIndex u w hu hw.1 (ht.trans hw.2.symm)
        have e : viewLine (refilled p a s) b = (wayAt (l1SetAt (refilled p a s).l1 (addrL1 b).setIndex) w).line := by
          unfold viewLine; rw [hb']; rfl
        rw [e, hset, if_neg h1, hvl]

end Sys2Proof.Machine
end

