-- ==== Sys2Proof/Laws/MemAccess.lean ====
section
/-! SUPPORT. MEM_ACCESS in closed form (R161): the access that hits, the access that misses in a coherent state, and the
access out of range; and what an access that hits does to the requester's view. -/

namespace Sys2Proof.Machine

/-- P0 or P9 when way `w` hits: the access itself (R142, R161). -/
def accessed (q : Access) (w : Fin 4) (s : State) : State :=
  finish
    (if q.control.read then
      some (lineWord (l1At s.l1 (addrL1 q.address).setIndex w).line (addrL1 q.address).wordOffset) else none)
    (s.withL1 (l1PutSet s.l1 (addrL1 q.address).setIndex (putWay (l1SetAt s.l1 (addrL1 q.address).setIndex) w
      (l1Touched q.control (addrL1 q.address).wordOffset q.writeData (l1At s.l1 (addrL1 q.address).setIndex w)))))

theorem phase0_hit {q : Access} {s : State} {w : Fin 4} (h : hitsL1 s q.address w) : phase0 q s = accessed q w s := by
  unfold phase0
  rw [l1Access_hit _ _ h]
  rfl

theorem phase0_miss {q : Access} {s : State} (h : missesL1 s q.address) : phase0 q s = s.goto .p1 := by
  unfold phase0
  rw [l1Access_miss _ _ h]
  rfl

theorem phase9_hit {q : Access} {s : State} {w : Fin 4} (h : hitsL1 s q.address w) : phase9 q s = accessed q w s := by
  unfold phase9
  rw [l1Access_hit _ _ h]
  rfl

theorem memAccess_of_run {p : Params} {q : Access} {n : Nat} {s t : State} (hn : n ≤ 10)
    (h : microRun p q n (s.goto .p0) = t) (hr : atRest t = true) : memAccess p q s = t := by
  obtain ⟨m, hm⟩ := Nat.exists_eq_add_of_le hn
  unfold memAccess
  rw [hm, microRun_add, h, microRun_rest _ _ _ _ hr]

/-- R161 (a): an L1 hit is the whole access. -/
theorem memAccess_hit (p : Params) {q : Access} {s : State} {w : Fin 4} (h : hitsL1 s q.address w) :
    memAccess p q s = accessed q w s :=
  memAccess_of_run (n := 1) (by omega)
    (by rw [microRun_succ, microRun_zero]
        exact phase0_hit (s := s.goto .p0) h) rfl

/-- The first three sub-phases of an access that misses. -/
theorem miss_reaches_p2 (p : Params) {q : Access} {s : State} (h : missesL1 s q.address) :
    microRun p q 2 (s.goto .p0) = s.countL1Miss.goto .p2 := by
  rw [microRun_succ, microRun_succ, microRun_zero]
  have e : microStep p q (s.goto .p0) = s.goto .p1 := phase0_miss (s := s.goto .p0) h
  rw [e]
  rfl

/-- P5: the fill, then the write-back if a dirty line was displaced (R161). -/
theorem fill_reaches (p : Params) (q : Access) (fb : Line) (s : State)
    (h : L2Sound s.l2 s.mm s.memSize) :
    ∃ n, n ≤ 4 ∧ microRun p q n (s.goto (.p5 fb)) =
      (match (l1InsertLine q.address fb s.l1).evicted with
        | none => s.withL1 (l1InsertLine q.address fb s.l1).array
        | some eb1 => writtenBack p eb1 (s.withL1 (l1InsertLine q.address fb s.l1).array)).goto .p9 := by
  cases he : (l1InsertLine q.address fb s.l1).evicted with
  | none =>
    refine ⟨1, by omega, ?_⟩
    simp only [microRun_succ, microRun_zero, microStep, State.goto_phase, phase5, State.goto_l1, he]
    rfl
  | some eb1 =>
    obtain ⟨n, hn, hr⟩ := writeBack_reaches p q eb1 (s.withL1 (l1InsertLine q.address fb s.l1).array) h
    refine ⟨n + 1, by omega, ?_⟩
    have e : microStep p q (s.goto (.p5 fb)) = (s.withL1 (l1InsertLine q.address fb s.l1).array).goto (.p6 eb1) := by
      simp only [microStep, State.goto_phase, phase5, State.goto_l1, he]
      rfl
    rw [microRun_succ, e, hr]

/-- R161, R173: in a coherent state an access in range that misses L1 refills, then hits; no retry fails and nothing
faults. -/
theorem memAccess_miss (p : Params) {q : Access} {s : State} (h : Coherent s) (ha : q.address.toNat < s.memSize)
    (hm : missesL1 s q.address) :
    memAccess p q s = accessed q (fillWay s q.address) (refilled p q.address s) := by
  obtain ⟨n, hn, hr⟩ := fetch_reaches p q s.countL1Miss h.l2Sound ha
  have hs : L2Sound (fetched q.address s.countL1Miss).l2 (fetched q.address s.countL1Miss).mm
      (fetched q.address s.countL1Miss).memSize := by
    rw [fetched_memSize]
    exact fetched_l2Sound _ _ h.l2Sound ha
  obtain ⟨m, hm', hr'⟩ := fill_reaches p q (behind s.l2 s.mm q.address) (fetched q.address s.countL1Miss) hs
  have hl1 : (fetched q.address s.countL1Miss).l1 = s.l1 := fetched_l1 _ _
  rw [hl1] at hr'
  refine memAccess_of_run (n := 2 + n + m + 1) (by omega) ?_ rfl
  rw [microRun_add, microRun_add, microRun_add, miss_reaches_p2 p hm, hr]
  have e : ∀ t : State, microRun p q m (t.goto (.p5 (behind s.countL1Miss.l2 s.countL1Miss.mm q.address))) =
    microRun p q m (t.goto (.p5 (behind s.l2 s.mm q.address))) := fun _ => rfl
  rw [e, hr', microRun_succ, microRun_zero]
  have hh := refilled_hits p hm
  have hf : (match (l1InsertLine q.address (behind s.l2 s.mm q.address) s.l1).evicted with
      | none => (fetched q.address s.countL1Miss).withL1 (l1InsertLine q.address (behind s.l2 s.mm q.address) s.l1).array
      | some eb1 => writtenBack p eb1
          ((fetched q.address s.countL1Miss).withL1 (l1InsertLine q.address (behind s.l2 s.mm q.address) s.l1).array))
      = refilled p q.address s := rfl
  rw [hf]
  exact phase9_hit (s := (refilled p q.address s).goto .p9) hh

/-- An address out of range hits neither cache (R70). -/
theorem misses_of_outOfRange {a : Addr} {s : State} (h : Coherent s) (ha : s.memSize ≤ a.toNat) :
    missesL1 s a ∧ l2Lookup a s.l2 = none := by
  have hlt : ∀ b : Addr, b.toNat / 32 = a.toNat / 32 → ¬ b.toNat < s.memSize := fun b hb hx =>
    absurd ((lt_size_congr h.sizeMultiple hb).1 hx) (Nat.not_lt.2 ha)
  constructor
  · rw [missesL1, hitWay_none]
    intro w hv ht
    exact hlt _ ((addrL1Evict_sameLine_iff _ _ _).2 ⟨ht, rfl⟩) (h.l1InRange _ w hv)
  · rw [l2Lookup_eq_none]
    intro hv ht
    exact hlt _ ((addrL2Evict_sameLine_iff _ _ _).2 ⟨ht, rfl⟩) (h.l2InRange _ hv)

/-- R198, R199: an access out of range in a coherent state counts both misses and faults; nothing else moves. -/
theorem memAccess_outOfRange (p : Params) {q : Access} {s : State} (h : Coherent s) (ha : s.memSize ≤ q.address.toNat) :
    memAccess p q s = raise (outOfRange q.address)
      { s with l1MissCount := s.l1MissCount + 1, l2MissCount := s.l2MissCount + 1 } := by
  obtain ⟨hm, hl⟩ := misses_of_outOfRange h ha
  refine memAccess_of_run (n := 2 + 2) (by omega) ?_ rfl
  rw [microRun_add, miss_reaches_p2 p hm, microRun_succ, microRun_succ, microRun_zero]
  have e : microStep p q (s.countL1Miss.goto .p2) = s.countL1Miss.goto .p3 := by
    simp only [microStep, State.goto_phase, phase2, l2Access_readData, State.goto_l2, State.countL1Miss_l2, hl,
      Option.map_none]
    rfl
  have hr : memRead q.address s.memSize s.mm = .error (outOfRange q.address) := by
    unfold memRead
    rw [if_pos ha]
  rw [e]
  simp only [microStep, State.goto_phase, phase3, l2MissRead, State.goto_memSize, State.goto_mm,
    State.countL1Miss_memSize, State.countL1Miss_mm, hr]
  rfl

/-! ### What the access itself changes -/

@[simp] theorem accessed_l2 (q : Access) (w : Fin 4) (s : State) : (accessed q w s).l2 = s.l2 := rfl
@[simp] theorem accessed_mm (q : Access) (w : Fin 4) (s : State) : (accessed q w s).mm = s.mm := rfl
@[simp] theorem accessed_memSize (q : Access) (w : Fin 4) (s : State) : (accessed q w s).memSize = s.memSize := rfl
@[simp] theorem accessed_l1MissCount (q : Access) (w : Fin 4) (s : State) :
    (accessed q w s).l1MissCount = s.l1MissCount := rfl
@[simp] theorem accessed_l2MissCount (q : Access) (w : Fin 4) (s : State) :
    (accessed q w s).l2MissCount = s.l2MissCount := rfl
@[simp] theorem accessed_phase (q : Access) (w : Fin 4) (s : State) : (accessed q w s).phase = .idle := rfl
@[simp] theorem accessed_fault (q : Access) (w : Fin 4) (s : State) : (accessed q w s).fault = s.fault := rfl
@[simp] theorem accessed_requests (q : Access) (w : Fin 4) (s : State) : (accessed q w s).requests = s.requests := rfl

/-- R142, R148: one entry changes. -/
theorem accessed_at (q : Access) (w : Fin 4) (s : State) (i : BitVec 9) (u : Fin 4) :
    l1At (accessed q w s).l1 i u =
      if i = (addrL1 q.address).setIndex ∧ u = w then
        l1Touched q.control (addrL1 q.address).wordOffset q.writeData (l1At s.l1 (addrL1 q.address).setIndex w)
      else l1At s.l1 i u :=
  l1At_l1PutSet_putWay _ _ _ _ _ _

/-- No entry's `valid` or `tag` changes. -/
theorem accessed_valid_tag (q : Access) (w : Fin 4) (s : State) (i : BitVec 9) (u : Fin 4) :
    (l1At (accessed q w s).l1 i u).valid = (l1At s.l1 i u).valid ∧
      (l1At (accessed q w s).l1 i u).tag = (l1At s.l1 i u).tag := by
  rw [accessed_at]
  split
  · next h => rw [h.1, h.2]; exact ⟨rfl, rfl⟩
  · exact ⟨rfl, rfl⟩

/-- R67 to R70: the access keeps the state coherent. -/
theorem accessed_coherent {q : Access} {w : Fin 4} {s : State} (h : Coherent s) (hh : hitsL1 s q.address w) :
    Coherent (accessed q w s) := by
  have hw : (l1At s.l1 (addrL1 q.address).setIndex w).valid = true := (hitWay_some hh).1
  have hvt := accessed_valid_tag q w s
  refine ⟨h.sizeMultiple, ?_, ?_, ?_, h.l2InRange, ?_, h.l2CleanAgrees, h.missesOrdered⟩
  · intro i v u hv hu ht
    rw [(hvt i v).1] at hv
    rw [(hvt i u).1] at hu
    rw [(hvt i v).2, (hvt i u).2] at ht
    exact h.l1Unique i v u hv hu ht
  · intro i u hu
    rw [(hvt i u).1] at hu
    rw [accessed_at, if_neg]
    · exact h.l1InvalidClear i u hu
    · rintro ⟨rfl, rfl⟩
      rw [hw] at hu
      cases hu
  · intro i u hu
    rw [(hvt i u).1] at hu
    rw [(hvt i u).2]
    exact h.l1InRange i u hu
  · intro i u hu hd
    rw [(hvt i u).1] at hu
    rw [(hvt i u).2]
    rw [accessed_at] at hd ⊢
    split
    · next hx =>
      rw [if_pos hx] at hd
      obtain ⟨rfl, rfl⟩ := hx
      have hd' : q.control.write = false ∧ (l1At s.l1 (addrL1 q.address).setIndex u).dirty = false := by
        simpa [l1Touched] using hd
      have := h.l1CleanAgrees _ u hu hd'.2
      simpa [l1Touched, hd'.1] using this
    · next hx =>
      rw [if_neg hx] at hd
      exact h.l1CleanAgrees i u hu hd

/-- The same ways hit after the access. -/
theorem accessed_hitWay (q : Access) (w : Fin 4) (s : State) (i : BitVec 9) (t : BitVec 18) :
    hitWay (l1SetAt (accessed q w s).l1 i) t = hitWay (l1SetAt s.l1 i) t := by
  have hvt := fun u => accessed_valid_tag q w s i u
  simp only [l1At] at hvt
  simp only [hitWay, firstWay, hvt]

/-- R68: the access changes the line it names only, and that by one word at most. -/
theorem accessed_viewLine {q : Access} {w : Fin 4} {s : State} (hh : hitsL1 s q.address w) (b : Addr) :
    viewLine (accessed q w s) b =
      if q.address.toNat / 32 = b.toNat / 32 then
        (if q.control.write then lineSetWord (viewLine s q.address) (addrL1 q.address).wordOffset q.writeData
          else viewLine s q.address)
      else viewLine s b := by
  by_cases hab : q.address.toNat / 32 = b.toNat / 32
  · rw [if_pos hab, viewLine_congr hab.symm]
    have hv : viewLine s q.address = (l1At s.l1 (addrL1 q.address).setIndex w).line := by
      unfold viewLine; rw [hh]
    rw [hv]
    unfold viewLine
    rw [accessed_hitWay, hh]
    simp only
    rw [accessed_at, if_pos ⟨rfl, rfl⟩]
    rfl
  · rw [if_neg hab]
    unfold viewLine
    rw [accessed_hitWay]
    cases hb : hitWay (l1SetAt s.l1 (addrL1 b).setIndex) (addrL1 b).tag with
    | none => rfl
    | some u =>
      simp only
      rw [accessed_at, if_neg]
      rintro ⟨hi, rfl⟩
      apply hab
      have h1 := (hitWay_some hh).2
      have h2 := (hitWay_some hb).2
      rw [hi] at h2
      exact (addrL1_same_iff _ _).1 ⟨h1.symm.trans h2, hi.symm⟩

theorem view_of_viewLine {s t : State} (h : ∀ a, viewLine t a = viewLine s a) (a : Addr) : view t a = view s a := by
  rw [view_eq, view_eq, h]

/-- R68 (i): the access writes its own word of the view and no other. -/
theorem accessed_view {q : Access} {w : Fin 4} {s : State} (hh : hitsL1 s q.address w) (b : Addr) :
    view (accessed q w s) b =
      if q.control.write = true ∧ q.address.toNat / 4 = b.toNat / 4 then q.writeData else view s b := by
  rw [view_eq, accessed_viewLine hh]
  have ha := addrL1_wordOffset_toNat q.address
  have hb := addrL1_wordOffset_toNat b
  by_cases hab : q.address.toNat / 32 = b.toNat / 32
  · rw [if_pos hab]
    by_cases hw : q.control.write = true
    · rw [if_pos hw]
      by_cases h4 : q.address.toNat / 4 = b.toNat / 4
      · have : (addrL1 b).wordOffset = (addrL1 q.address).wordOffset := by
          rw [← BitVec.toNat_inj, ha, hb]; omega
        rw [this, lineWord_lineSetWord_same, if_pos ⟨hw, h4⟩]
      · have : (addrL1 b).wordOffset ≠ (addrL1 q.address).wordOffset := by
          rw [← BitVec.toNat_inj.ne, ha, hb]; omega
        rw [lineWord_lineSetWord_other _ _ this, if_neg (fun hx => h4 hx.2), view_eq, viewLine_congr hab]
    · rw [if_neg hw, if_neg (fun hx => hw hx.1), view_eq, viewLine_congr hab]
  · rw [if_neg hab, if_neg, view_eq]
    rintro ⟨-, h4⟩
    omega

/-- R174: what the access returns. -/
theorem accessed_result {q : Access} {w : Fin 4} {s : State} (hh : hitsL1 s q.address w) :
    (accessed q w s).result = .memAccess (if q.control.read then some (view s q.address) else none) := by
  have : view s q.address =
      lineWord (l1At s.l1 (addrL1 q.address).setIndex w).line (addrL1 q.address).wordOffset := by
    rw [view_eq]; unfold viewLine; rw [hh]
  rw [this]
  rfl

/-! ### The other elements across a refill -/

theorem fetched_requests (a : Addr) (s : State) : (fetched a s).requests = s.requests := by
  unfold fetched; split <;> rfl

theorem fetched_fault (a : Addr) (s : State) : (fetched a s).fault = s.fault := by
  unfold fetched; split <;> rfl

theorem fetched_l1MissCount (a : Addr) (s : State) : (fetched a s).l1MissCount = s.l1MissCount := by
  unfold fetched; split <;> rfl

theorem fetched_l2MissCount (a : Addr) (s : State) :
    (fetched a s).l2MissCount = s.l2MissCount + (if inL2 s a then 0 else 1) := by
  unfold fetched inL2; cases l2Lookup a s.l2 <;> rfl

theorem writtenBack_requests (p : Params) (e : Evicted) (s : State) : (writtenBack p e s).requests = s.requests := by
  unfold writtenBack; simp only; split <;> rfl

theorem writtenBack_fault (p : Params) (e : Evicted) (s : State) : (writtenBack p e s).fault = s.fault := by
  unfold writtenBack; simp only; split <;> rfl

theorem writtenBack_l1MissCount (p : Params) (e : Evicted) (s : State) :
    (writtenBack p e s).l1MissCount = s.l1MissCount := by
  unfold writtenBack; simp only; split <;> rfl

/-- D7: with the parameter false a write-caused L2 miss is not counted. -/
theorem writtenBack_l2MissCount {p : Params} (hp : p.countWritebackL2Miss = false) (e : Evicted) (s : State) :
    (writtenBack p e s).l2MissCount = s.l2MissCount := by
  unfold writtenBack; simp only; split <;> simp [hp]

theorem refilled_requests (p : Params) (a : Addr) (s : State) : (refilled p a s).requests = s.requests := by
  unfold refilled
  simp only
  cases (l1InsertLine a (behind s.l2 s.mm a) s.l1).evicted with
  | none => simp only [State.withL1_requests, fetched_requests, State.countL1Miss_requests]
  | some e => simp only [writtenBack_requests, State.withL1_requests, fetched_requests, State.countL1Miss_requests]

theorem refilled_fault (p : Params) (a : Addr) (s : State) : (refilled p a s).fault = s.fault := by
  unfold refilled
  simp only
  cases (l1InsertLine a (behind s.l2 s.mm a) s.l1).evicted with
  | none => simp only [State.withL1_fault, fetched_fault, State.countL1Miss_fault]
  | some e => simp only [writtenBack_fault, State.withL1_fault, fetched_fault, State.countL1Miss_fault]

/-- R161, P1: one L1 miss is counted. -/
theorem refilled_l1MissCount (p : Params) (a : Addr) (s : State) :
    (refilled p a s).l1MissCount = s.l1MissCount + 1 := by
  unfold refilled
  simp only
  cases (l1InsertLine a (behind s.l2 s.mm a) s.l1).evicted with
  | none => simp only [State.withL1_l1MissCount, fetched_l1MissCount, State.countL1Miss_l1MissCount]
  | some e =>
    simp only [writtenBack_l1MissCount, State.withL1_l1MissCount, fetched_l1MissCount, State.countL1Miss_l1MissCount]

/-- R161, P3, D7: an L2 miss is counted when the fetch missed. -/
theorem refilled_l2MissCount {p : Params} (hp : p.countWritebackL2Miss = false) (a : Addr) (s : State) :
    (refilled p a s).l2MissCount = s.l2MissCount + (if inL2 s a then 0 else 1) := by
  have hi : inL2 s.countL1Miss a = inL2 s a := rfl
  unfold refilled
  simp only
  cases (l1InsertLine a (behind s.l2 s.mm a) s.l1).evicted with
  | none => simp only [State.withL1_l2MissCount, fetched_l2MissCount, State.countL1Miss_l2MissCount, hi]
  | some e =>
    simp only [writtenBack_l2MissCount hp, State.withL1_l2MissCount, fetched_l2MissCount,
      State.countL1Miss_l2MissCount, hi]

end Sys2Proof.Machine
end

