-- ==== Sys2Proof/Laws/Canonical.lean ====
section
/-! SUPPORT. Every operation on an array keeps its canonical form (log 6, log 7). -/

namespace Sys2Proof.Machine

/-- The canonical form of L1. -/
abbrev l1Wf (l1 : L1Array) : Prop := Cells.wf L1Set.empty Config.l1Sets l1 = true

/-- The canonical form of L2. -/
abbrev l2Wf (l2 : L2Array) : Prop := Cells.wf L2Entry.empty Config.l2Entries l2 = true

theorem l1PutSet_wf (l1 : L1Array) (i : BitVec 9) (set : L1Set) (h : l1Wf l1) : l1Wf (l1PutSet l1 i set) :=
  Cells.wf_set _ _ _ h i.isLt

theorem l2Put_wf (l2 : L2Array) (i : BitVec 15) (e : L2Entry) (h : l2Wf l2) : l2Wf (l2Put l2 i e) :=
  Cells.wf_set _ _ _ h i.isLt

theorem mmPutWord_wf {size : Nat} (mm : Memory) (j : Nat) (w : Word) (h : Memory.wf size mm = true) (hj : j < size / 4) :
    Memory.wf size (mmPutWord mm j w) = true := Cells.wf_set _ _ _ h hj

theorem mmPutWords_wf {size : Nat} (ws : List Word) (mm : Memory) (j : Nat) (h : Memory.wf size mm = true)
    (hj : j + ws.length ≤ size / 4) : Memory.wf size (mmPutWords mm j ws) = true := by
  induction ws generalizing mm j with
  | nil => exact h
  | cons w ws ih =>
    simp only [List.length_cons] at hj
    exact ih _ _ (mmPutWord_wf mm j w h (by omega)) (by omega)

/-- A line in range is written inside Main Memory (R123). -/
theorem mmPutLine_wf {size : Nat} (mm : Memory) (a : Addr) (l : Line) (hs : size % 32 = 0) (ha : a.toNat < size)
    (h : Memory.wf size mm = true) : Memory.wf size (mmPutLine mm (addrWordIdx a) l) = true := by
  refine mmPutWords_wf _ _ _ h ?_
  rw [addrWordIdx_eq]
  simp only [Vector.length_toList]
  omega

theorem l1Init_wf (l1 : L1Array) (h : l1Wf l1) : l1Wf (l1Init l1) := Cells.wf_mapAll _ _ h

theorem l1ClearRef_wf (l1 : L1Array) (h : l1Wf l1) : l1Wf (l1ClearRef l1) := Cells.wf_mapAll _ _ h

theorem l2Init_wf (l2 : L2Array) (h : l2Wf l2) : l2Wf (l2Init l2) := Cells.wf_mapAll _ _ h

theorem l1Access_wf (c : Control) (a : Addr) (w : Word) (l1 : L1Array) (h : l1Wf l1) :
    l1Wf (l1Access c a w l1).array := by
  unfold l1Access
  simp only
  split
  · exact h
  · exact l1PutSet_wf _ _ _ h

theorem l1InsertLine_wf (a : Addr) (l : Line) (l1 : L1Array) (h : l1Wf l1) : l1Wf (l1InsertLine a l l1).array :=
  l1PutSet_wf _ _ _ h

theorem l2Access_wf (c : Control) (a : Addr) (d : Line) (l2 : L2Array) (h : l2Wf l2) :
    l2Wf (l2Access c a d l2).array := by
  unfold l2Access
  split
  · exact h
  · simp only
    split
    · exact l2Put_wf _ _ _ h
    · exact h

theorem l2InsertLine_wf (a : Addr) (l : Line) (l2 : L2Array) (h : l2Wf l2) : l2Wf (l2InsertLine a l l2).array :=
  l2Put_wf l2 (addrL2 a).index (l2Filled (addrL2 a).tag l) h

theorem memWrite_wf {size : Nat} (mm mm' : Memory) (a : Addr) (l : Line) (hs : size % 32 = 0)
    (h : Memory.wf size mm = true) (hw : memWrite a l size mm = .ok mm') : Memory.wf size mm' = true := by
  unfold memWrite at hw
  split at hw
  · cases hw
  · next hr => cases hw; exact mmPutLine_wf mm a l hs (by omega) h

theorem mmAccess_wf {size : Nat} (c : Control) (mm mm' : Memory) (a : Addr) (l : Line) (rd : Option Line)
    (hs : size % 32 = 0) (h : Memory.wf size mm = true) (hw : mmAccess c a l size mm = .ok (rd, mm')) :
    Memory.wf size mm' = true := by
  unfold mmAccess at hw
  split at hw
  · cases hw
  · next hr =>
    simp only [Except.ok.injEq, Prod.mk.injEq] at hw
    rw [← hw.2]
    split
    · exact mmPutLine_wf mm a l hs (by omega) h
    · exact h

/-- Main Memory after MM.INIT is empty, so canonical at its new size (R121). -/
theorem mmInit_wf {size size' : Nat} {mm : Memory} (h : mmInit size = .ok (size', mm)) :
    size' % 32 = 0 ∧ Memory.wf size' mm = true := by
  unfold mmInit at h
  split at h
  · cases h
  · next hs =>
    simp only [Except.ok.injEq, Prod.mk.injEq] at h
    obtain ⟨rfl, rfl⟩ := h
    exact ⟨by simpa [Config.lineBytes] using hs, rfl⟩

/-- The handlers' tail keeps the canonical form, whether it faults or not. -/
theorem l2MissFill_canonical (a : Addr) (sb : Line) (s : State) (h : CanonicalForm s) :
    CanonicalForm (settle (l2MissFill a sb s)) := by
  unfold l2MissFill
  have hl := l2InsertLine_wf a sb s.l2 h.l2
  cases he : (l2InsertLine a sb s.l2).evicted with
  | none =>
    simp only [he]
    exact ⟨h.sizeMultiple, h.l1, hl, h.mm⟩
  | some e =>
    simp only [he]
    cases hw : memWrite e.address e.data s.memSize s.mm with
    | error f =>
      simp only
      exact ⟨h.sizeMultiple, h.l1, hl, h.mm⟩
    | ok mm =>
      simp only
      exact ⟨h.sizeMultiple, h.l1, hl, memWrite_wf _ _ _ _ h.sizeMultiple h.mm hw⟩

end Sys2Proof.Machine
end

