-- ==== Sys2Proof/Laws/Encoding.lean ====
section
/-! SUPPORT. The fields of a concatenation, of a request header (R88, R90), of the line bus (R90) and of the arbiter's
input (R150). -/

namespace Sys2Proof

theorem extract_append_low {m n : Nat} (x : BitVec m) (y : BitVec n) : (x ++ y).extractLsb' 0 n = y := by
  apply BitVec.eq_of_getLsbD_eq
  intro i hi
  simp [BitVec.getLsbD_append, hi]

theorem extract_append_high {m n : Nat} (x : BitVec m) (y : BitVec n) : (x ++ y).extractLsb' n m = x := by
  apply BitVec.eq_of_getLsbD_eq
  intro i hi
  simp [BitVec.getLsbD_append, hi]

theorem extract_append_shift {m n k s : Nat} (x : BitVec m) (y : BitVec n) :
    (x ++ y).extractLsb' (n + s) k = x.extractLsb' s k := by
  apply BitVec.eq_of_getLsbD_eq
  intro i hi
  simp [BitVec.getLsbD_append, hi, show ¬ (n + s + i < n) by omega, show n + s + i - n = s + i by omega]

/-- R88: the fields of an XREQ header. -/
theorem xreqHeader_fields (op c : BitVec 2) (a : Addr) :
    (xreqHeader op c a).extractLsb' 34 2 = op ∧ (xreqHeader op c a).extractLsb' 32 2 = c ∧
      (xreqHeader op c a).extractLsb' 0 32 = a :=
  ⟨(extract_append_shift (s := 2) (k := 2) (op ++ c) a).trans (extract_append_high op c),
    (extract_append_shift (s := 0) (k := 2) (op ++ c) a).trans (extract_append_low op c), extract_append_low _ _⟩

/-- R90: the fields of a UOP header. -/
theorem uopHeader_fields (u f c : BitVec 2) (a : Addr) :
    (uopHeader u f c a).extractLsb' 36 2 = u ∧ (uopHeader u f c a).extractLsb' 34 2 = f ∧
      (uopHeader u f c a).extractLsb' 32 2 = c ∧ (uopHeader u f c a).extractLsb' 0 32 = a := by
  refine ⟨?_, ?_, ?_, extract_append_low _ _⟩
  · exact (extract_append_shift (s := 4) (k := 2) (u ++ f ++ c) a).trans
      ((extract_append_shift (s := 2) (k := 2) (u ++ f) c).trans (extract_append_high u f))
  · exact (extract_append_shift (s := 2) (k := 2) (u ++ f ++ c) a).trans
      ((extract_append_shift (s := 0) (k := 2) (u ++ f) c).trans (extract_append_low u f))
  · exact (extract_append_shift (s := 0) (k := 2) (u ++ f ++ c) a).trans (extract_append_low _ _)

/-- R85. -/
theorem controlOfBits_bitsOfControl (c : Control) : controlOfBits (bitsOfControl c) = c := by
  rcases c with ⟨_ | _, _ | _⟩ <;> rfl

/-- R88, R89: an XREQ by its fields. -/
theorem decode_xreq (op c : BitVec 2) (a : Addr) (w : Word) (n : Nat) :
    decode (.xreq (xreqHeader op c a) w n) =
      if op = 0b00#2 then .ok (decodeMemAccess c a w)
      else if op = 0b01#2 then .ok .clockTick
      else if op = 0b10#2 then .ok (.init n)
      else .error .reservedXreqOp := by
  obtain ⟨h1, h2, h3⟩ := xreqHeader_fields op c a
  simp only [decode, decodeXreq, h1, h2, h3]

/-- R90, R91: a UOP by its fields. -/
theorem decode_uop (u f c : BitVec 2) (a : Addr) (b : BitVec 256) (n : Nat) :
    decode (.uop (uopHeader u f c a) b n) =
      if u = 0b00#2 then decodeMmFn f (controlOfBits c) a b n
      else if u = 0b01#2 then decodeL2Fn f (controlOfBits c) a b
      else if u = 0b10#2 then .ok (decodeL1Fn f (controlOfBits c) a b)
      else decodeControllerFn f a := by
  obtain ⟨h1, h2, h3, h4⟩ := uopHeader_fields u f c a
  simp only [decode, decodeUop, h1, h2, h3, h4]

/-- R90: word `k` of the line bus. -/
theorem lineWord_lineOfBus (b : BitVec 256) (k : BitVec 3) : Machine.lineWord (lineOfBus b) k = b.extractLsb' (32 * k.toNat) 32 := by
  have h := k.isLt
  obtain ⟨n, hn⟩ : ∃ n, k.toNat = n := ⟨_, rfl⟩
  have : n = 0 ∨ n = 1 ∨ n = 2 ∨ n = 3 ∨ n = 4 ∨ n = 5 ∨ n = 6 ∨ n = 7 := by omega
  simp only [Machine.lineWord, hn]
  rcases this with rfl | rfl | rfl | rfl | rfl | rfl | rfl | rfl <;> rfl

/-- R90. -/
theorem lineOfBus_busOfLine (l : Line) : lineOfBus (busOfLine l) = l := by
  refine Machine.line_ext fun k => ?_
  rw [lineWord_lineOfBus]
  have h := k.isLt
  obtain ⟨n, hn⟩ : ∃ n, k.toNat = n := ⟨_, rfl⟩
  have : n = 0 ∨ n = 1 ∨ n = 2 ∨ n = 3 ∨ n = 4 ∨ n = 5 ∨ n = 6 ∨ n = 7 := by omega
  simp only [Machine.lineWord, hn]
  have lo {j : Nat} (x : BitVec j) (y : BitVec 32) : (x ++ y).extractLsb' 0 32 = y := extract_append_low x y
  have m (s : Nat) {j : Nat} (x : BitVec j) (y : BitVec 32) :
      (x ++ y).extractLsb' (32 + s) 32 = x.extractLsb' s 32 := extract_append_shift x y
  rcases this with rfl | rfl | rfl | rfl | rfl | rfl | rfl | rfl
  · exact lo _ _
  · exact (m 0 _ _).trans (lo _ _)
  · exact (m 32 _ _).trans ((m 0 _ _).trans (lo _ _))
  · exact (m 64 _ _).trans ((m 32 _ _).trans ((m 0 _ _).trans (lo _ _)))
  · exact (m 96 _ _).trans ((m 64 _ _).trans ((m 32 _ _).trans ((m 0 _ _).trans (lo _ _))))
  · exact (m 128 _ _).trans ((m 96 _ _).trans ((m 64 _ _).trans ((m 32 _ _).trans ((m 0 _ _).trans (lo _ _)))))
  · exact (m 160 _ _).trans ((m 128 _ _).trans ((m 96 _ _).trans ((m 64 _ _).trans ((m 32 _ _).trans
      ((m 0 _ _).trans (lo _ _))))))
  · exact (m 192 _ _).trans ((m 160 _ _).trans ((m 128 _ _).trans ((m 96 _ _).trans ((m 64 _ _).trans
      ((m 32 _ _).trans (extract_append_high _ _))))))

/-- R90. -/
theorem wordOfBus_busOfWord (w : Word) : wordOfBus (busOfWord w) = w := by
  apply BitVec.eq_of_getLsbD_eq
  intro i hi
  simp [wordOfBus, busOfWord, hi]
  omega

/-- R150: way `k` of the arbiter's input is bits `3k+2 : 3k`. -/
theorem wayBitsOf_eq {x : BitVec 12} {k : Nat} {w : WayBits} (h : x.extractLsb' (3 * k) 3 = bitsOfWay w) :
    wayBitsOf x k = w := by
  have e (j : Nat) (hj : j < 3) : x.getLsbD (3 * k + j) = (bitsOfWay w).getLsbD j := by
    rw [← h, BitVec.getLsbD_extractLsb']
    simp [hj]
  have h0 := e 0 (by omega)
  have h1 := e 1 (by omega)
  have h2 := e 2 (by omega)
  rw [Nat.add_zero] at h0
  unfold wayBitsOf
  rw [h0, h1, h2]
  rcases w with ⟨_ | _, _ | _, _ | _⟩ <;> rfl

/-- R150. -/
theorem wayBitsOf_bitsOfWay (x3 x2 x1 x0 : WayBits) :
    wayBitsOf (bitsOfWay x3 ++ bitsOfWay x2 ++ bitsOfWay x1 ++ bitsOfWay x0) 0 = x0 ∧
    wayBitsOf (bitsOfWay x3 ++ bitsOfWay x2 ++ bitsOfWay x1 ++ bitsOfWay x0) 1 = x1 ∧
    wayBitsOf (bitsOfWay x3 ++ bitsOfWay x2 ++ bitsOfWay x1 ++ bitsOfWay x0) 2 = x2 ∧
    wayBitsOf (bitsOfWay x3 ++ bitsOfWay x2 ++ bitsOfWay x1 ++ bitsOfWay x0) 3 = x3 := by
  have lo {j : Nat} (x : BitVec j) (y : BitVec 3) : (x ++ y).extractLsb' 0 3 = y := extract_append_low x y
  have m (s : Nat) {j : Nat} (x : BitVec j) (y : BitVec 3) : (x ++ y).extractLsb' (3 + s) 3 = x.extractLsb' s 3 :=
    extract_append_shift x y
  exact ⟨wayBitsOf_eq (k := 0) (lo _ _), wayBitsOf_eq (k := 1) ((m 0 _ _).trans (lo _ _)),
    wayBitsOf_eq (k := 2) ((m 3 _ _).trans ((m 0 _ _).trans (lo _ _))),
    wayBitsOf_eq (k := 3) ((m 6 _ _).trans ((m 3 _ _).trans (extract_append_high _ _)))⟩

end Sys2Proof
end

