-- ==== Sys2Proof/Laws/PerInstr.lean ====
section
/-! SUPPORT. Per constructor: an operation's request has the format of its class (R88, R90, R97), and no operation is of
two classes. -/

namespace Sys2Proof.Laws.EncodedFormat

/-- External exactly when encoded as XREQ; internal exactly when encoded as UOP; never external and combinational. -/
def Statement (i : Instr) : Prop :=
  (i.isExternal = true ↔ ∃ h w n, encode i = .xreq h w n) ∧
  ((i.isExternal = false ∧ i.isCombinational = false) ↔ ∃ h b n, encode i = .uop h b n) ∧
  ¬ (i.isExternal = true ∧ i.isCombinational = true)

theorem memTouch (a : Addr) : Statement (.memTouch a) := by
  simp [Statement, Instr.isExternal, Instr.isCombinational, encode]

theorem memRead (a : Addr) : Statement (.memRead a) := by
  simp [Statement, Instr.isExternal, Instr.isCombinational, encode]

theorem memWrite (a : Addr) (w : Word) : Statement (.memWrite a w) := by
  simp [Statement, Instr.isExternal, Instr.isCombinational, encode]

theorem memRdwr (a : Addr) (w : Word) : Statement (.memRdwr a w) := by
  simp [Statement, Instr.isExternal, Instr.isCombinational, encode]

theorem clockTick : Statement .clockTick := by
  simp [Statement, Instr.isExternal, Instr.isCombinational, encode]

theorem init (size : Nat) : Statement (.init size) := by
  simp [Statement, Instr.isExternal, Instr.isCombinational, encode]

theorem l2missR (a : Addr) : Statement (.l2missR a) := by
  simp [Statement, Instr.isExternal, Instr.isCombinational, encode]

theorem l2missW (a : Addr) : Statement (.l2missW a) := by
  simp [Statement, Instr.isExternal, Instr.isCombinational, encode]

theorem l1Access (c : Control) (a : Addr) (w : Word) : Statement (.l1Access c a w) := by
  simp [Statement, Instr.isExternal, Instr.isCombinational, encode]

theorem l1InsertLine (a : Addr) (l : Line) : Statement (.l1InsertLine a l) := by
  simp [Statement, Instr.isExternal, Instr.isCombinational, encode]

theorem l1Init : Statement .l1Init := by
  simp [Statement, Instr.isExternal, Instr.isCombinational, encode]

theorem l1ClearRef : Statement .l1ClearRef := by
  simp [Statement, Instr.isExternal, Instr.isCombinational, encode]

theorem l2Access (c : Control) (a : Addr) (l : Line) : Statement (.l2Access c a l) := by
  simp [Statement, Instr.isExternal, Instr.isCombinational, encode]

theorem l2InsertLine (a : Addr) (l : Line) : Statement (.l2InsertLine a l) := by
  simp [Statement, Instr.isExternal, Instr.isCombinational, encode]

theorem l2Init : Statement .l2Init := by
  simp [Statement, Instr.isExternal, Instr.isCombinational, encode]

theorem mmAccess (c : Control) (a : Addr) (l : Line) : Statement (.mmAccess c a l) := by
  simp [Statement, Instr.isExternal, Instr.isCombinational, encode]

theorem mmInit (size : Nat) : Statement (.mmInit size) := by
  simp [Statement, Instr.isExternal, Instr.isCombinational, encode]

theorem addrL1 (a : Addr) : Statement (.addrL1 a) := by
  simp [Statement, Instr.isExternal, Instr.isCombinational, encode]

theorem addrL2 (a : Addr) : Statement (.addrL2 a) := by
  simp [Statement, Instr.isExternal, Instr.isCombinational, encode]

theorem addrLine (a : Addr) : Statement (.addrLine a) := by
  simp [Statement, Instr.isExternal, Instr.isCombinational, encode]

theorem addrWordidx (a : Addr) : Statement (.addrWordidx a) := by
  simp [Statement, Instr.isExternal, Instr.isCombinational, encode]

theorem addrL1Evict (t : BitVec 18) (s : BitVec 9) : Statement (.addrL1Evict t s) := by
  simp [Statement, Instr.isExternal, Instr.isCombinational, encode]

theorem addrL2Evict (t : BitVec 12) (i : BitVec 15) : Statement (.addrL2Evict t i) := by
  simp [Statement, Instr.isExternal, Instr.isCombinational, encode]

theorem nruSelect (s : Vector WayBits 4) : Statement (.nruSelect s) := by
  simp [Statement, Instr.isExternal, Instr.isCombinational, encode]

end Sys2Proof.Laws.EncodedFormat
end

