-- ==== Sys2Proof/Tests/Slice0.lean ====
section
/-! SUPPORT. Tests: ill-formed terms the checks refuse; words written out from the spec's encodings; the spec's worked
examples and vectors (each names its rule or the id of spec/95_test_vectors.md), one step each; and for every statement
with hypotheses a concrete state and operands that meet them. -/

namespace Sys2Proof.Tests

open Sys2Proof.Machine

/-! ### WellFormed refuses -/

theorem test_misaligned_read_refused : (Instr.memRead 0x5).wellFormed = false := by decide
theorem test_misaligned_write_refused : (Instr.memWrite 0x7 5).wellFormed = false := by decide
theorem test_misaligned_touch_refused : (Instr.memTouch 0x1).wellFormed = false := by decide
theorem test_misaligned_rdwr_refused : (Instr.memRdwr 0x2 5).wellFormed = false := by decide
theorem test_init_size_refused : (Instr.init 48).wellFormed = false := by decide
theorem test_mm_init_size_refused : (Instr.mmInit 33).wellFormed = false := by decide
theorem test_l2miss_write_unaligned_refused : (Instr.l2missW 0x24).wellFormed = false := by decide
theorem test_invalid_way_with_reference_refused :
    (Instr.nruSelect #v[⟨false, true, false⟩, ⟨true, true, true⟩, ⟨true, true, true⟩, ⟨true, true, true⟩]).wellFormed =
      false := by decide
theorem test_aligned_read_accepted : (Instr.memRead 0x24).wellFormed = true := by decide

/-! ### Words written out from the encodings (R88 to R91, R96, R110 to R115, R150) -/

theorem test_decode_mem_touch : decode (.xreq 0x000000020#36 0 0) = .ok (.memTouch 0x20) := by decide
theorem test_decode_mem_read : decode (.xreq 0x100000024#36 0 0) = .ok (.memRead 0x24) := by decide
theorem test_decode_mem_write : decode (.xreq 0x200000024#36 0xBBBB 0) = .ok (.memWrite 0x24 0xBBBB) := by decide
theorem test_decode_mem_rdwr : decode (.xreq 0x30000003C#36 9 0) = .ok (.memRdwr 0x3C 9) := by decide
theorem test_decode_clock_tick : decode (.xreq 0x712345678#36 0 0) = .ok .clockTick := by decide
theorem test_decode_init : decode (.xreq 0x800000000#36 0 64) = .ok (.init 64) := by decide
theorem test_decode_reserved_op : decode (.xreq 0xC00000000#36 0 0) = .error .reservedXreqOp := by decide
theorem test_decode_l2miss_r : decode (.uop 0x3000200000#38 0 0) = .ok (.l2missR 0x200000) := by decide
theorem test_decode_l2miss_w : decode (.uop 0x3400200000#38 0 0) = .ok (.l2missW 0x200000) := by decide
theorem test_decode_l1_access : decode (.uop 0x2300000008#38 0xD3 0) = .ok (.l1Access .both 0x8 0xD3) := by decide
theorem test_decode_l1_insert : decode (.uop 0x2400010000#38 0x2000000011 0) =
    .ok (.l1InsertLine 0x10000 #v[0x11, 0x20, 0, 0, 0, 0, 0, 0]) := by decide
theorem test_decode_l1_init : decode (.uop 0x2800000000#38 0 0) = .ok .l1Init := by decide
theorem test_decode_l1_clear_ref : decode (.uop 0x2C00000000#38 0 0) = .ok .l1ClearRef := by decide
theorem test_decode_l2_access : decode (.uop 0x1100100024#38 0 0) = .ok (.l2Access .readOnly 0x100024 Line.zero) := by
  decide
theorem test_decode_l2_insert : decode (.uop 0x1400200000#38 0 0) = .ok (.l2InsertLine 0x200000 Line.zero) := by decide
theorem test_decode_l2_init : decode (.uop 0x1800000000#38 0 0) = .ok .l2Init := by decide
theorem test_decode_mm_access : decode (.uop 0x0200000024#38 0 0) = .ok (.mmAccess .writeOnly 0x24 Line.zero) := by
  decide
theorem test_decode_mm_init : decode (.uop 0x0400000000#38 0 64) = .ok (.mmInit 64) := by decide
theorem test_decode_reserved_uop : decode (.uop 0x1C00000000#38 0 0) = .error (.reservedUopFn 1 3) := by decide
theorem test_decode_addr_l1 : decode (.address .l1 0x24) = .ok (.addrL1 0x24) := by decide
theorem test_decode_addr_l2 : decode (.address .l2 0x24) = .ok (.addrL2 0x24) := by decide
theorem test_decode_addr_line : decode (.address .line 0x24) = .ok (.addrLine 0x24) := by decide
theorem test_decode_addr_wordidx : decode (.address .wordIdx 0x24) = .ok (.addrWordidx 0x24) := by decide
theorem test_decode_l1_evict : decode (.l1Evict 0x0000601#27) = .ok (.addrL1Evict 3 1) := by decide
theorem test_decode_l2_evict : decode (.l2Evict 0x0008001#27) = .ok (.addrL2Evict 1 1) := by decide
/-- Way 0 = `111`, way 1 = `000`, way 2 = `100`, way 3 = `101`. -/
theorem test_decode_nru : decode (.nru 0b101100000111#12) =
    .ok (.nruSelect #v[⟨true, true, true⟩, ⟨false, false, false⟩, ⟨true, false, false⟩, ⟨true, false, true⟩]) := by
  decide

/-! ### Small states -/

/-- An idle block of `size` bytes, nothing cached. -/
def cold (size : Nat) : State := { State.reset with memSize := size }

/-- A valid L1 entry whose line has one word, word 0. -/
def entry (reference dirty : Bool) (tag : BitVec 18) (w : Word) : L1Entry :=
  { valid := true, reference := reference, dirty := dirty, tag := tag, line := #v[w, 0, 0, 0, 0, 0, 0, 0] }

/-- L1 set 0 full of dirty referenced lines (P2 after operation 4), L2 empty. -/
def full : State :=
  { cold 0x20000 with
    l1 := [(0, #v[entry true true 0 0x11, entry true true 1 0x22, entry true true 2 0x33, entry true true 3 0x44])]
    l1MissCount := 4
    l2MissCount := 4 }

/-- L2 with one entry, `L2[0]`, dirty. -/
def oneDirty (tag : BitVec 12) : L2Array :=
  [(0, { valid := true, dirty := true, tag := tag, line := #v[0xC0FFEE, 0, 0, 0, 0, 0, 0, 0] })]

/-- `full`'s L1 over `L2[0]`. -/
def crowded (tag : BitVec 12) : State := { full with memSize := 0x400000, l2 := oneDirty tag }

/-- `L2[0]` holds line 0, dirty (R134's and R166's example); L1 empty. -/
def warm : State :=
  { cold 0x400000 with
    l2 := oneDirty 0
    l1MissCount := 1
    l2MissCount := 1 }

/-- A field of the next state. -/
def next {α : Type} (f : State → α) (o : Host.Outcome State Fault Refusal) : Option α :=
  match o with
  | .next s => some (f s)
  | .fault _ => none
  | .refused _ => none

/-- The record of code `c` with `info`. -/
def faultOf (c : FaultCode) (info : Nat) : FaultRecord := { code := c, info := info }

/-! ### The spec's examples, one step each -/

/-- P1, operation 1 (R161's example). -/
theorem test_write_miss_fills : next (fun s => (l1At s.l1 0 0, l2At s.l2 0, mmWord s.mm 0, s.l1MissCount))
    (exec (.memWrite 0 0xAAAA) (cold 64)) =
    some (entry true true 0 0xAAAA, { valid := true, dirty := false, tag := 0, line := Line.zero }, 0, 1) := by decide
/-- P2, operation 5: the fallback way 0 is displaced and its line is in L2, dirty. -/
theorem test_write_displaces_dirty : next (fun s => (l1At s.l1 0 0, l2At s.l2 0, s.l2MissCount))
    (exec (.memWrite 0x10000 0x55) full) =
    some (entry true true 4 0x55, { valid := true, dirty := true, tag := 0, line := #v[0x11, 0, 0, 0, 0, 0, 0, 0] }, 5) := by
  decide
/-- R59, R163: a read hit returns the word and counts nothing. -/
theorem test_read_hit : next (fun s => (s.result, s.l1MissCount)) (exec (.memRead 0x4000) full) =
    some (.memAccess (some 0x22), 4) := by decide
/-- V-F1. -/
theorem test_read_out_of_range : next (fun s => (s.fault, s.phase, s.l1MissCount, s.l2MissCount))
    (exec (.memRead 64) (cold 64)) = some (some (faultOf .outOfRange 64), .faulted, 1, 1) := by decide
/-- R162: on a miss the line comes in, referenced and clean. -/
theorem test_touch_miss : next (fun s => (l1At s.l1 1 0, s.result)) (exec (.memTouch 32) (cold 64)) =
    some (entry true false 0 0, .memAccess none) := by decide
/-- R165: the old word is returned, the new one stored. -/
theorem test_rdwr_exchanges : next (fun s => (s.result, view s 0)) (exec (.memRdwr 0 9) full) =
    some (.memAccess (some 0x11), 9) := by decide
/-- R169, R172 path V1: the dirty victim, line 0, is in L2, which holds an older copy; Main Memory is not written. -/
theorem test_rdwr_victim_in_l2 : next (fun s => (l2At s.l2 0, mmWord s.mm 0)) (exec (.memRdwr 0x10000 9) (crowded 0)) =
    some ({ valid := true, dirty := true, tag := 0, line := #v[0x11, 0, 0, 0, 0, 0, 0, 0] }, 0) := by decide
/-- R169, R170, R172 path V3: `L2[0]` holds the line asked for, dirty, and the victim has the same index: the line goes
to L1 and to Main Memory, the victim to L2. -/
theorem test_touch_indices_coincide : next (fun s => ((l1At s.l1 0 0).line, (l2At s.l2 0).tag, (l2At s.l2 0).line,
    mmWord s.mm 0x40000)) (exec (.memTouch 0x100000) (crowded 1)) =
    some (#v[0xC0FFEE, 0, 0, 0, 0, 0, 0, 0], 0, #v[0x11, 0, 0, 0, 0, 0, 0, 0], 0xC0FFEE) := by decide
/-- R177, 2.8. -/
theorem test_tick : next (fun s => (l1At s.l1 0 0, s.l1MissCount)) (exec .clockTick full) =
    some (entry false true 0 0x11, 4) := by decide
/-- V-F10: nothing but INIT is accepted before an INIT. -/
theorem test_tick_refused_uninit : exec .clockTick full.powerOn = .refused (.notAccepted .uninit) := by rfl
/-- V-F8: a second INIT discards the dirty lines. -/
theorem test_init_discards : next (fun s => (s.memSize, view s 0, inL1 s 0, s.l1MissCount, s.phase))
    (exec (.init 64) full) = some (64, 0, false, 0, .idle) := by decide
/-- V-F4. -/
theorem test_init_bad_size : next (fun s => (s.fault, s.phase, s.memSize, s.l1MissCount))
    (exec (.init 33) full) = some (some (faultOf .configError 33), .faulted, 0x20000, 4) := by decide
/-- R166's example. -/
theorem test_l2miss_read : next (fun s => (l2At s.l2 0, mmWord s.mm 0)) (exec (.l2missR 0x200000) warm) =
    some ({ valid := true, dirty := false, tag := 2, line := Line.zero }, 0xC0FFEE) := by decide
/-- R167: no memory read, the entry is made and the displaced line written back. -/
theorem test_l2miss_write : next (fun s => ((l2At s.l2 0).tag, (l2At s.l2 0).dirty, mmWord s.mm 0))
    (exec (.l2missW 0x100000) warm) = some (1, false, 0xC0FFEE) := by decide
/-- R142's example. -/
theorem test_l1_access_both : next (fun s => (s.result, l1At s.l1 0 0))
    (exec (.l1Access .both 0x8 0xD3)
      { cold 64 with l1 := [(0, #v[entry false false 0 0, L1Entry.empty, L1Entry.empty, L1Entry.empty])] }) =
    some (.l1Access true (some 0),
      { entry true true 0 0 with line := #v[0, 0, 0xD3, 0, 0, 0, 0, 0] }) := by decide
/-- R142: an invalid way never hits, though its tag is 0. -/
theorem test_l1_access_invalid_way : next (·.result) (exec (.l1Access .readOnly 0 0) (cold 64)) =
    some (.l1Access false none) := by decide
/-- R144's example. -/
theorem test_l1_insert : next (fun s => (s.result, l1At s.l1 0 0)) (exec (.l1InsertLine 0x10000 Line.zero) full) =
    some (.insertLine (some { address := 0, data := #v[0x11, 0, 0, 0, 0, 0, 0, 0] }), entry false false 4 0) := by decide
/-- R141: the line stays, the state word is cleared. -/
theorem test_l1_init : next (fun s => l1At s.l1 0 1) (exec .l1Init full) =
    some { valid := false, reference := false, dirty := false, tag := 0, line := #v[0x22, 0, 0, 0, 0, 0, 0, 0] } := by
  decide
/-- R146's example: (1,1), (1,0), (0,1), (1,1) becomes (0,1), (0,0), (0,1), (0,1). -/
theorem test_l1_clear_ref : next (fun s => l1SetAt s.l1 0) (exec .l1ClearRef { cold 64 with
    l1 := [(0, #v[entry true true 0 0, entry true false 1 0, entry false true 2 0, entry true true 3 0])] }) =
    some #v[entry false true 0 0, entry false false 1 0, entry false true 2 0, entry false true 3 0] := by decide
/-- R132's example: a hit, and a miss on another tag. -/
theorem test_l2_access_hit : next (·.result) (exec (.l2Access .readOnly 0x4 Line.zero) warm) =
    some (.l2Access true (some #v[0xC0FFEE, 0, 0, 0, 0, 0, 0, 0])) := by decide
theorem test_l2_access_miss : next (·.result) (exec (.l2Access .readOnly 0x100004 Line.zero) warm) =
    some (.l2Access false none) := by decide
/-- R134's example. -/
theorem test_l2_insert : next (fun s => (s.result, l2At s.l2 0)) (exec (.l2InsertLine 0x200000 Line.zero) warm) =
    some (.insertLine (some { address := 0, data := #v[0xC0FFEE, 0, 0, 0, 0, 0, 0, 0] }),
      { valid := true, dirty := false, tag := 2, line := Line.zero }) := by decide
/-- R131: the stale dirty bit stays. -/
theorem test_l2_init : next (fun s => ((l2At s.l2 0).valid, (l2At s.l2 0).dirty)) (exec .l2Init warm) =
    some (false, true) := by decide
/-- R122's example. -/
theorem test_mm_access_both : next (fun s => (s.result, mmLine s.mm 8, mmWord s.mm 7))
    (exec (.mmAccess .both 0x24 #v[1, 2, 3, 4, 5, 6, 7, 8]) (cold 64)) =
    some (.mmAccess (some Line.zero), #v[1, 2, 3, 4, 5, 6, 7, 8], 0) := by decide
theorem test_mm_access_boundary : next (·.fault) (exec (.mmAccess .readOnly 0x40 Line.zero) (cold 64)) =
    some (some (faultOf .outOfRange 0x40)) := by decide
/-- R121. -/
theorem test_mm_init : next (fun s => (s.memSize, mmWord s.mm 0, s.fault)) (exec (.mmInit 32) { cold 64 with mm := [(0, 5)] }) =
    some (32, 0, none) := by decide
theorem test_mm_init_bad_size : next (·.fault) (exec (.mmInit 48) (cold 64)) =
    some (some (faultOf .configError 48)) := by decide
/-- R110's second example. -/
theorem test_addr_l1 : next (·.result) (exec (.addrL1 0x1C008) (cold 64)) =
    some (.l1Fields { tag := 7, setIndex := 0, wordOffset := 2 }) := by decide
/-- R111's second example. -/
theorem test_addr_l2 : next (·.result) (exec (.addrL2 0xC008) (cold 64)) =
    some (.l2Fields { tag := 0, index := 0x600 }) := by decide
/-- R112's corner case. -/
theorem test_addr_line : next (·.result) (exec (.addrLine 0xFFFFFFFF) (cold 64)) = some (.address 0xFFFFFFE0) := by decide
/-- R113's corner case. -/
theorem test_addr_wordidx : next (·.result) (exec (.addrWordidx 0xFFFFFFFF) (cold 64)) = some (.wordIndex 0x3FFFFFF8) := by
  decide
/-- R114's example. -/
theorem test_addr_l1_evict : next (·.result) (exec (.addrL1Evict 3 0) (cold 64)) = some (.address 0xC000) := by decide
/-- R115's example. -/
theorem test_addr_l2_evict : next (·.result) (exec (.addrL2Evict 1 0) (cold 64)) = some (.address 0x100000) := by decide
/-- R154: `[11, 10, 00, 01]` gives 2, `[10, 11, 11, 01]` gives 3. -/
theorem test_nru_unreferenced_clean : next (·.result) (exec (.nruSelect
    #v[⟨true, true, true⟩, ⟨true, true, false⟩, ⟨true, false, false⟩, ⟨true, false, true⟩]) (cold 64)) =
    some (.way 2) := by decide
theorem test_nru_unreferenced_dirty : next (·.result) (exec (.nruSelect
    #v[⟨true, true, false⟩, ⟨true, true, true⟩, ⟨true, true, true⟩, ⟨true, false, true⟩]) (cold 64)) =
    some (.way 3) := by decide
/-- The host's word for MEM_READ: it decodes and the next step runs it. -/
theorem test_fetch_word : decodeTableWord 40 0x100000024 = some (.memRead 0x24) ∧
    next (·.result) (step (State.reset.withFetchWord 40 0x100000024)) = some (.memAccess (some 0)) := by decide

/-! ### Witnesses: concrete states and operands that meet a statement's hypotheses -/

theorem full_elsewhere (i : BitVec 9) (w : Fin 4) (h : i ≠ 0) : l1At full.l1 i w = L1Entry.empty := by
  have h' : ¬ 0 = i.toNat := fun e => h (BitVec.eq_of_toNat_eq (by simpa using e.symm))
  have e : l1SetAt full.l1 i = L1Set.empty := by
    unfold l1SetAt full
    simp only [Cells.get_cons, Cells.get_nil]
    rw [if_neg h']
  unfold l1At
  rw [e, l1Set_empty_get]

/-- `full`'s L1 is coherent over any L2 whose entries are in range and not stale. -/
theorem full_coherent {m : Nat} {l2 : L2Array} (h32 : m % 32 = 0) (hm : 0x20000 ≤ m)
    (hr : ∀ i : BitVec 15, (l2At l2 i).valid = true → (addrL2Evict (l2At l2 i).tag i).toNat < m)
    (hd : ∀ i : BitVec 15, (l2At l2 i).valid = true → (l2At l2 i).dirty = true) :
    Coherent { full with memSize := m, l2 := l2 } := by
  have at0 : ∀ (i : BitVec 9) (w : Fin 4), (l1At full.l1 i w).valid = true → i = 0 := fun i w hv => by
    by_contra h
    rw [full_elsewhere i w h] at hv
    cases hv
  refine ⟨h32, fun i v w hv _ ht => ?_, fun i w hv => ?_, fun i w hv => ?_, hr, fun i w hv hc => ?_,
    fun i hv hc => absurd ((hd i hv).symm.trans hc) (by simp), le_refl _⟩
  · have := at0 i v hv
    subst this
    exact (by decide : ∀ v w : Fin 4, (l1At full.l1 0 v).tag = (l1At full.l1 0 w).tag → v = w) v w ht
  · change (l1At full.l1 i w).valid = false at hv
    change (l1At full.l1 i w).reference = false ∧ (l1At full.l1 i w).dirty = false ∧ (l1At full.l1 i w).tag = 0
    by_cases h : i = 0
    · subst h
      rw [(by decide : ∀ w : Fin 4, (l1At full.l1 0 w).valid = true) w] at hv
      cases hv
    · rw [full_elsewhere i w h]
      exact ⟨rfl, rfl, rfl⟩
  · have := at0 i w hv
    subst this
    exact lt_of_lt_of_le ((by decide : ∀ w : Fin 4, (addrL1Evict (l1At full.l1 0 w).tag 0).toNat < 0x20000) w) hm
  · have := at0 i w hv
    subst this
    change (l1At full.l1 0 w).dirty = false at hc
    rw [(by decide : ∀ w : Fin 4, (l1At full.l1 0 w).dirty = true) w] at hc
    cases hc

theorem oneDirty_elsewhere (tag : BitVec 12) (i : BitVec 15) (h : i ≠ 0) : l2At (oneDirty tag) i = L2Entry.empty := by
  have h' : ¬ 0 = i.toNat := fun e => h (BitVec.eq_of_toNat_eq (by simpa using e.symm))
  unfold l2At oneDirty
  simp only [Cells.get_cons, Cells.get_nil]
  rw [if_neg h']

theorem oneDirty_valid {tag : BitVec 12} {i : BitVec 15} (hv : (l2At (oneDirty tag) i).valid = true) : i = 0 := by
  by_contra h
  rw [oneDirty_elsewhere tag i h] at hv
  cases hv

/-- `full` is within the invariants, so every statement about a coherent idle state speaks of it. -/
theorem witness_full_coherent : full.phase = .idle ∧ Coherent full :=
  ⟨rfl, full_coherent (m := 0x20000) (l2 := []) rfl (le_refl _) (fun _ hv => (by cases hv)) (fun _ hv => (by cases hv))⟩

/-- `crowded` is within the invariants, for both of its uses: dirty victims over a dirty L2 entry. -/
theorem witness_crowded_coherent : (crowded 0).phase = .idle ∧ Coherent (crowded 0) ∧
    (crowded 1).phase = .idle ∧ Coherent (crowded 1) := by
  refine ⟨rfl, full_coherent rfl (by decide) ?_ ?_, rfl, full_coherent rfl (by decide) ?_ ?_⟩ <;>
  · intro i hv
    have := oneDirty_valid hv
    subst this
    decide

/-- `warm` is within the invariants: L2 hits with no L1 victim. -/
theorem witness_warm_coherent : warm.phase = .idle ∧ Coherent warm := by
  have hl1 : ∀ (i : BitVec 9) (w : Fin 4), l1At warm.l1 i w = L1Entry.empty := fun i w => l1Set_empty_get w
  refine ⟨rfl, rfl, ?_, ?_, ?_, ?_, ?_, ?_, le_refl _⟩
  · intro i v w hv
    rw [hl1] at hv
    cases hv
  · intro i w _
    rw [hl1]
    exact ⟨rfl, rfl, rfl⟩
  · intro i w hv
    rw [hl1] at hv
    cases hv
  · intro i hv
    have := oneDirty_valid hv
    subst this
    decide
  · intro i w hv
    rw [hl1] at hv
    cases hv
  · intro i hv hd
    have := oneDirty_valid hv
    subst this
    cases hd

/-- StepRunsDecodedOperation. -/
theorem witness_step : (present (.xreq 0x100004000#36 0 0) full).requests = [.xreq 0x100004000#36 0 0] ∧
    decode (.xreq 0x100004000#36 0 0) = .ok (.memRead 0x4000) ∧ full.requests = [] := by decide
/-- FetchedTableWordRuns, at the narrowest and the widest format. -/
theorem witness_fetched_word : decodeTableWord 16 0xFFF = some (.nruSelect
      #v[⟨true, true, true⟩, ⟨true, true, true⟩, ⟨true, true, true⟩, ⟨true, true, true⟩]) ∧
    decodeTableWord 40 0x34FFFFFFE0 = some (.l2missW 0xFFFFFFE0) := by decide
/-- ReservedRequestsRefused. -/
theorem witness_reserved : (present (.xreq (xreqHeader 3 2 0x20) 0 0) full).requests = [.xreq (xreqHeader 3 2 0x20) 0 0] ∧
    (present (.uop (uopHeader 1 3 2 0x20) 0 0) full).requests = [.uop (uopHeader 1 3 2 0x20) 0 0] ∧
    (1#2, 3#2) ∈ [(0b00#2, 0b10#2), (0b00#2, 0b11#2), (0b01#2, 0b11#2), (0b11#2, 0b10#2), (0b11#2, 0b11#2)] := by
  decide
/-- CacheFieldsNest. -/
theorem witness_fields_nest : (addrL2 0x20).index = (addrL2 0x10003F).index ∧
    (addrL1 0x20).setIndex = (addrL1 0x403F).setIndex := by decide
/-- NruSelectsByPriority: a set for each clause. -/
theorem witness_nru_clauses :
    (∃ u : Fin 4, ((#v[⟨true, true, true⟩, ⟨false, false, false⟩, ⟨true, false, false⟩, ⟨false, false, false⟩] :
      Vector WayBits 4)[u]).valid = false) ∧
    (∀ u : Fin 4, ((#v[⟨true, true, true⟩, ⟨true, true, true⟩, ⟨true, true, true⟩, ⟨true, true, true⟩] :
      Vector WayBits 4)[u]) = ⟨true, true, true⟩) ∧
    (∀ u : Fin 4, ((#v[⟨true, true, true⟩, ⟨true, true, false⟩, ⟨true, true, true⟩, ⟨true, true, false⟩] :
      Vector WayBits 4)[u]).valid = true ∧ ((#v[⟨true, true, true⟩, ⟨true, true, false⟩, ⟨true, true, true⟩,
      ⟨true, true, false⟩] : Vector WayBits 4)[u]).reference = true) := by decide
/-- MmAccessMovesOneLine, MmInitZeroesMemory, WholeLineInRange: both sides of each boundary. -/
theorem witness_main_memory : acceptsInternal full.phase = true ∧ full.memSize ≤ (0x20000#32).toNat ∧
    (0x1FFFF#32).toNat < full.memSize ∧ 33 % 32 ≠ 0 ∧ 0 % 32 = 0 ∧ full.memSize % 32 = 0 := by decide
/-- L2AccessHitOrMiss, L2InsertLineDisplacesEntry, L2InitClearsValidOnly, L2InsertThenReadHits, L2DirectMapConflict. -/
theorem witness_l2 : acceptsInternal warm.phase = true ∧ (l2At warm.l2 (addrL2 0x1F).index).valid = true ∧
    (l2At warm.l2 (addrL2 0x1F).index).dirty = true ∧
    (l2At warm.l2 (addrL2 0x1F).index).tag = (addrL2 0x1F).tag ∧
    (l2At warm.l2 (addrL2 0x100000).index).tag ≠ (addrL2 0x100000).tag ∧
    (l2At warm.l2 (addrL2 0x20).index).valid = false ∧ addrLine 0x20 = addrLine 0x3F ∧
    (addrL2 0x0).index = (addrL2 0x100000).index ∧ (addrL2 0x0).tag ≠ (addrL2 0x100000).tag := by decide
/-- L1AccessFirstMatchingWay, L1InsertLineFillsNruWay, L1InitClearsStateWords, L1ClearRefAgesEveryWay,
L1InsertThenAccessHits. -/
theorem witness_l1 : acceptsInternal full.phase = true ∧
    (l1At full.l1 (addrL1 0x401F).setIndex 1).valid = true ∧
    (l1At full.l1 (addrL1 0x401F).setIndex 1).tag = (addrL1 0x401F).tag ∧
    (∀ u : Fin 4, u < 1 → (l1At full.l1 (addrL1 0x401F).setIndex u).tag ≠ (addrL1 0x401F).tag) ∧
    (∀ u : Fin 4, (l1At full.l1 (addrL1 0x10000).setIndex u).tag ≠ (addrL1 0x10000).tag) ∧
    (l1At full.l1 (addrL1 0x20).setIndex 0).valid = false ∧ addrLine 0x10000 = addrLine 0x1001F := by decide
/-- L2MissReadFillsFromMemory, L2MissWriteAllocates: the boundary, and a displaced dirty line in range. -/
theorem witness_l2_miss : acceptsInternal warm.phase = true ∧ warm.memSize ≤ (0x400000#32).toNat ∧
    (0x3FFFFF#32).toNat < warm.memSize ∧ (0x300000#32).toNat < warm.memSize ∧
    (l2At warm.l2 (addrL2 0x300000).index).valid = true ∧ (l2At warm.l2 (addrL2 0x300000).index).dirty = true ∧
    (addrL2Evict (l2At warm.l2 (addrL2 0x300000).index).tag (addrL2 0x300000).index).toNat < warm.memSize := by decide
/-- With `witness_full_coherent` and `witness_warm_coherent`: MemTouchReferencesLine, MemReadReturnsView,
MemWriteStoresInL1, MemRdwrExchanges, MissMovesNamedLinesOnly, ClockTickClearsReferenceBits, RequesterSeesFlatMemory,
AccessFaultsExactlyOutOfRange, OutOfRangeFaultState, OnlyFaultIsOutOfRange, MissCountersCountMisses,
ScratchLineNeverSurvives, WritebackCountParameter: a hit, a miss with a dirty victim, a miss that L2 holds, the last
address in range and the first out of range. -/
theorem witness_accesses : inL1 full 0xC01C = true ∧ inL1 full 0x1FFFF = false ∧ inL1 full 0x10000 = false ∧
    (l1At full.l1 0 (nruSelect (setBits (l1SetAt full.l1 0)))).dirty = true ∧
    inL1 warm 0x4 = false ∧ inL2 warm 0x4 = true ∧ inL2 full 0x10000 = false ∧
    (0x1FFFF#32).toNat < full.memSize ∧ full.memSize ≤ (0x20000#32).toNat ∧ (0x4#32).toNat < warm.memSize := by decide
/-- With `witness_crowded_coherent`: MissMovesNamedLinesOnly and WritebackCountParameter where a dirty victim and a dirty
L2 entry meet. The victim is line 0. In turn: its index is that of `a`, whose line L2 has not (its own older copy goes to
Main Memory); its index is that of `a`, whose line L2 has (that line goes); another index, L2 has the victim's line
(path V1: nothing goes); another index, L2 has another line there (that line goes). -/
theorem witness_displaced :
    ((0x100000#32).toNat < (crowded 0).memSize ∧ inL1 (crowded 0) 0x100000 = false ∧ inL2 (crowded 0) 0x100000 = false ∧
      writebackMisses (crowded 0) 0x100000 ∧ (addrL2 (victimAddress (crowded 0) 0x100000)).index = (addrL2 0x100000).index ∧
      writtenToMemory (crowded 0) 0x100000 0) ∧
    (inL1 (crowded 1) 0x100000 = false ∧ inL2 (crowded 1) 0x100000 = true ∧ writebackMisses (crowded 1) 0x100000 ∧
      (addrL2 (victimAddress (crowded 1) 0x100000)).index = (addrL2 0x100000).index ∧
      writtenToMemory (crowded 1) 0x100000 0) ∧
    (inL1 (crowded 0) 0x10000 = false ∧ dirtyVictim (crowded 0) 0x10000 ∧ ¬ writebackMisses (crowded 0) 0x10000 ∧
      (addrL2 (victimAddress (crowded 0) 0x10000)).index ≠ (addrL2 0x10000).index ∧
      ¬ writtenToMemory (crowded 0) 0x10000 0) ∧
    (inL1 (crowded 1) 0x10000 = false ∧ writebackMisses (crowded 1) 0x10000 ∧
      (addrL2 (victimAddress (crowded 1) 0x10000)).index ≠ (addrL2 0x10000).index ∧
      writtenToMemory (crowded 1) 0x10000 0) ∧
    ¬ dirtyVictim warm 0x4 := by
  refine ⟨⟨?_, ?_, ?_, ?_, ?_, ?_⟩, ⟨?_, ?_, ?_, ?_, ?_⟩, ⟨?_, ?_, ?_, ?_, ?_⟩, ⟨?_, ?_, ?_, ?_⟩, ?_⟩ <;> decide
/-- InitEstablishesResetTable, BadSizeInitRaisesConfigError, AcceptedOperationsByPhase, OnlyInitLeavesFaulted: every
resting phase, the least size and the sizes on each side of a multiple. -/
theorem witness_init : acceptsInit full.powerOn.phase = true ∧ acceptsInit full.phase = true ∧
    acceptsInit (raise (faultOf .outOfRange 0) full).phase = true ∧ 0 % 32 = 0 ∧ 32 % 32 = 0 ∧ 31 % 32 ≠ 0 ∧
    (Instr.init 31).isExternal = true ∧ (Instr.memTouch 0).isExternal = true ∧
    (raise (faultOf .outOfRange 0) full).phase = .faulted ∧ (full.goto .p3).phase = .busy .p3 := by decide
theorem witness_only_init_leaves_faulted :
    ∃ t, exec (.init 31) (raise (faultOf .outOfRange 0) full) = .next t := ⟨_, rfl⟩
/-- InternalOperationsByPhase. -/
theorem witness_internal_phases : Instr.l1Init.isExternal = false ∧ Instr.l1Init.isCombinational = false ∧
    full.phase = .idle ∧ (full.goto (.p5 Line.zero)).phase = .busy (.p5 Line.zero) ∧ full.powerOn.phase = .uninit ∧
    (raise (faultOf .outOfRange 0) full).phase = .faulted := by decide
/-- RoundTripLaw, with a tick and an exchange of another word of the set between. -/
theorem witness_round_trip : (0x4004#32).toNat < full.memSize ∧
    memInstr .both 0x10004 7 = .memRdwr 0x10004 7 ∧ (0x10004#32).toNat < full.memSize ∧
    ¬ (0x4004#32).toNat / 4 = (0x10004#32).toNat / 4 := by decide
/-- OperationsRaiseOnlyTheirFaults: one operation of each kind that raises. -/
theorem witness_raises : full.fault = none ∧ next (·.fault.isSome) (exec (.init 33) full) = some true ∧
    next (·.fault.isSome) (exec (.mmInit 33) full) = some true ∧
    next (·.fault.isSome) (exec (memInstr .neither 0x20000 0) full) = some true ∧
    next (·.fault.isSome) (exec (.mmAccess .neither 0x20000 Line.zero) full) = some true ∧
    next (·.fault.isSome) (exec (.l2missR 0x20000) full) = some true := by decide
/-- CountersNeverDecrease, EntriesLeaveOnlyByDisplacement, and MissCountersCountMisses' second clause. -/
theorem witness_run : (∃ t, exec (.memWrite 0x10000 5) full = .next t) ∧ (Instr.memWrite 0x10000 5).isExternal = true ∧
    (∃ t, exec .l1ClearRef full = .next t) ∧ (l1At full.l1 0 3).valid = true ∧ (l1At full.l1 0 3).dirty = true ∧
    (l2At warm.l2 0).valid = true ∧ (l2At warm.l2 0).dirty = true := ⟨⟨_, rfl⟩, rfl, ⟨_, rfl⟩, rfl, rfl, rfl, rfl⟩
/-- ControlMovesForward. -/
theorem witness_control : atRest (full.goto .p0) = false ∧ atRest (full.goto .p9) = false := by decide
/-- StepKeepsCanonicalForm, StepEndsAtRest: a state with a request, within the invariants, that steps. -/
theorem witness_step_invariants : CanonicalForm (present (.xreq 0x200010000#36 5 0) full) ∧
    atRest (present (.xreq 0x200010000#36 5 0) full) = true ∧
    faultMatchesPhase (present (.xreq 0x200010000#36 5 0) full) ∧
    ∃ t, step (present (.xreq 0x200010000#36 5 0) full) = .next t :=
  ⟨⟨rfl, by decide, rfl, rfl⟩, rfl, ⟨fun h => (by cases h), fun h => (by cases h)⟩, ⟨_, rfl⟩⟩
/-- StepKeepsHierarchyInvariant. -/
theorem witness_step_hierarchy : HierarchyInvariant (present (.xreq 0x200010000#36 5 0) full) ∧
    nextIsInterfaceOp (present (.xreq 0x200010000#36 5 0) full) := by
  refine ⟨fun _ => ?_, fun i hi => ?_⟩
  · have h := witness_full_coherent.2
    exact ⟨h.1, h.2, h.3, h.4, h.5, h.6, h.7, h.8⟩
  · have e : nextOp (present (.xreq 0x200010000#36 5 0) full) = some (.memWrite 0x10000 5) := by decide
    rw [e] at hi
    cases hi
    exact Or.inl rfl
/-- EqualReadsEqualMemories. -/
theorem witness_memories : Memory.wf 64 [(3, 5), (15, 7)] = true ∧
    Memory.wf 64 (mmPutWord (mmPutWord [] 15 7) 3 5) = true ∧ mmPutWord (mmPutWord [] 15 7) 3 5 = [(3, 5), (15, 7)] := by
  decide

end Sys2Proof.Tests
end

/-! PROOFS. The statements of spec/00_scope.md:
what one step runs (O5), and the canonical form every step keeps (O57). -/

namespace Sys2Proof.Machine

/-! ### One step -/

/-- R6, R16: a request that spells an operation is taken off and the operation is run. -/
theorem step_of_decode {s : State} {r : Request} {rest : List Request} {i : Instr} (hr : s.requests = r :: rest)
    (hi : decode r = .ok i) : step s = exec i { s with requests := rest } := by
  simp only [step, fetch, hr, hi]

/-- Log 2: with no request nothing happens. -/
theorem step_of_no_request {s : State} (hr : s.requests = []) : step s = .next s := by
  simp only [step, fetch, hr]

/-- R94: a request that spells no operation is refused by name. -/
theorem step_of_reserved {s : State} {r : Request} {rest : List Request} {e : DecodeError}
    (hr : s.requests = r :: rest) (he : decode r = .error e) : step s = .refused (.reservedCode e) := by
  simp only [step, fetch, hr, he]

/-- What a step that answers a next state did: nothing, or one decoded operation. -/
theorem step_eq_next_cases {s t : State} (h : step s = .next t) :
    t = s ∨ ∃ (i : Instr) (rest : List Request), exec i { s with requests := rest } = .next t := by
  cases hr : s.requests with
  | nil =>
    rw [step_of_no_request hr] at h
    cases h
    exact .inl rfl
  | cons r rest =>
    cases hi : decode r with
    | error e =>
      rw [step_of_reserved hr hi] at h
      cases h
    | ok i => exact .inr ⟨i, rest, step_of_decode hr hi ▸ h⟩

/-- Settles O5: `step` in closed form, with a request and without one. -/
theorem stepRunsDecodedOperation : Obligations.StepRunsDecodedOperation :=
  ⟨fun _ _ _ _ hr hi => step_of_decode hr hi, fun _ hr => step_of_no_request hr⟩

/-! ### The canonical form reads four fields of the state -/

namespace CanonicalForm

variable {s t : State}

/-- A state with the same arrays and size. -/
theorem frame (h : CanonicalForm s) (hsize : t.memSize = s.memSize) (hl1 : t.l1 = s.l1) (hl2 : t.l2 = s.l2)
    (hmm : t.mm = s.mm) : CanonicalForm t where
  sizeMultiple := hsize ▸ h.sizeMultiple
  l1 := hl1 ▸ h.l1
  l2 := hl2 ▸ h.l2
  mm := hsize ▸ hmm ▸ h.mm

theorem withResult (h : CanonicalForm s) (r : Result) : CanonicalForm (s.withResult r) := h.frame rfl rfl rfl rfl

/-- R197: a fault freezes the arrays and the size. -/
theorem raise (h : CanonicalForm s) (f : FaultRecord) : CanonicalForm (raise f s) := h.frame rfl rfl rfl rfl

theorem goto (h : CanonicalForm s) (p : SubPhase) : CanonicalForm (s.goto p) := h.frame rfl rfl rfl rfl

theorem finish (h : CanonicalForm s) (rd : Option Word) : CanonicalForm (finish rd s) := h.frame rfl rfl rfl rfl

/-- L1 replaced by a canonical array. -/
theorem putL1 (h : CanonicalForm s) {l1 : L1Array} (hl : l1Wf l1) : CanonicalForm { s with l1 := l1 } :=
  { h with l1 := hl }

/-- L2 replaced by a canonical array. -/
theorem putL2 (h : CanonicalForm s) {l2 : L2Array} (hl : l2Wf l2) : CanonicalForm { s with l2 := l2 } :=
  { h with l2 := hl }

/-- Main Memory's words replaced by canonical ones, within its size. -/
theorem putMm (h : CanonicalForm s) {mm : Memory} (hm : Memory.wf s.memSize mm = true) :
    CanonicalForm { s with mm := mm } :=
  { h with mm := hm }

/-! ### The L2-miss handlers -/

/-- R166: L2MISS.R keeps the canonical form, whether it faults or not. -/
theorem l2MissRead (h : CanonicalForm s) (a : Addr) : CanonicalForm (settle (l2MissRead a s)) := by
  unfold Machine.l2MissRead
  cases memRead a s.memSize s.mm with
  | error f => exact h.raise f
  | ok sb => exact l2MissFill_canonical a sb s h

/-- R167: L2MISS.W keeps the canonical form, whatever the scratch line is. -/
theorem l2MissWrite (h : CanonicalForm s) (p : Params) (a : Addr) : CanonicalForm (settle (l2MissWrite p a s)) :=
  l2MissFill_canonical a _ _ (h.frame rfl rfl rfl rfl)

/-! ### The sub-phases of MEM_ACCESS -/

theorem phase0 (h : CanonicalForm s) (q : Access) : CanonicalForm (phase0 q s) := by
  unfold Machine.phase0
  simp only
  split
  · exact (h.putL1 (l1Access_wf _ _ _ _ h.l1)).finish _
  · exact h.goto _

theorem phase1 (h : CanonicalForm s) : CanonicalForm (phase1 s) := h.frame rfl rfl rfl rfl

theorem phase2 (h : CanonicalForm s) (q : Access) : CanonicalForm (phase2 q s) := by
  unfold Machine.phase2
  split <;> exact h.goto _

theorem phase3 (h : CanonicalForm s) (q : Access) : CanonicalForm (phase3 q s) := by
  have hc : CanonicalForm { s with l2MissCount := s.l2MissCount + 1 } := h.frame rfl rfl rfl rfl
  have hr := hc.l2MissRead q.address
  unfold Machine.phase3
  split
  · next faulted he =>
    rw [he] at hr
    exact hr
  · next s' he =>
    rw [he] at hr
    exact goto hr .p4

theorem phase4 (h : CanonicalForm s) (q : Access) : CanonicalForm (phase4 q s) := by
  unfold Machine.phase4
  split
  · exact h.goto _
  · exact h.raise _

theorem phase5 (h : CanonicalForm s) (q : Access) (fb : Line) : CanonicalForm (phase5 q fb s) := by
  have hl := h.putL1 (l1InsertLine_wf q.address fb s.l1 h.l1)
  unfold Machine.phase5
  simp only
  split <;> exact hl.goto _

theorem phase6 (h : CanonicalForm s) (eb1 : Evicted) : CanonicalForm (phase6 eb1 s) := by
  unfold Machine.phase6
  simp only
  split
  · exact (h.putL2 (l2Access_wf _ _ _ _ h.l2)).goto _
  · exact h.goto _

theorem phase7 (h : CanonicalForm s) (p : Params) (eb1 : Evicted) : CanonicalForm (phase7 p eb1 s) := by
  unfold Machine.phase7
  simp only
  generalize (if p.countWritebackL2Miss then s.l2MissCount + 1 else s.l2MissCount) = n
  have hc : CanonicalForm { s with l2MissCount := n } := h.frame rfl rfl rfl rfl
  have hw := hc.l2MissWrite p eb1.address
  split
  · next faulted he =>
    rw [he] at hw
    exact hw
  · next s' he =>
    rw [he] at hw
    exact goto hw (.p8 eb1)

theorem phase8 (h : CanonicalForm s) (eb1 : Evicted) : CanonicalForm (phase8 eb1 s) := by
  unfold Machine.phase8
  simp only
  split
  · exact (h.putL2 (l2Access_wf _ _ _ _ h.l2)).goto _
  · exact h.raise _

theorem phase9 (h : CanonicalForm s) (q : Access) : CanonicalForm (phase9 q s) := by
  unfold Machine.phase9
  simp only
  split
  · exact (h.putL1 (l1Access_wf _ _ _ _ h.l1)).finish _
  · exact h.raise _

/-- R160: no sub-phase leaves the canonical form. -/
theorem microStep (h : CanonicalForm s) (p : Params) (q : Access) : CanonicalForm (microStep p q s) := by
  unfold Machine.microStep
  cases s.phase with
  | uninit => exact h
  | idle => exact h
  | faulted => exact h
  | busy sub =>
    cases sub with
    | p0 => exact h.phase0 q
    | p1 => exact h.phase1
    | p2 => exact h.phase2 q
    | p3 => exact h.phase3 q
    | p4 => exact h.phase4 q
    | p5 fb => exact h.phase5 q fb
    | p6 eb1 => exact h.phase6 eb1
    | p7 eb1 => exact h.phase7 p eb1
    | p8 eb1 => exact h.phase8 eb1
    | p9 => exact h.phase9 q

theorem microRun (h : CanonicalForm s) (p : Params) (q : Access) (n : Nat) : CanonicalForm (microRun p q n s) := by
  induction n generalizing s with
  | zero => exact h
  | succ n ih => exact ih (h.microStep p q)

/-! ### The external operations -/

theorem memAccess (h : CanonicalForm s) (p : Params) (q : Access) : CanonicalForm (memAccess p q s) :=
  (h.goto .p0).microRun p q 10

theorem tick (h : CanonicalForm s) : CanonicalForm (tick s) :=
  ⟨h.sizeMultiple, l1ClearRef_wf s.l1 h.l1, h.l2, h.mm⟩

/-- R176, R45: INIT records only a size that is a multiple of 32, with no word listed. -/
theorem initialise (h : CanonicalForm s) (size : Nat) : CanonicalForm (initialise size s) := by
  by_cases hs : size % 32 = 0
  · rw [initialise_of_sizeAligned hs]
    exact ⟨hs, l1Init_wf s.l1 h.l1, l2Init_wf s.l2 h.l2, rfl⟩
  · rw [initialise_of_not_sizeAligned hs]
    exact h.raise _

end CanonicalForm

/-! ### Every operation -/

/-- If the outcome is a next state, it is in canonical form. -/
def AnswersCanonical (o : Host.Outcome State Fault Refusal) : Prop := ∀ t : State, o = .next t → CanonicalForm t

namespace AnswersCanonical

variable {s n : State}

theorem whenIdle (h : CanonicalForm n) : AnswersCanonical (whenIdle s n) := by
  intro t ht
  exact (whenIdle_eq_next.1 ht).2 ▸ h

theorem whenAtRest (h : CanonicalForm n) : AnswersCanonical (whenAtRest s n) := by
  intro t ht
  exact (whenAtRest_eq_next.1 ht).2 ▸ h

theorem whenInitialised (h : CanonicalForm n) : AnswersCanonical (whenInitialised s n) := by
  intro t ht
  exact (whenInitialised_eq_next.1 ht).2 ▸ h

/-- R110 to R115, R150: a function changes the outputs only. -/
theorem withResult (h : CanonicalForm s) (r : Result) : AnswersCanonical (.next (s.withResult r)) := by
  rintro t ⟨⟩
  exact h.withResult r

/-- R140: an operation of L1 that leaves the array canonical. -/
theorem l1Operation (h : CanonicalForm s) {l1 : L1Array} (hl : l1Wf l1) (r : Result) :
    AnswersCanonical (Machine.whenInitialised s ({ s with l1 := l1 }.withResult r)) :=
  whenInitialised ((h.putL1 hl).withResult r)

/-- R130: an operation of L2 that leaves the array canonical. -/
theorem l2Operation (h : CanonicalForm s) {l2 : L2Array} (hl : l2Wf l2) (r : Result) :
    AnswersCanonical (Machine.whenInitialised s ({ s with l2 := l2 }.withResult r)) :=
  whenInitialised ((h.putL2 hl).withResult r)

/-- R122: MM.ACCESS writes inside Main Memory or faults. -/
theorem mmAccess (h : CanonicalForm s) (c : Control) (a : Addr) (l : Line) :
    AnswersCanonical (execMmAccess c a l s) := by
  refine whenInitialised ?_
  split
  · exact h.raise _
  · next rd mm hw => exact (h.putMm (mmAccess_wf c s.mm mm a l rd h.sizeMultiple h.mm hw)).withResult _

/-- R121: MM.INIT records a legal size with no word listed, or faults. -/
theorem mmInit (h : CanonicalForm s) (size : Nat) : AnswersCanonical (execMmInit size s) := by
  refine whenInitialised ?_
  split
  · exact h.raise _
  · next size' mm hw =>
    obtain ⟨hsize, hmm⟩ := mmInit_wf hw
    exact ⟨hsize, h.l1, h.l2, hmm⟩

end AnswersCanonical

/-- Every operation, issued in a canonical state, answers a canonical state if it answers one. -/
theorem exec_answersCanonical {s : State} (h : CanonicalForm s) (i : Instr) : AnswersCanonical (exec i s) := by
  cases i with
  | memTouch a => exact .whenIdle (h.memAccess _ _)
  | memRead a => exact .whenIdle (h.memAccess _ _)
  | memWrite a w => exact .whenIdle (h.memAccess _ _)
  | memRdwr a w => exact .whenIdle (h.memAccess _ _)
  | clockTick => exact .whenIdle h.tick
  | init size => exact .whenAtRest (h.initialise size)
  | l2missR a => exact .whenInitialised ((h.withResult _).l2MissRead a)
  | l2missW a => exact .whenInitialised ((h.withResult _).l2MissWrite _ a)
  | l1Access c a w => exact .l1Operation h (l1Access_wf c a w s.l1 h.l1) _
  | l1InsertLine a l => exact .l1Operation h (l1InsertLine_wf a l s.l1 h.l1) _
  | l1Init => exact .l1Operation h (l1Init_wf s.l1 h.l1) _
  | l1ClearRef => exact .l1Operation h (l1ClearRef_wf s.l1 h.l1) _
  | l2Access c a l => exact .l2Operation h (l2Access_wf c a l s.l2 h.l2) _
  | l2InsertLine a l => exact .l2Operation h (l2InsertLine_wf a l s.l2 h.l2) _
  | l2Init => exact .l2Operation h (l2Init_wf s.l2 h.l2) _
  | mmAccess c a l => exact .mmAccess h c a l
  | mmInit size => exact .mmInit h size
  | addrL1 a => exact .withResult h _
  | addrL2 a => exact .withResult h _
  | addrLine a => exact .withResult h _
  | addrWordidx a => exact .withResult h _
  | addrL1Evict tag set => exact .withResult h _
  | addrL2Evict tag index => exact .withResult h _
  | nruSelect set => exact .withResult h _

/-- Settles O57: a step does nothing or runs one operation, and every operation keeps the canonical form. -/
theorem stepKeepsCanonicalForm : Obligations.StepKeepsCanonicalForm := by
  intro s t h ht
  obtain rfl | ⟨i, rest, hi⟩ := step_eq_next_cases ht
  · exact h
  · have hc : CanonicalForm { s with requests := rest } := h.frame rfl rfl rfl rfl
    exact exec_answersCanonical hc i t hi

end Sys2Proof.Machine

/-! PROOFS. The statements of spec/10_state.md: what each kind of operation can do to the state, said once, and from it
the phases that accept an operation (O42), the miss counters (O50, O55), INIT and reset (O39, O40, O56), the entries of
both caches (O52), and the invariants every step keeps (O58, O59); and that the canonical form of Main Memory is unique
(O60). -/

namespace Sys2Proof.Machine

section
variable {α : Type} {d : α}

/-- Where one array lists a value, an array that reads alike lists an index at least as low. -/
theorem Cells.head_le_of_get_eq {c c' : Nat × α} {m n : Cells α} (hc : c.2 ≠ d) (hn : ∀ x ∈ n, c'.1 < x.1)
    (h : Cells.get d (c :: m) c.1 = Cells.get d (c' :: n) c.1) : c'.1 ≤ c.1 := by
  by_contra hlt
  have hbelow : ∀ x ∈ c' :: n, c.1 < x.1 := by
    intro x hx
    rcases List.mem_cons.1 hx with rfl | hx
    · omega
    · exact lt_trans (not_le.1 hlt) (hn x hx)
  rw [Cells.get_below _ _ hbelow, Cells.get_cons, if_pos rfl] at h
  exact hc h

/-- Past a common head the tails read alike, when the indices rise. -/
theorem Cells.get_tail_eq {c : Nat × α} {m n : Cells α} (hm : ∀ x ∈ m, c.1 < x.1) (hn : ∀ x ∈ n, c.1 < x.1)
    (h : ∀ i, Cells.get d (c :: m) i = Cells.get d (c :: n) i) (i : Nat) : Cells.get d m i = Cells.get d n i := by
  by_cases hi : c.1 = i
  · subst hi
    rw [Cells.get_below m _ hm, Cells.get_below n _ hn]
  · simpa [hi] using h i

/-- Two canonical arrays that read alike at every index are the same list. -/
theorem Cells.eq_of_get_eq [DecidableEq α] {bound : Nat} {m n : Cells α} (hm : Cells.wf d bound m = true)
    (hn : Cells.wf d bound n = true) (h : ∀ i, Cells.get d m i = Cells.get d n i) : m = n := by
  rw [Cells.wf_iff] at hm hn
  obtain ⟨hmr, hmv⟩ := hm
  obtain ⟨hnr, hnv⟩ := hn
  induction m generalizing n with
  | nil =>
    cases n with
    | nil => rfl
    | cons c n => exact absurd (by simpa using (h c.1).symm) (hnv c (by simp)).2
  | cons c m ih =>
    cases n with
    | nil => exact absurd (by simpa using h c.1) (hmv c (by simp)).2
    | cons c' n =>
      obtain ⟨hmlt, hmr⟩ := (Cells.rising_cons c m).1 hmr
      obtain ⟨hnlt, hnr'⟩ := (Cells.rising_cons c' n).1 hnr
      have hidx : c.1 = c'.1 := le_antisymm
        (Cells.head_le_of_get_eq (hnv c' (by simp)).2 hmlt (h c'.1).symm)
        (Cells.head_le_of_get_eq (hmv c (by simp)).2 hnlt (h c.1))
      have hval : c.2 = c'.2 := by simpa [hidx] using h c.1
      obtain rfl : c = c' := Prod.ext hidx hval
      rw [ih (Cells.get_tail_eq hmlt hnlt h) hmr (fun x hx => hmv x (by simp [hx])) hnr'
        (fun x hx => hnv x (by simp [hx]))]

end

/-- Settles O60: Main Memory is a sparse array, and its canonical form is unique. -/
theorem equalReadsEqualMemories : Obligations.EqualReadsEqualMemories :=
  fun _ _ _ hm hn h => Cells.eq_of_get_eq hm hn h

/-! ### What each operation can do -/

/-- The operands of the MEM_ACCESS that `memInstr` names (R89): without write-enable there is no write data. -/
def accessOf (c : Control) (a : Addr) (d : Word) : Access :=
  { control := c, address := a, writeData := if c.write then d else 0 }

/-- R162 to R165: the four variants are one operation, MEM_ACCESS. -/
theorem exec_memInstr (c : Control) (a : Addr) (d : Word) (s : State) :
    exec (memInstr c a d) s = whenIdle s (memAccess Config.params (accessOf c a d) s) := by
  rcases c with ⟨_ | _, _ | _⟩ <;> rfl

/-- What an internal operation can do to the elements outside the arrays: the counters stand, and the phase and the
fault stand or a fault is entered (R197). -/
structure InternalEffect (s t : State) : Prop where
  l1MissCount : t.l1MissCount = s.l1MissCount
  l2MissCount : t.l2MissCount = s.l2MissCount
  requests : t.requests = s.requests
  phaseFault : (t.phase = s.phase ∧ t.fault = s.fault) ∨ (t.phase = .faulted ∧ t.fault.isSome = true)

/-- The handlers' tail fills L2 and may write Main Memory, or enters a fault with L2 filled (R166, R167). -/
theorem l2MissFill_cases (a : Addr) (sb : Line) (s : State) :
    (∃ l2 mm, l2MissFill a sb s = .ok { s with l2 := l2, mm := mm }) ∨
      ∃ f l2, l2MissFill a sb s = .error (raise f { s with l2 := l2 }) := by
  unfold l2MissFill
  simp only
  cases (l2InsertLine a sb s.l2).evicted with
  | none => exact .inl ⟨_, s.mm, rfl⟩
  | some eb2 =>
    simp only
    cases memWrite eb2.address eb2.data s.memSize s.mm with
    | error f => exact .inr ⟨f, _, rfl⟩
    | ok mm => exact .inl ⟨_, mm, rfl⟩

/-- L2MISS.R fills L2 and may write Main Memory, or enters a fault (R166). -/
theorem l2MissRead_cases (a : Addr) (s : State) :
    (∃ l2 mm, l2MissRead a s = .ok { s with l2 := l2, mm := mm }) ∨
      ∃ f l2, l2MissRead a s = .error (raise f { s with l2 := l2 }) := by
  unfold l2MissRead
  cases memRead a s.memSize s.mm with
  | error f => exact .inr ⟨f, s.l2, rfl⟩
  | ok sb => exact l2MissFill_cases a sb s

/-- L2MISS.W draws a scratch line, fills L2 and may write Main Memory, or enters a fault (R167). -/
theorem l2MissWrite_cases (p : Params) (a : Addr) (s : State) :
    (∃ l2 mm, l2MissWrite p a s = .ok { s with l2 := l2, mm := mm, scratchDraws := s.scratchDraws + 1 }) ∨
      ∃ f l2, l2MissWrite p a s = .error (raise f { s with l2 := l2, scratchDraws := s.scratchDraws + 1 }) :=
  l2MissFill_cases a _ _

/-- R130 to R146, R166, R167, log 12: an internal operation is accepted in IDLE and BUSY only. -/
theorem exec_internal {i : Instr} (he : i.isExternal = false) (hc : i.isCombinational = false) (s : State) :
    ∃ n, exec i s = whenInitialised s n ∧ InternalEffect s n := by
  cases i with
  | memTouch | memRead | memWrite | memRdwr | clockTick | init => cases he
  | addrL1 | addrL2 | addrLine | addrWordidx | addrL1Evict | addrL2Evict | nruSelect => cases hc
  | l2missR a =>
    refine ⟨_, rfl, ?_⟩
    obtain ⟨l2, mm, h⟩ | ⟨f, l2, h⟩ := l2MissRead_cases a (s.withResult .absent) <;> rw [h]
    · exact ⟨rfl, rfl, rfl, .inl ⟨rfl, rfl⟩⟩
    · exact ⟨rfl, rfl, rfl, .inr ⟨rfl, rfl⟩⟩
  | l2missW a =>
    refine ⟨_, rfl, ?_⟩
    obtain ⟨l2, mm, h⟩ | ⟨f, l2, h⟩ := l2MissWrite_cases Config.params a (s.withResult .absent) <;> rw [h]
    · exact ⟨rfl, rfl, rfl, .inl ⟨rfl, rfl⟩⟩
    · exact ⟨rfl, rfl, rfl, .inr ⟨rfl, rfl⟩⟩
  | l1Access | l1InsertLine | l1Init | l1ClearRef | l2Access | l2InsertLine | l2Init =>
    exact ⟨_, rfl, rfl, rfl, rfl, .inl ⟨rfl, rfl⟩⟩
  | mmAccess c a l =>
    refine ⟨_, rfl, ?_⟩
    split
    · exact ⟨rfl, rfl, rfl, .inr ⟨rfl, rfl⟩⟩
    · exact ⟨rfl, rfl, rfl, .inl ⟨rfl, rfl⟩⟩
  | mmInit size =>
    refine ⟨_, rfl, ?_⟩
    split
    · exact ⟨rfl, rfl, rfl, .inr ⟨rfl, rfl⟩⟩
    · exact ⟨rfl, rfl, rfl, .inl ⟨rfl, rfl⟩⟩

/-- R97, log 13: a function changes the outputs only, in every phase. -/
theorem exec_combinational {i : Instr} (hc : i.isCombinational = true) (s : State) :
    ∃ r, exec i s = .next (s.withResult r) := by
  cases i with
  | addrL1 | addrL2 | addrLine | addrWordidx | addrL1Evict | addrL2Evict | nruSelect => exact ⟨_, rfl⟩
  | _ => cases hc

/-- R6, R88: an external operation is a MEM_ACCESS, CLOCK_TICK or INIT. -/
theorem external_cases {i : Instr} (he : i.isExternal = true) :
    (∃ c a d, i = memInstr c a d) ∨ i = .clockTick ∨ ∃ size, i = .init size := by
  cases i with
  | memTouch a => exact .inl ⟨.neither, a, 0, rfl⟩
  | memRead a => exact .inl ⟨.readOnly, a, 0, rfl⟩
  | memWrite a d => exact .inl ⟨.writeOnly, a, d, rfl⟩
  | memRdwr a d => exact .inl ⟨.both, a, d, rfl⟩
  | clockTick => exact .inr (.inl rfl)
  | init size => exact .inr (.inr ⟨size, rfl⟩)
  | _ => cases he

/-- What operation `i` did to `s` when it answered a next state: the five kinds of operation (R97), each with the
phases that accept it (R222, log 12, log 13). -/
inductive Answered (s : State) : Instr → State → Prop
  | access (c : Control) (a : Addr) (d : Word) (hidle : s.phase = .idle) :
      Answered s (memInstr c a d) (memAccess Config.params (accessOf c a d) s)
  | tick (hidle : s.phase = .idle) : Answered s .clockTick (tick s)
  | init (size : Nat) (hrest : acceptsInit s.phase = true) : Answered s (.init size) (initialise size s)
  | internal {i : Instr} {t : State} (he : i.isExternal = false) (hc : i.isCombinational = false)
      (hphase : acceptsInternal s.phase = true) (heffect : InternalEffect s t) : Answered s i t
  | function {i : Instr} (r : Result) (he : i.isExternal = false) (hc : i.isCombinational = true) :
      Answered s i (s.withResult r)

/-- A function is no external operation (R97). -/
theorem Instr.isExternal_of_isCombinational {i : Instr} (hc : i.isCombinational = true) : i.isExternal = false := by
  cases i with
  | addrL1 | addrL2 | addrLine | addrWordidx | addrL1Evict | addrL2Evict | nruSelect => rfl
  | _ => cases hc

/-- Every operation that answers a next state is of one of the five kinds. -/
theorem exec_answered {i : Instr} {s t : State} (h : exec i s = .next t) : Answered s i t := by
  cases hc : i.isCombinational with
  | true =>
    obtain ⟨r, hr⟩ := exec_combinational hc s
    rw [hr] at h
    cases h
    exact .function r (Instr.isExternal_of_isCombinational hc) hc
  | false =>
    cases he : i.isExternal with
    | false =>
      obtain ⟨n, hn, heffect⟩ := exec_internal he hc s
      rw [hn, whenInitialised_eq_next] at h
      obtain ⟨hphase, rfl⟩ := h
      exact .internal he hc hphase heffect
    | true =>
      obtain ⟨c, a, d, rfl⟩ | rfl | ⟨size, rfl⟩ := external_cases he
      · rw [exec_memInstr, whenIdle_eq_next] at h
        obtain ⟨hidle, rfl⟩ := h
        exact .access c a d hidle
      · obtain ⟨hidle, rfl⟩ := whenIdle_eq_next.1 h
        exact .tick hidle
      · obtain ⟨hrest, rfl⟩ := whenAtRest_eq_next.1 h
        exact .init size hrest

/-- What a step that answers a next state did: nothing, or the operation its request spells. -/
theorem step_answered {s t : State} (h : step s = .next t) :
    t = s ∨ ∃ i rest, nextOp s = some i ∧ Answered { s with requests := rest } i t := by
  cases hr : s.requests with
  | nil =>
    rw [step_of_no_request hr] at h
    cases h
    exact .inl rfl
  | cons r rest =>
    cases hi : decode r with
    | error e =>
      rw [step_of_reserved hr hi] at h
      cases h
    | ok i =>
      rw [step_of_decode hr hi] at h
      exact .inr ⟨i, rest, by simp only [nextOp, fetch, hr, hi], exec_answered h⟩

/-! ### The phases that accept an internal operation -/

theorem whenInitialised_of_not_accepts {s n : State} (h : acceptsInternal s.phase = false) :
    whenInitialised s n = .refused (.notAccepted s.phase) := by
  simp only [whenInitialised, h, Bool.false_eq_true, if_false]

/-- Settles O42: every internal operation has the one acceptance test of log 12. -/
theorem internalOperationsByPhase : Obligations.InternalOperationsByPhase := by
  intro i s he hc
  obtain ⟨n, hn, -⟩ := exec_internal he hc s
  rw [hn]
  refine ⟨fun hp => ⟨n, ?_⟩, fun p hp => ⟨n, ?_⟩, fun hp => ?_⟩
  · exact whenInitialised_of_accepts (by rw [hp]; rfl)
  · exact whenInitialised_of_accepts (by rw [hp]; rfl)
  · exact whenInitialised_of_not_accepts (by rcases hp with hp | hp <;> rw [hp] <;> rfl)

/-! ### What each sub-phase of MEM_ACCESS can do -/

/-- What a sub-phase does to the elements outside the arrays: no counter falls, control moves forward, and the fault
stands unless FAULTED is entered with one recorded (R160, R197). -/
structure MovesOn (s t : State) : Prop where
  l1MissCount : s.l1MissCount ≤ t.l1MissCount
  l2MissCount : s.l2MissCount ≤ t.l2MissCount
  rank : phaseRank s.phase < phaseRank t.phase
  fault : (t.phase ≠ .faulted ∧ t.fault = s.fault) ∨ (t.phase = .faulted ∧ t.fault.isSome = true)

theorem phase0_movesOn (q : Access) {s : State} (hs : s.phase = .busy .p0) : MovesOn s (phase0 q s) := by
  unfold phase0
  simp only
  split
  · exact ⟨le_rfl, le_rfl, by simp [hs, phaseRank], .inl ⟨by simp, rfl⟩⟩
  · exact ⟨le_rfl, le_rfl, by simp [hs, phaseRank], .inl ⟨by simp, rfl⟩⟩

theorem phase1_movesOn {s : State} (hs : s.phase = .busy .p1) : MovesOn s (phase1 s) := by
  unfold phase1
  exact ⟨Nat.le_succ _, le_rfl, by simp [hs, phaseRank], .inl ⟨by simp, rfl⟩⟩

theorem phase2_movesOn (q : Access) {s : State} (hs : s.phase = .busy .p2) : MovesOn s (phase2 q s) := by
  unfold phase2
  split <;> exact ⟨le_rfl, le_rfl, by simp [hs, phaseRank], .inl ⟨by simp, rfl⟩⟩

theorem phase3_movesOn (q : Access) {s : State} (hs : s.phase = .busy .p3) : MovesOn s (phase3 q s) := by
  unfold phase3
  obtain ⟨l2, mm, h⟩ | ⟨f, l2, h⟩ := l2MissRead_cases q.address { s with l2MissCount := s.l2MissCount + 1 }
  · rw [h]
    exact ⟨le_rfl, Nat.le_succ _, by simp [hs, phaseRank], .inl ⟨by simp, rfl⟩⟩
  · rw [h]
    exact ⟨le_rfl, Nat.le_succ _, by simp [hs, phaseRank], .inr ⟨rfl, rfl⟩⟩

theorem phase4_movesOn (q : Access) {s : State} (hs : s.phase = .busy .p4) : MovesOn s (phase4 q s) := by
  unfold phase4
  split
  · exact ⟨le_rfl, le_rfl, by simp [hs, phaseRank], .inl ⟨by simp, rfl⟩⟩
  · exact ⟨le_rfl, le_rfl, by simp [hs, phaseRank], .inr ⟨rfl, rfl⟩⟩

theorem phase5_movesOn (q : Access) {fb : Line} {s : State} (hs : s.phase = .busy (.p5 fb)) :
    MovesOn s (phase5 q fb s) := by
  unfold phase5
  simp only
  split <;> exact ⟨le_rfl, le_rfl, by simp [hs, phaseRank], .inl ⟨by simp, rfl⟩⟩

theorem phase6_movesOn {eb1 : Evicted} {s : State} (hs : s.phase = .busy (.p6 eb1)) : MovesOn s (phase6 eb1 s) := by
  unfold phase6
  simp only
  split <;> exact ⟨le_rfl, le_rfl, by simp [hs, phaseRank], .inl ⟨by simp, rfl⟩⟩

theorem phase7_movesOn (p : Params) {eb1 : Evicted} {s : State} (hs : s.phase = .busy (.p7 eb1)) :
    MovesOn s (phase7 p eb1 s) := by
  unfold phase7
  simp only
  have hn : s.l2MissCount ≤ if p.countWritebackL2Miss then s.l2MissCount + 1 else s.l2MissCount := by
    split <;> omega
  generalize (if p.countWritebackL2Miss then s.l2MissCount + 1 else s.l2MissCount) = n at hn ⊢
  obtain ⟨l2, mm, h⟩ | ⟨f, l2, h⟩ := l2MissWrite_cases p eb1.address { s with l2MissCount := n }
  · rw [h]
    exact ⟨le_rfl, hn, by simp [hs, phaseRank], .inl ⟨by simp, rfl⟩⟩
  · rw [h]
    exact ⟨le_rfl, hn, by simp [hs, phaseRank], .inr ⟨rfl, rfl⟩⟩

theorem phase8_movesOn {eb1 : Evicted} {s : State} (hs : s.phase = .busy (.p8 eb1)) : MovesOn s (phase8 eb1 s) := by
  unfold phase8
  simp only
  split
  · exact ⟨le_rfl, le_rfl, by simp [hs, phaseRank], .inl ⟨by simp, rfl⟩⟩
  · exact ⟨le_rfl, le_rfl, by simp [hs, phaseRank], .inr ⟨rfl, rfl⟩⟩

theorem phase9_movesOn (q : Access) {s : State} (hs : s.phase = .busy .p9) : MovesOn s (phase9 q s) := by
  unfold phase9
  simp only
  split
  · exact ⟨le_rfl, le_rfl, by simp [hs, phaseRank], .inl ⟨by simp, rfl⟩⟩
  · exact ⟨le_rfl, le_rfl, by simp [hs, phaseRank], .inr ⟨rfl, rfl⟩⟩

/-- R160: whatever the state and the parameters, a sub-phase moves on. -/
theorem microStep_movesOn (p : Params) (q : Access) {s : State} (h : atRest s = false) :
    MovesOn s (microStep p q s) := by
  unfold microStep
  cases hs : s.phase with
  | uninit | idle | faulted => simp [atRest, hs] at h
  | busy sub =>
    cases sub with
    | p0 => exact phase0_movesOn q hs
    | p1 => exact phase1_movesOn hs
    | p2 => exact phase2_movesOn q hs
    | p3 => exact phase3_movesOn q hs
    | p4 => exact phase4_movesOn q hs
    | p5 fb => exact phase5_movesOn q hs
    | p6 eb1 => exact phase6_movesOn hs
    | p7 eb1 => exact phase7_movesOn p hs
    | p8 eb1 => exact phase8_movesOn hs
    | p9 => exact phase9_movesOn q hs

/-! ### The run of a MEM_ACCESS, in any state -/

/-- What every sub-phase keeps, a run of them keeps. -/
theorem microRun_keeps {P : State → Prop} {p : Params} {q : Access}
    (hstep : ∀ s, atRest s = false → P s → P (microStep p q s)) (n : Nat) {s : State} (h : P s) :
    P (microRun p q n s) := by
  induction n generalizing s with
  | zero => exact h
  | succ n ih =>
    cases hr : atRest s with
    | true => rwa [microRun_rest _ _ _ _ hr]
    | false => exact ih (hstep s hr h)

theorem atRest_iff_rank (s : State) : atRest s = true ↔ 10 ≤ phaseRank s.phase := by
  unfold atRest
  cases s.phase with
  | uninit | idle | faulted => simp [phaseRank]
  | busy sub => cases sub <;> simp [phaseRank]

/-- R160: `n` sub-phases bring control `n` places forward, or to rest. -/
theorem microRun_rank (p : Params) (q : Access) (n : Nat) (s : State) :
    min 10 (phaseRank s.phase + n) ≤ phaseRank (microRun p q n s).phase := by
  induction n generalizing s with
  | zero => exact min_le_right _ _
  | succ n ih =>
    cases hr : atRest s with
    | true =>
      rw [microRun_rest _ _ _ _ hr]
      exact (min_le_left _ _).trans ((atRest_iff_rank s).1 hr)
    | false =>
      have hlt := (microStep_movesOn p q hr).rank
      have hle := ih (microStep p q s)
      rw [microRun_succ]
      omega

/-- R38: a MEM_ACCESS ends at rest, in any state. -/
theorem memAccess_atRest (p : Params) (q : Access) (s : State) : atRest (memAccess p q s) = true := by
  have h := microRun_rank p q 10 (s.goto .p0)
  rw [atRest_iff_rank, memAccess]
  simpa [phaseRank] using h

/-- R35: neither counter of `t` is below that of `s`. -/
def CountersNotBelow (s t : State) : Prop := s.l1MissCount ≤ t.l1MissCount ∧ s.l2MissCount ≤ t.l2MissCount

/-- R35: a MEM_ACCESS lowers no counter, in any state. -/
theorem memAccess_counters (p : Params) (q : Access) (s : State) : CountersNotBelow s (memAccess p q s) := by
  refine microRun_keeps (P := CountersNotBelow s) ?_ 10 (s := s.goto .p0) ⟨le_rfl, le_rfl⟩
  rintro u hr ⟨hl1, hl2⟩
  have hm := microStep_movesOn p q hr
  exact ⟨hl1.trans hm.l1MissCount, hl2.trans hm.l2MissCount⟩

/-- R39: a sub-phase records a fault exactly when it enters FAULTED. -/
theorem MovesOn.faultMatchesPhase {s t : State} (h : MovesOn s t) (hr : atRest s = false)
    (hs : faultMatchesPhase s) : faultMatchesPhase t := by
  have hne : s.phase ≠ .faulted := fun hp => by simp [atRest, hp] at hr
  obtain ⟨hp, hf⟩ | ⟨hp, hf⟩ := h.fault
  · exact iff_of_false (by rw [hf]; exact fun h => hne (hs.1 h)) hp
  · exact iff_of_true hf hp

/-- R39: from IDLE with no fault recorded, a MEM_ACCESS ends with one recorded exactly in FAULTED. -/
theorem memAccess_faultMatchesPhase (p : Params) (q : Access) {s : State} (hidle : s.phase = .idle)
    (h : faultMatchesPhase s) : faultMatchesPhase (memAccess p q s) := by
  have hnone : ¬ s.fault.isSome = true := fun hf => by rw [h.1 hf] at hidle; cases hidle
  exact microRun_keeps (fun u hr hu => (microStep_movesOn p q hr).faultMatchesPhase hr hu) 10
    (s := s.goto .p0) (iff_of_false hnone (by simp))

/-- Settles O50: MEM_ACCESS lowers no counter, and no other operation but INIT moves one. -/
theorem countersNeverDecrease : Obligations.CountersNeverDecrease := by
  intro i s t hinit h
  cases exec_answered h with
  | access c a d => exact memAccess_counters _ _ _
  | tick => exact ⟨le_rfl, le_rfl⟩
  | init size => exact absurd rfl (hinit size)
  | internal _ _ _ heffect => exact ⟨heffect.l1MissCount.ge, heffect.l2MissCount.ge⟩
  | function r => exact ⟨le_rfl, le_rfl⟩

/-! ### INIT and reset -/

/-- Settles O39: INIT with a legal size, field by field. -/
theorem initEstablishesResetTable : Obligations.InitEstablishesResetTable := by
  intro size s hrest hsize
  refine ⟨initialise size s, whenAtRest_of_accepts hrest, ?_⟩
  rw [initialise_of_sizeAligned hsize]
  exact ⟨rfl, fun _ => rfl, l1At_l1Init s.l1, l2At_l2Init s.l2, rfl, rfl, rfl, rfl, rfl, rfl, rfl⟩

/-- Settles O40: INIT with an illegal size enters the fault and does nothing else. -/
theorem badSizeInitRaisesConfigError : Obligations.BadSizeInitRaisesConfigError := by
  intro size s hrest hsize
  refine ⟨initialise size s, whenAtRest_of_accepts hrest, ?_, rfl⟩
  rw [initialise_of_not_sizeAligned hsize]
  exact ⟨rfl, rfl, rfl, rfl, rfl, rfl, rfl, rfl, rfl, rfl, rfl⟩

/-- R39, R197: INIT ends at rest, with a fault recorded exactly when its size is illegal. -/
theorem initialise_endsAtRest (size : Nat) (s : State) :
    atRest (initialise size s) = true ∧ faultMatchesPhase (initialise size s) := by
  by_cases hsize : size % 32 = 0
  · rw [initialise_of_sizeAligned hsize]
    exact ⟨rfl, iff_of_false (by simp) (by simp)⟩
  · rw [initialise_of_not_sizeAligned hsize]
    exact ⟨rfl, iff_of_true rfl rfl⟩

/-- R39, R197: an internal operation leaves a resting block at rest, with a fault recorded exactly in FAULTED. -/
theorem InternalEffect.endsAtRest {s t : State} (h : InternalEffect s t) (hr : atRest s = true)
    (hs : faultMatchesPhase s) : atRest t = true ∧ faultMatchesPhase t := by
  obtain ⟨hp, hf⟩ | ⟨hp, hf⟩ := h.phaseFault
  · exact ⟨by rwa [atRest, hp], by rwa [faultMatchesPhase, hp, hf]⟩
  · exact ⟨by rw [atRest, hp], iff_of_true hf hp⟩

/-- Settles O59: each kind of operation ends at rest and keeps the record of the fault in step with the phase. -/
theorem stepEndsAtRest : Obligations.StepEndsAtRest := by
  intro s t hr hf h
  obtain rfl | ⟨i, rest, -, hi⟩ := step_answered h
  · exact ⟨hr, hf⟩
  · cases hi with
    | access c a d hidle => exact ⟨memAccess_atRest _ _ _, memAccess_faultMatchesPhase _ _ hidle hf⟩
    | tick hidle => exact ⟨rfl, hf.trans (by rw [tick_phase, hidle])⟩
    | init size => exact initialise_endsAtRest size _
    | internal _ _ _ heffect => exact heffect.endsAtRest hr hf
    | function r => exact ⟨hr, hf⟩

/-! ### The hierarchy's invariants -/

namespace Coherent

variable {s t : State}

/-- Coherence reads the arrays, the size and the counters. -/
theorem frame (h : Coherent s) (hl1 : t.l1 = s.l1) (hl2 : t.l2 = s.l2) (hmm : t.mm = s.mm)
    (hsize : t.memSize = s.memSize) (hc1 : t.l1MissCount = s.l1MissCount) (hc2 : t.l2MissCount = s.l2MissCount) :
    Coherent t where
  sizeMultiple := hsize ▸ h.sizeMultiple
  l1Unique := hl1 ▸ h.l1Unique
  l1InvalidClear := hl1 ▸ h.l1InvalidClear
  l1InRange := hl1 ▸ hsize ▸ h.l1InRange
  l2InRange := hl2 ▸ hsize ▸ h.l2InRange
  l1CleanAgrees := hl1 ▸ hl2 ▸ hmm ▸ h.l1CleanAgrees
  l2CleanAgrees := hl2 ▸ hmm ▸ h.l2CleanAgrees
  missesOrdered := hc1 ▸ hc2 ▸ h.missesOrdered

/-- R42, R44: with every entry invalid and every L1 state word 0, coherence asks only for a legal size and ordered
counters. -/
theorem of_invalid (hsize : s.memSize % 32 = 0)
    (hl1 : ∀ (i : BitVec 9) (w : Fin 4), ∃ l, l1At s.l1 i w =
      { valid := false, reference := false, dirty := false, tag := 0, line := l })
    (hl2 : ∀ i : BitVec 15, (l2At s.l2 i).valid = false) (hc : s.l2MissCount ≤ s.l1MissCount) : Coherent s := by
  have hinvalid : ∀ (i : BitVec 9) (w : Fin 4), (l1At s.l1 i w).valid = false := fun i w => by
    obtain ⟨l, hl⟩ := hl1 i w
    rw [hl]
  refine ⟨hsize, fun i v _ hv => ?_, fun i w _ => ?_, fun i w hv => ?_, fun i hv => ?_, fun i w hv => ?_,
    fun i hv => ?_, hc⟩
  · simp [hinvalid] at hv
  · obtain ⟨l, hl⟩ := hl1 i w
    rw [hl]
    exact ⟨rfl, rfl, rfl⟩
  · simp [hinvalid] at hv
  · simp [hl2] at hv
  · simp [hinvalid] at hv
  · simp [hl2] at hv

/-- R177: a tick clears reference bits only. -/
theorem tick (h : Coherent s) : Coherent (tick s) where
  sizeMultiple := h.sizeMultiple
  l1Unique := by simpa [l1Aged] using h.l1Unique
  l1InvalidClear i w hv := by
    obtain ⟨-, hd, ht⟩ := h.l1InvalidClear i w (by simpa [l1Aged] using hv)
    simp [l1Aged, hd, ht]
  l1InRange := by simpa [l1Aged] using h.l1InRange
  l2InRange := h.l2InRange
  l1CleanAgrees := by simpa [l1Aged] using h.l1CleanAgrees
  l2CleanAgrees := h.l2CleanAgrees
  missesOrdered := h.missesOrdered

end Coherent

/-- R161, R173: in a coherent state a MEM_ACCESS hits L1, or refills and then hits, or is out of range and faults;
which of the three, no parameter decides. -/
theorem memAccess_cases (q : Access) {s : State} (h : Coherent s) :
    (∃ w, hitsL1 s q.address w ∧ ∀ p, memAccess p q s = accessed q w s) ∨
      (q.address.toNat < s.memSize ∧ missesL1 s q.address ∧
        ∀ p, memAccess p q s = accessed q (fillWay s q.address) (refilled p q.address s)) ∨
      (s.memSize ≤ q.address.toNat ∧ ∀ p, memAccess p q s = raise (outOfRange q.address)
        { s with l1MissCount := s.l1MissCount + 1, l2MissCount := s.l2MissCount + 1 }) := by
  by_cases ha : q.address.toNat < s.memSize
  · cases hm : hitWay (l1SetAt s.l1 (addrL1 q.address).setIndex) (addrL1 q.address).tag with
    | some w => exact .inl ⟨w, hm, fun p => memAccess_hit p hm⟩
    | none => exact .inr (.inl ⟨ha, hm, fun p => memAccess_miss p h ha hm⟩)
  · exact .inr (.inr ⟨not_lt.1 ha, fun p => memAccess_outOfRange p h (not_lt.1 ha)⟩)

/-- R35, R175: a refill counts an L2 miss only beside the L1 miss, with D7 at its default. -/
theorem refilled_missesOrdered {p : Params} (hp : p.countWritebackL2Miss = false) (a : Addr) {s : State}
    (h : s.l2MissCount ≤ s.l1MissCount) : (refilled p a s).l2MissCount ≤ (refilled p a s).l1MissCount := by
  rw [refilled_l1MissCount, refilled_l2MissCount hp]
  split <;> omega

/-- R67 to R70: a MEM_ACCESS that does not fault leaves a coherent state. -/
theorem memAccess_hierarchyInvariant {p : Params} (hp : p.countWritebackL2Miss = false) (q : Access) {s : State}
    (h : Coherent s) : HierarchyInvariant (memAccess p q s) := by
  intro hidle
  obtain ⟨w, hw, hq⟩ | ⟨ha, hm, hq⟩ | ⟨-, hq⟩ := memAccess_cases q h
  · rw [hq]
    exact accessed_coherent h hw
  · rw [hq]
    exact accessed_coherent (refilled_coherent p h ha hm (refilled_missesOrdered hp _ h.missesOrdered))
      (refilled_hits p hm)
  · rw [hq] at hidle
    cases hidle

/-- R44, R176: from any state an INIT that succeeds leaves a coherent one. -/
theorem initialise_hierarchyInvariant (size : Nat) (s : State) : HierarchyInvariant (initialise size s) := by
  intro hidle
  by_cases hsize : size % 32 = 0
  · rw [initialise_of_sizeAligned hsize]
    exact .of_invalid hsize (fun i w => ⟨_, l1At_l1Init s.l1 i w⟩)
      (fun i => congrArg L2Entry.valid (l2At_l2Init s.l2 i)) le_rfl
  · rw [initialise_of_not_sizeAligned hsize] at hidle
    cases hidle

/-- Settles O58: INIT establishes the invariants from any state; the other interface operations keep them. -/
theorem stepKeepsHierarchyInvariant : Obligations.StepKeepsHierarchyInvariant := by
  intro s t hs hop h
  obtain rfl | ⟨i, rest, hi, hans⟩ := step_answered h
  · exact hs
  · have hcoh : s.phase = .idle → Coherent { s with requests := rest } :=
      fun hidle => (hs hidle).frame rfl rfl rfl rfl rfl rfl
    cases hans with
    | access c a d hidle => exact memAccess_hierarchyInvariant rfl _ (hcoh hidle)
    | tick hidle => exact fun _ => (hcoh hidle).tick
    | init size => exact initialise_hierarchyInvariant size _
    | internal he hc =>
      obtain he' | hc' := hop i hi
      · simp [he] at he'
      · simp [hc] at hc'
    | function r => exact fun hidle => (hcoh hidle).frame rfl rfl rfl rfl rfl rfl

/-- Settles O56: nothing is listed, so every entry reads as invalid and every word as 0. -/
theorem resetWithinInvariants : Obligations.ResetWithinInvariants := by
  refine ⟨⟨rfl, rfl, rfl, rfl⟩, ?_, rfl, iff_of_false (by decide) (by decide)⟩
  exact .of_invalid rfl (fun i w => ⟨Line.zero, l1Set_empty_get w⟩) (fun i => by rw [State.reset, l2At_nil]; rfl) le_rfl

/-! ### Entries leave by displacement only -/

/-- R27, of an entry of either cache by its three fields: valid stays valid, and dirty becomes clean only under another
tag. -/
def EntryKept {ε τ : Type} (valid dirty : ε → Bool) (tag : ε → τ) (e e' : ε) : Prop :=
  valid e = true → valid e' = true ∧ (dirty e = true → dirty e' = false → tag e' ≠ tag e)

/-- R22. -/
abbrev L1EntryKept : L1Entry → L1Entry → Prop := EntryKept L1Entry.valid L1Entry.dirty L1Entry.tag

/-- R29. -/
abbrev L2EntryKept : L2Entry → L2Entry → Prop := EntryKept L2Entry.valid L2Entry.dirty L2Entry.tag

/-- An entry is kept where neither bit is cleared. -/
theorem EntryKept.of_dirty {ε τ : Type} {valid dirty : ε → Bool} {tag : ε → τ} {e e' : ε}
    (hv : valid e = true → valid e' = true) (hd : dirty e = true → dirty e' = true) :
    EntryKept valid dirty tag e e' :=
  fun h => ⟨hv h, fun hx hy => absurd (hd hx) (by simp [hy])⟩

/-- No entry of either cache leaves but by displacement. -/
structure EntriesKept (s t : State) : Prop where
  l1 : ∀ (i : BitVec 9) (w : Fin 4), L1EntryKept (l1At s.l1 i w) (l1At t.l1 i w)
  l2 : ∀ i : BitVec 15, L2EntryKept (l2At s.l2 i) (l2At t.l2 i)

/-- Arrays left alone keep their entries. -/
theorem EntriesKept.of_eq {s t : State} (hl1 : t.l1 = s.l1) (hl2 : t.l2 = s.l2) : EntriesKept s t where
  l1 _ _ := hl1 ▸ .of_dirty id id
  l2 _ := hl2 ▸ .of_dirty id id

/-- R148: an access clears no valid or dirty bit. -/
theorem accessed_l1EntryKept (q : Access) (w : Fin 4) (s : State) (i : BitVec 9) (u : Fin 4) :
    L1EntryKept (l1At s.l1 i u) (l1At (accessed q w s).l1 i u) := by
  rw [accessed_at]
  split
  · next h =>
    obtain ⟨rfl, rfl⟩ := h
    exact .of_dirty id (fun hd => by simp [l1Touched, hd])
  · exact .of_dirty id id

/-- R24, R144: the refill puts another line in the victim's place; the access that follows moves no tag. -/
theorem accessed_refilled_l1EntryKept (p : Params) (q : Access) {s : State} (hm : missesL1 s q.address) (i : BitVec 9)
    (u : Fin 4) :
    L1EntryKept (l1At s.l1 i u) (l1At (accessed q (fillWay s q.address) (refilled p q.address s)).l1 i u) := by
  by_cases hfill : i = (addrL1 q.address).setIndex ∧ u = fillWay s q.address
  · obtain ⟨rfl, rfl⟩ := hfill
    intro hv
    obtain ⟨hvalid, htag⟩ := accessed_valid_tag q (fillWay s q.address) (refilled p q.address s)
      (addrL1 q.address).setIndex (fillWay s q.address)
    rw [hvalid, htag, refilled_l1, l1InsertLine_at, if_pos ⟨rfl, rfl⟩]
    exact ⟨rfl, fun _ _ => ((hitWay_none _ _).1 hm _ hv).symm⟩
  · have hsame : l1At (refilled p q.address s).l1 i u = l1At s.l1 i u := by
      rw [refilled_l1, l1InsertLine_at, if_neg hfill]
    rw [← hsame]
    exact accessed_l1EntryKept q _ _ i u

/-- R166: a fetch that misses L2 displaces an entry of another line. -/
theorem fetched_l2EntryKept (a : Addr) (s : State) (i : BitVec 15) :
    L2EntryKept (l2At s.l2 i) (l2At (fetched a s).l2 i) := by
  cases ha : inL2 s a with
  | true =>
    rw [fetched_of_inL2 ha]
    exact .of_dirty id id
  | false =>
    by_cases hi : i = (addrL2 a).index
    · subst hi
      intro hv
      have hnone : l2Lookup a s.l2 = none := Option.not_isSome_iff_eq_none.1 (by simpa [inL2] using ha)
      rw [(fetched_of_not_inL2 ha).1, l2At_l2Put, if_pos rfl]
      exact ⟨rfl, fun _ _ => (l2Lookup_eq_none.1 hnone hv).symm⟩
    · rw [fetched_l2At_other a s hi]
      exact .of_dirty id id

/-- R169: the write-back after a fetch leaves a dirty entry where it writes. -/
theorem refilled_l2EntryKept (p : Params) (a : Addr) (s : State) (i : BitVec 15) :
    L2EntryKept (l2At s.l2 i) (l2At (refilled p a s).l2 i) := by
  by_cases hd : dirtyVictim s a
  · rw [refilled_of_dirtyVictim p hd, writtenBack_l2At]
    split
    · exact .of_dirty (fun _ => rfl) (fun _ => rfl)
    · exact fetched_l2EntryKept a s.countL1Miss i
  · rw [refilled_of_not_dirtyVictim p hd]
    exact fetched_l2EntryKept a s.countL1Miss i

/-- R27: a MEM_ACCESS removes an entry of either cache only by displacing it. -/
theorem memAccess_entriesKept (p : Params) (q : Access) {s : State} (h : Coherent s) :
    EntriesKept s (memAccess p q s) := by
  obtain ⟨w, -, hq⟩ | ⟨-, hm, hq⟩ | ⟨-, hq⟩ := memAccess_cases q h
  · rw [hq]
    exact ⟨accessed_l1EntryKept q w s, fun _ => .of_dirty id id⟩
  · rw [hq]
    exact ⟨accessed_refilled_l1EntryKept p q hm, refilled_l2EntryKept p q.address s⟩
  · rw [hq]
    exact .of_eq rfl rfl

/-- R146: a tick clears no valid or dirty bit. -/
theorem tick_entriesKept (s : State) : EntriesKept s (tick s) where
  l1 i w := by
    rw [tick_l1, l1At_l1ClearRef]
    exact .of_dirty id id
  l2 _ := .of_dirty id id

/-- Settles O52: by MEM_ACCESS entries are displaced, and a tick removes none. -/
theorem entriesLeaveOnlyByDisplacement : Obligations.EntriesLeaveOnlyByDisplacement := by
  intro i s t hs hext hinit h
  have hkept : EntriesKept s t := by
    cases exec_answered h with
    | access c a d => exact memAccess_entriesKept _ _ hs
    | tick => exact tick_entriesKept s
    | init size => exact absurd rfl (hinit size)
    | internal he => simp [he] at hext
    | function r he => simp [he] at hext
  exact ⟨hkept.l1, hkept.l2⟩

/-! ### The count of a write-caused L2 miss -/

/-- `s` with `n` more L2 misses counted. -/
def State.countL2Misses (s : State) (n : Nat) : State := { s with l2MissCount := s.l2MissCount + n }

/-- P7, D7: the parameter counts a write-back that misses L2, and does nothing else. -/
theorem writtenBack_countWriteback (f : Nat → Line) (e : Evicted) (s : State) :
    writtenBack { countWritebackL2Miss := true, scratchLine := f } e s =
      (writtenBack { countWritebackL2Miss := false, scratchLine := f } e s).countL2Misses
        (if inL2 s e.address then 0 else 1) := by
  unfold writtenBack inL2
  cases l2Lookup e.address s.l2 <;> rfl

/-- P6: the write-back of a dirty victim misses L2 after the fetch exactly as `writebackMisses` says. -/
theorem inL2_fetched_victim {a : Addr} {s : State} (hm : missesL1 s a) (hd : dirtyVictim s a) :
    inL2 (fetched a s.countL1Miss) (victimAddress s a) = false ↔ writebackMisses s a := by
  have hnone : inL2 (fetched a s.countL1Miss) (victimAddress s a) = false ↔
      l2Lookup (victimAddress s a) (fetched a s.countL1Miss).l2 = none := by
    simp [inL2]
  rw [hnone, fetched_lookup_none (victim_other hm hd.1)]
  exact (and_iff_right hd).symm

/-- D7 across a refill. -/
theorem refilled_countWriteback (f : Nat → Line) {a : Addr} {s : State} (hm : missesL1 s a) :
    ∃ n, n ≤ 1 ∧ (n = 1 ↔ writebackMisses s a) ∧
      refilled { countWritebackL2Miss := true, scratchLine := f } a s =
        (refilled { countWritebackL2Miss := false, scratchLine := f } a s).countL2Misses n := by
  by_cases hd : dirtyVictim s a
  · refine ⟨if inL2 (fetched a s.countL1Miss) (victimAddress s a) then 0 else 1, by split <;> omega, ?_, ?_⟩
    · rw [← inL2_fetched_victim hm hd]
      simp
    · rw [refilled_of_dirtyVictim _ hd, refilled_of_dirtyVictim _ hd, writtenBack_countWriteback]
      rfl
  · refine ⟨0, by omega, iff_of_false (by omega) (fun h => hd h.1), ?_⟩
    rw [refilled_of_not_dirtyVictim _ hd, refilled_of_not_dirtyVictim _ hd]
    rfl

/-- Settles O55: only a refill passes P7, and there only the write-back that misses L2 counts. -/
theorem writebackCountParameter : Obligations.WritebackCountParameter := by
  intro f q s _ h
  obtain ⟨w, hw, hq⟩ | ⟨ha, hm, hq⟩ | ⟨ha, hq⟩ := memAccess_cases q h
  · refine ⟨0, by omega, iff_of_false (by omega) (fun hx => ?_), by rw [hq, hq]; rfl⟩
    simp [inL1, hw] at hx
  · obtain ⟨n, hle, hn, hr⟩ := refilled_countWriteback f hm
    have hin : inL1 s q.address = false := by simp [inL1, hm]
    refine ⟨n, hle, ?_, ?_⟩
    · rw [hn]
      exact ⟨fun hx => ⟨ha, hin, hx⟩, fun ⟨_, _, hx⟩ => hx⟩
    · rw [hq, hq, hr]
      rfl
  · exact ⟨0, by omega, iff_of_false (by omega) (fun hx => absurd hx.1 (not_lt.2 ha)), by rw [hq, hq]; rfl⟩

end Sys2Proof.Machine

/-! PROOFS. The statements of spec/20_memory.md: the memory the requester sees is a flat memory of words (O43, R68),
and what is written is read back (O44, R62). -/

namespace Sys2Proof.Machine

/-! ### What each external operation does to the view -/

/-- R161, R173: in a coherent state an access in range ends with the access itself, which hits, in a state of the same
size that shows the requester the same words. -/
theorem memAccess_inRange (p : Params) (q : Access) {s : State} (h : Coherent s) (ha : q.address.toNat < s.memSize) :
    ∃ (r : State) (w : Fin 4), memAccess p q s = accessed q w r ∧ hitsL1 r q.address w ∧
      r.memSize = s.memSize ∧ ∀ b : Addr, view r b = view s b := by
  obtain ⟨w, hw, hq⟩ | ⟨-, hm, hq⟩ | ⟨hout, -⟩ := memAccess_cases q h
  · exact ⟨s, w, hq p, hw, rfl, fun _ => rfl⟩
  · exact ⟨refilled p q.address s, fillWay s q.address, hq p, refilled_hits p hm, refilled_memSize p q.address s,
      view_of_viewLine (refilled_viewLine p h ha hm)⟩
  · exact absurd ha (not_lt.2 hout)

/-- R68 (i), (ii): a MEM_ACCESS in range returns the view if read-enabled and writes its own word of it if
write-enabled; the block is idle and coherent again, of the same size. -/
theorem exec_memInstr_inRange (c : Control) (a : Addr) (d : Word) {s : State} (hidle : s.phase = .idle)
    (h : Coherent s) (ha : a.toNat < s.memSize) :
    ∃ t, exec (memInstr c a d) s = .next t ∧ t.phase = .idle ∧ Coherent t ∧ t.memSize = s.memSize ∧
      t.result = .memAccess (if c.read then some (view s a) else none) ∧
      ∀ b : Addr, (c.write = true ∧ sameWord a b → view t b = d) ∧
        (¬ (c.write = true ∧ sameWord a b) → view t b = view s b) := by
  have hcoh := memAccess_hierarchyInvariant (p := Config.params) rfl (accessOf c a d) h
  obtain ⟨r, w, hq, hw, hsize, hview⟩ := memAccess_inRange Config.params (accessOf c a d) h ha
  rw [hq] at hcoh
  refine ⟨accessed (accessOf c a d) w r, ?_, rfl, hcoh rfl, hsize, ?_, fun b => ⟨fun hb => ?_, fun hb => ?_⟩⟩
  · rw [exec_memInstr, whenIdle_of_idle hidle, hq]
  · rw [accessed_result hw, hview]
    rfl
  · exact ((accessed_view hw b).trans (if_pos hb)).trans (if_pos hb.1)
  · exact ((accessed_view hw b).trans (if_neg hb)).trans (hview b)

/-- R146: ageing a set moves no way's `valid` or `tag`, so the same way hits. -/
theorem hitWay_eachWay_l1Aged (set : L1Set) (tag : BitVec 18) : hitWay (eachWay l1Aged set) tag = hitWay set tag := by
  simp only [hitWay, firstWay, eachWay_get, l1Aged]

/-- R68 (iii): a tick changes no line the requester sees. -/
theorem tick_viewLine (s : State) (a : Addr) : viewLine (tick s) a = viewLine s a := by
  simp only [viewLine, tick_l1, tick_l2, tick_mm, l1SetAt_l1ClearRef, hitWay_eachWay_l1Aged, l1At_l1ClearRef, l1Aged]

/-- R177: a tick in an idle block has a step. -/
theorem exec_clockTick {s : State} (hidle : s.phase = .idle) : exec .clockTick s = .next (tick s) :=
  whenIdle_of_idle hidle

/-- R68 (iv): INIT leaves nothing in either cache and 0 in every word of Main Memory. -/
theorem initialise_view {size : Nat} (hsize : size % 32 = 0) (s : State) (a : Addr) :
    view (initialise size s) a = 0 := by
  have hmiss : missesL1 (initialise size s) a := by
    rw [initialise_of_sizeAligned hsize, missesL1, hitWay_none]
    simp [l1Cleared]
  have hlookup : l2Lookup a (initialise size s).l2 = none := by
    rw [initialise_of_sizeAligned hsize, l2Lookup_eq_none]
    simp [l2Cleared]
  have hmm : (initialise size s).mm = [] := by
    rw [initialise_of_sizeAligned hsize]
  rw [view_eq, viewLine, hmiss]
  simp only [behind, hlookup, hmm, lineWord_mmLine, mmWord_nil]

/-- Settles O43: by what MEM_ACCESS in range, a tick and a successful INIT each do to the view. -/
theorem requesterSeesFlatMemory : Obligations.RequesterSeesFlatMemory := by
  intro s hidle h
  refine ⟨fun c a d ha => ?_, ?_, fun size hsize => ?_⟩
  · obtain ⟨t, ht, -, -, -, hresult, hview⟩ := exec_memInstr_inRange c a d hidle h ha
    exact ⟨t, ht, hresult, hview⟩
  · exact ⟨tick s, exec_clockTick hidle, view_of_viewLine (tick_viewLine s)⟩
  · have hrest : acceptsInit s.phase = true := by rw [hidle]; rfl
    exact ⟨initialise size s, whenAtRest_of_accepts hrest, fun b _ => initialise_view hsize s b⟩

/-! ### The round trip -/

/-- An idle, coherent block of `size` bytes that shows the requester `d` at `a`. -/
structure ShowsWord (size : Nat) (a : Addr) (d : Word) (s : State) : Prop where
  phase : s.phase = .idle
  coherent : Coherent s
  memSize : s.memSize = size
  view : view s a = d

/-- The operations R62 allows between the write and the read: ticks, and accesses in range that do not write the word
of `a`. -/
def LeavesWord (size : Nat) (a : Addr) (i : Instr) : Prop :=
  i = .clockTick ∨ ∃ (c : Control) (b : Addr) (x : Word), i = memInstr c b x ∧ b.toNat < size ∧
    (c.write = true → ¬ sameWord a b)

/-- R62: each operation allowed in between has a step and leaves the word. -/
theorem LeavesWord.exec_showsWord {size : Nat} {a : Addr} {d : Word} {i : Instr} {s : State}
    (hi : LeavesWord size a i) (hs : ShowsWord size a d s) : ∃ t, exec i s = .next t ∧ ShowsWord size a d t := by
  obtain ⟨hidle, hcoh, rfl, hview⟩ := hs
  obtain rfl | ⟨c, b, x, rfl, hb, hother⟩ := hi
  · exact ⟨tick s, exec_clockTick hidle, rfl, hcoh.tick, rfl, (view_of_viewLine (tick_viewLine s) a).trans hview⟩
  · obtain ⟨t, ht, hidle', hcoh', hsize, -, hview'⟩ := exec_memInstr_inRange c b x hidle hcoh hb
    exact ⟨t, ht, hidle', hcoh', hsize, ((hview' a).2 fun hx => hother hx.1 hx.2.symm).trans hview⟩

theorem runOps_cons {i : Instr} {s t : State} (is : List Instr) (h : exec i s = .next t) :
    runOps (i :: is) s = runOps is t := by
  simp only [runOps, h]

/-- R61: where each operation of a list has a step that keeps `P`, so has the list. -/
theorem runOps_keeps {P : State → Prop} {is : List Instr}
    (hstep : ∀ i ∈ is, ∀ s, P s → ∃ t, exec i s = .next t ∧ P t) {s : State} (hs : P s) :
    ∃ t, runOps is s = some t ∧ P t := by
  induction is generalizing s with
  | nil => exact ⟨s, rfl, hs⟩
  | cons i is ih =>
    obtain ⟨t, ht, hPt⟩ := hstep i List.mem_cons_self s hs
    obtain ⟨u, hu, hPu⟩ := ih (fun j hj => hstep j (List.mem_cons_of_mem i hj)) hPt
    exact ⟨u, (runOps_cons is ht).trans hu, hPu⟩

/-- Settles O44: the write shows `d` at `a`, every operation between leaves it there, and the read returns the view. -/
theorem roundTripLaw : Obligations.RoundTripLaw := by
  intro s a d between hidle h ha hbetween
  obtain ⟨v, hv, hvidle, hvcoh, hvsize, -, hvview⟩ := exec_memInstr_inRange .writeOnly a d hidle h ha
  have hwritten : ShowsWord s.memSize a d v := ⟨hvidle, hvcoh, hvsize, (hvview a).1 ⟨rfl, rfl⟩⟩
  obtain ⟨t, ht, hshows⟩ := runOps_keeps (fun i hi _ => LeavesWord.exec_showsWord (hbetween i hi)) hwritten
  have hta : a.toNat < t.memSize := hshows.memSize.symm ▸ ha
  obtain ⟨u, hu, -, -, -, hresult, -⟩ := exec_memInstr_inRange .readOnly a 0 hshows.phase hshows.coherent hta
  refine ⟨t, u, (runOps_cons between hv).trans ht, hu, ?_⟩
  rw [hresult, hshows.view]
  rfl

end Sys2Proof.Machine

/-! PROOFS. The statements of spec/30_encoding.md: what each code of the two request headers decodes to (O2, O3, O4) and
which are refused (O7), the word the host presents (O6), that decoding undoes encoding (O1), and how the fields of the
two caches nest (O14). -/

namespace Sys2Proof

/-! ### The XREQ codes (R89) -/

theorem decode_xreq_memAccess (c : BitVec 2) (a : Addr) (w : Word) (n : Nat) :
    decode (.xreq (xreqHeader 0b00 c a) w n) = .ok (decodeMemAccess c a w) := decode_xreq 0b00 c a w n

theorem decode_xreq_clockTick (c : BitVec 2) (a : Addr) (w : Word) (n : Nat) :
    decode (.xreq (xreqHeader 0b01 c a) w n) = .ok .clockTick := decode_xreq 0b01 c a w n

theorem decode_xreq_init (c : BitVec 2) (a : Addr) (w : Word) (n : Nat) :
    decode (.xreq (xreqHeader 0b10 c a) w n) = .ok (.init n) := decode_xreq 0b10 c a w n

theorem decode_xreq_reserved (c : BitVec 2) (a : Addr) (w : Word) (n : Nat) :
    decode (.xreq (xreqHeader 0b11 c a) w n) = .error .reservedXreqOp := decode_xreq 0b11 c a w n

/-- Settles O2: the four XREQ codes, with `control` naming the variant of MEM_ACCESS. -/
theorem xreqOpCodes : Obligations.XreqOpCodes := by
  intro c a w n
  refine ⟨?_, ?_, ?_, ?_, decode_xreq_clockTick c a w n, decode_xreq_init c a w n, decode_xreq_reserved c a w n, rfl,
    rfl⟩
  · exact decode_xreq_memAccess 0b00 a w n
  · exact decode_xreq_memAccess 0b01 a w n
  · exact decode_xreq_memAccess 0b10 a w n
  · exact decode_xreq_memAccess 0b11 a w n

/-! ### The UOP codes (R91) -/

theorem decode_uop_mm (f c : BitVec 2) (a : Addr) (b : BitVec 256) (n : Nat) :
    decode (.uop (uopHeader 0b00 f c a) b n) = decodeMmFn f (controlOfBits c) a b n := decode_uop 0b00 f c a b n

theorem decode_uop_l2 (f c : BitVec 2) (a : Addr) (b : BitVec 256) (n : Nat) :
    decode (.uop (uopHeader 0b01 f c a) b n) = decodeL2Fn f (controlOfBits c) a b := decode_uop 0b01 f c a b n

theorem decode_uop_l1 (f c : BitVec 2) (a : Addr) (b : BitVec 256) (n : Nat) :
    decode (.uop (uopHeader 0b10 f c a) b n) = .ok (decodeL1Fn f (controlOfBits c) a b) := decode_uop 0b10 f c a b n

theorem decode_uop_controller (f c : BitVec 2) (a : Addr) (b : BitVec 256) (n : Nat) :
    decode (.uop (uopHeader 0b11 f c a) b n) = decodeControllerFn f a := decode_uop 0b11 f c a b n

/-- R91: the five codes that spell no operation. -/
theorem decode_uop_reserved {u f : BitVec 2}
    (h : (u, f) ∈ [(0b00#2, 0b10#2), (0b00#2, 0b11#2), (0b01#2, 0b11#2), (0b11#2, 0b10#2), (0b11#2, 0b11#2)])
    (c : BitVec 2) (a : Addr) (b : BitVec 256) (n : Nat) :
    decode (.uop (uopHeader u f c a) b n) = .error (.reservedUopFn u f) := by
  simp only [List.mem_cons, List.not_mem_nil, or_false, Prod.mk.injEq] at h
  obtain ⟨rfl, rfl⟩ | ⟨rfl, rfl⟩ | ⟨rfl, rfl⟩ | ⟨rfl, rfl⟩ | ⟨rfl, rfl⟩ := h
  · exact decode_uop_mm 0b10 c a b n
  · exact decode_uop_mm 0b11 c a b n
  · exact decode_uop_l2 0b11 c a b n
  · exact decode_uop_controller 0b10 c a b n
  · exact decode_uop_controller 0b11 c a b n

/-- Settles O3: each unit's decoder at each of its codes; the line is the bus's and the control the two bits'. -/
theorem uopCodes : Obligations.UopCodes := by
  intro c a b n
  exact ⟨lineOfBus b, controlOfBits c, rfl, rfl, lineWord_lineOfBus b,
    decode_uop_mm 0b00 c a b n, decode_uop_mm 0b01 c a b n, decode_uop_mm 0b10 c a b n, decode_uop_mm 0b11 c a b n,
    decode_uop_l2 0b00 c a b n, decode_uop_l2 0b01 c a b n, decode_uop_l2 0b10 c a b n, decode_uop_l2 0b11 c a b n,
    decode_uop_l1 0b00 c a b n, decode_uop_l1 0b01 c a b n, decode_uop_l1 0b10 c a b n, decode_uop_l1 0b11 c a b n,
    decode_uop_controller 0b00 c a b n, decode_uop_controller 0b01 c a b n, decode_uop_controller 0b10 c a b n,
    decode_uop_controller 0b11 c a b n⟩

/-- Settles O4: each written-out header is the concatenation of its fields. -/
theorem sampleWordsDecode : Obligations.SampleWordsDecode :=
  ⟨decode_xreq_memAccess 0b10 0x24 0xBBBB 0, decode_xreq_memAccess 0b01 0x24 0 0, decode_xreq_clockTick 0 0 0 0,
    decode_xreq_init 0 0 0 64, decode_uop_controller 0b00 0 0x24 0 0, rfl⟩

/-! ### Decoding undoes encoding -/

/-- R85, R90: the control comes back from its two bits, the word from word 0 of the bus. -/
theorem decode_encode_l1Access (c : Control) (a : Addr) (w : Word) :
    decode (encode (.l1Access c a w)) = .ok (.l1Access c a w) :=
  calc decode (encode (.l1Access c a w))
      = .ok (.l1Access (controlOfBits (bitsOfControl c)) a (wordOfBus (busOfWord w))) :=
        decode_uop_l1 0b00 (bitsOfControl c) a (busOfWord w) 0
    _ = .ok (.l1Access c a w) := by rw [controlOfBits_bitsOfControl, wordOfBus_busOfWord]

/-- R90: the line comes back from the bus. -/
theorem decode_encode_l1InsertLine (a : Addr) (l : Line) :
    decode (encode (.l1InsertLine a l)) = .ok (.l1InsertLine a l) :=
  calc decode (encode (.l1InsertLine a l))
      = .ok (.l1InsertLine a (lineOfBus (busOfLine l))) := decode_uop_l1 0b01 0b00 a (busOfLine l) 0
    _ = .ok (.l1InsertLine a l) := by rw [lineOfBus_busOfLine]

theorem decode_encode_l2Access (c : Control) (a : Addr) (l : Line) :
    decode (encode (.l2Access c a l)) = .ok (.l2Access c a l) :=
  calc decode (encode (.l2Access c a l))
      = .ok (.l2Access (controlOfBits (bitsOfControl c)) a (lineOfBus (busOfLine l))) :=
        decode_uop_l2 0b00 (bitsOfControl c) a (busOfLine l) 0
    _ = .ok (.l2Access c a l) := by rw [controlOfBits_bitsOfControl, lineOfBus_busOfLine]

theorem decode_encode_l2InsertLine (a : Addr) (l : Line) :
    decode (encode (.l2InsertLine a l)) = .ok (.l2InsertLine a l) :=
  calc decode (encode (.l2InsertLine a l))
      = .ok (.l2InsertLine a (lineOfBus (busOfLine l))) := decode_uop_l2 0b01 0b00 a (busOfLine l) 0
    _ = .ok (.l2InsertLine a l) := by rw [lineOfBus_busOfLine]

theorem decode_encode_mmAccess (c : Control) (a : Addr) (l : Line) :
    decode (encode (.mmAccess c a l)) = .ok (.mmAccess c a l) :=
  calc decode (encode (.mmAccess c a l))
      = .ok (.mmAccess (controlOfBits (bitsOfControl c)) a (lineOfBus (busOfLine l))) :=
        decode_uop_mm 0b00 (bitsOfControl c) a (busOfLine l) 0
    _ = .ok (.mmAccess c a l) := by rw [controlOfBits_bitsOfControl, lineOfBus_busOfLine]

theorem decode_encode_addrL1Evict (t : BitVec 18) (i : BitVec 9) :
    decode (encode (.addrL1Evict t i)) = .ok (.addrL1Evict t i) := by
  simp only [encode, decode, extract_append_high, extract_append_low]

theorem decode_encode_addrL2Evict (t : BitVec 12) (i : BitVec 15) :
    decode (encode (.addrL2Evict t i)) = .ok (.addrL2Evict t i) := by
  simp only [encode, decode, extract_append_high, extract_append_low]

/-- R150: the four ways come back, way 0 first. -/
theorem decode_encode_nruSelect (set : Vector WayBits 4) :
    decode (encode (.nruSelect set)) = .ok (.nruSelect set) := by
  obtain ⟨h0, h1, h2, h3⟩ := wayBitsOf_bitsOfWay set[3] set[2] set[1] set[0]
  have hset : #v[set[0], set[1], set[2], set[3]] = set := by
    ext i hi
    interval_cases i <;> rfl
  simp only [encode, decode, h0, h1, h2, h3, hset]

/-- Settles O1: per operation, its code and what becomes of its operands on the buses. -/
theorem decodeOfEncode : Obligations.DecodeOfEncode := by
  intro i
  cases i with
  | memTouch a => exact decode_xreq_memAccess 0b00 a 0 0
  | memRead a => exact decode_xreq_memAccess 0b01 a 0 0
  | memWrite a w => exact decode_xreq_memAccess 0b10 a w 0
  | memRdwr a w => exact decode_xreq_memAccess 0b11 a w 0
  | clockTick => exact decode_xreq_clockTick 0 0 0 0
  | init size => exact decode_xreq_init 0 0 0 size
  | l2missR a => exact decode_uop_controller 0b00 0 a 0 0
  | l2missW a => exact decode_uop_controller 0b01 0 a 0 0
  | l1Access c a w => exact decode_encode_l1Access c a w
  | l1InsertLine a l => exact decode_encode_l1InsertLine a l
  | l1Init => exact decode_uop_l1 0b10 0 0 0 0
  | l1ClearRef => exact decode_uop_l1 0b11 0 0 0 0
  | l2Access c a l => exact decode_encode_l2Access c a l
  | l2InsertLine a l => exact decode_encode_l2InsertLine a l
  | l2Init => exact decode_uop_l2 0b10 0 0 0 0
  | mmAccess c a l => exact decode_encode_mmAccess c a l
  | mmInit size => exact decode_uop_mm 0b01 0 0 0 size
  | addrL1 a => rfl
  | addrL2 a => rfl
  | addrLine a => rfl
  | addrWordidx a => rfl
  | addrL1Evict t i => exact decode_encode_addrL1Evict t i
  | addrL2Evict t i => exact decode_encode_addrL2Evict t i
  | nruSelect set => exact decode_encode_nruSelect set

/-- A table word gives an operation exactly when it stands for a request that spells it. -/
theorem decodeTableWord_eq_some {nbits w : Nat} {i : Instr} :
    decodeTableWord nbits w = some i ↔ ∃ r, tableRequest nbits w = some r ∧ decode r = .ok i := by
  unfold decodeTableWord
  cases tableRequest nbits w with
  | none => simp
  | some r => cases hr : decode r <;> simp [hr]

end Sys2Proof

namespace Sys2Proof.Machine

/-! ### What the next step does with a request -/

/-- Log 20: a word that stands for a request presents it. -/
theorem State.withFetchWord_of_tableRequest {nbits w : Nat} {r : Request} (h : tableRequest nbits w = some r)
    (s : State) : s.withFetchWord nbits w = present r s := by
  rw [State.withFetchWord, h, Option.getD_some]

/-- Settles O6: the word's request is presented first, and taking it off again leaves the state. -/
theorem fetchedTableWordRuns : Obligations.FetchedTableWordRuns := by
  intro s nbits w i h
  obtain ⟨r, hr, hi⟩ := decodeTableWord_eq_some.1 h
  rw [State.withFetchWord_of_tableRequest hr]
  exact step_of_decode (present_requests r s) hi

/-- Settles O7: neither header spells an operation, whatever its other fields are. -/
theorem reservedRequestsRefused : Obligations.ReservedRequestsRefused :=
  fun _ _ c a w bus size => ⟨fun hs => step_of_reserved hs (decode_xreq_reserved c a w size),
    fun _ _ hcode hs => step_of_reserved hs (decode_uop_reserved hcode c a bus size)⟩

/-! ### The fields of the two caches (R84) -/

/-- R84: `set = index[8:0]`. -/
theorem addrL1_setIndex_eq (a : Addr) : (addrL1 a).setIndex = (addrL2 a).index.extractLsb' 0 9 := by
  rw [← BitVec.toNat_inj, addrL1_setIndex_toNat, BitVec.extractLsb'_toNat, addrL2_index_toNat]
  omega

/-- R84: `L1.tag = L2.tag || index[14:9]`. -/
theorem addrL1_tag_eq (a : Addr) : (addrL1 a).tag = (addrL2 a).tag ++ (addrL2 a).index.extractLsb' 9 6 := by
  have hlt := ((addrL2 a).index.extractLsb' 9 6).isLt
  rw [← BitVec.toNat_inj, addrL1_tag_toNat, BitVec.toNat_append, Nat.shiftLeft_eq, Nat.mul_comm,
    ← Nat.two_pow_add_eq_or_of_lt hlt, addrL2_tag_toNat, BitVec.extractLsb'_toNat, addrL2_index_toNat,
    Nat.shiftRight_eq_div_pow]
  omega

/-- Settles O14: the two equations of R84; what it says of two addresses follows by rewriting with the first. -/
theorem cacheFieldsNest : Obligations.CacheFieldsNest := by
  intro a b
  refine ⟨addrL1_setIndex_eq a, addrL1_tag_eq a, fun h => ?_, fun h => ?_⟩
  · rw [addrL1_setIndex_eq, addrL1_setIndex_eq, h]
  · rwa [addrL1_setIndex_eq, addrL1_setIndex_eq] at h

end Sys2Proof.Machine

/-! PROOFS. The statements of spec/40_address_decomposer.md: what each function of the address decomposer answers (O8 to
O13), and that a tag and a position name exactly one line at either level (O15). -/

namespace Sys2Proof.Machine

/-! ### The functions that take an address apart (R110 to R113) -/

/-- R97: leaving a value in `result` is the whole effect of a combinational function. -/
theorem OnlyResult.withResult (s : State) (r : Result) : OnlyResult s (s.withResult r) where
  l1 := s.withResult_l1 r
  l2 := s.withResult_l2 r
  mm := s.withResult_mm r
  memSize := s.withResult_memSize r
  l1MissCount := s.withResult_l1MissCount r
  l2MissCount := s.withResult_l2MissCount r
  phase := s.withResult_phase r
  fault := s.withResult_fault r
  requests := s.withResult_requests r
  scratchDraws := s.withResult_scratchDraws r

/-- Settles O8: the three fields as arithmetic on the address (R110). -/
theorem addrL1Fields : Obligations.AddrL1Fields :=
  fun a s => ⟨_, rfl, .withResult s _, rfl, addrL1_tag_toNat a, addrL1_setIndex_toNat a, addrL1_wordOffset_toNat a⟩

/-- Settles O9: the two fields as arithmetic on the address (R111). -/
theorem addrL2Fields : Obligations.AddrL2Fields :=
  fun a s => ⟨_, rfl, .withResult s _, rfl, addrL2_tag_toNat a, addrL2_index_toNat a⟩

/-- Settles O10: the mask of R112 rounds down to a multiple of 32. -/
theorem addrLineClearsLowBits : Obligations.AddrLineClearsLowBits :=
  fun a s => ⟨_, rfl, .withResult s _, rfl, addrLine_toNat a⟩

/-- R8, R113: a word index has 30 bits. -/
theorem addrWordIdx_lt (a : Addr) : addrWordIdx a < 2 ^ 30 := by
  have ha := a.isLt
  rw [addrWordIdx_eq]
  omega

/-- R113: a line starts at a multiple of eight words. -/
theorem addrWordIdx_mod_eight (a : Addr) : addrWordIdx a % 8 = 0 := by
  rw [addrWordIdx_eq, Nat.mul_mod_left]

/-- Settles O11: the word index is eight times the line number, which has 27 bits. -/
theorem addrWordidxOfLine : Obligations.AddrWordidxOfLine :=
  fun a s => ⟨_, rfl, .withResult s _, rfl, addrWordIdx_eq a, addrWordIdx_lt a, addrWordIdx_mod_eight a⟩

/-! ### The functions that rebuild a line address (R114, R115) -/

/-- R110: the L1 fields of an address, given one by one. -/
theorem L1Fields.eq_mk {f : L1Fields} {tag : BitVec 18} {set : BitVec 9} {offset : BitVec 3} (htag : f.tag = tag)
    (hset : f.setIndex = set) (hoffset : f.wordOffset = offset) :
    f = { tag := tag, setIndex := set, wordOffset := offset } := by
  subst htag hset hoffset
  rfl

/-- R111: the L2 fields of an address, given one by one. -/
theorem L2Fields.eq_mk {f : L2Fields} {tag : BitVec 12} {index : BitVec 15} (htag : f.tag = tag)
    (hindex : f.index = index) : f = { tag := tag, index := index } := by
  subst htag hindex
  rfl

/-- R114: decomposing a rebuilt L1 address gives tag and set back; its word offset is that of the line's first word. -/
theorem addrL1_addrL1Evict (tag : BitVec 18) (set : BitVec 9) :
    addrL1 (addrL1Evict tag set) = { tag := tag, setIndex := set, wordOffset := 0 } := by
  obtain ⟨htag, hset⟩ := (addrL1Evict_sameLine_iff tag set _).1 rfl
  have hoffset : (addrL1 (addrL1Evict tag set)).wordOffset = 0#3 := by
    apply BitVec.eq_of_toNat_eq
    rw [addrL1_wordOffset_toNat, addrL1Evict_toNat, BitVec.toNat_zero]
    omega
  exact L1Fields.eq_mk htag.symm hset.symm hoffset

/-- R115: decomposing a rebuilt L2 address gives tag and index back. -/
theorem addrL2_addrL2Evict (tag : BitVec 12) (index : BitVec 15) :
    addrL2 (addrL2Evict tag index) = { tag := tag, index := index } := by
  obtain ⟨htag, hindex⟩ := (addrL2Evict_sameLine_iff tag index _).1 rfl
  exact L2Fields.eq_mk htag.symm hindex.symm

/-- R114: rebuilding from the L1 fields of an address gives its line address. -/
theorem addrL1Evict_addrL1 (a : Addr) : addrL1Evict (addrL1 a).tag (addrL1 a).setIndex = addrLine a := by
  apply BitVec.eq_of_toNat_eq
  rw [addrL1Evict_toNat, addrL1_tag_toNat, addrL1_setIndex_toNat, addrLine_toNat]
  omega

/-- R115: rebuilding from the L2 fields of an address gives its line address. -/
theorem addrL2Evict_addrL2 (a : Addr) : addrL2Evict (addrL2 a).tag (addrL2 a).index = addrLine a := by
  apply BitVec.eq_of_toNat_eq
  rw [addrL2Evict_toNat, addrL2_tag_toNat, addrL2_index_toNat, addrLine_toNat]
  omega

/-- Settles O12: the value of ADDR.L1_EVICT, and that it and ADDR.L1 undo each other up to the offset in the line. -/
theorem addrL1EvictRebuildsLine : Obligations.AddrL1EvictRebuildsLine :=
  fun tag set a s => ⟨⟨_, rfl, .withResult s _, rfl⟩, addrL1Evict_toNat tag set, addrL1_addrL1Evict tag set,
    addrL1Evict_addrL1 a⟩

/-- Settles O13: the value of ADDR.L2_EVICT, and that it and ADDR.L2 undo each other up to the offset in the line. -/
theorem addrL2EvictRebuildsLine : Obligations.AddrL2EvictRebuildsLine :=
  fun tag index a s => ⟨⟨_, rfl, .withResult s _, rfl⟩, addrL2Evict_toNat tag index, addrL2_addrL2Evict tag index,
    addrL2Evict_addrL2 a⟩

/-! ### Tag and position name one line (R116) -/

/-- Settles O15: equal tag and position mean equal line numbers; the rebuilt address has the tag and position given. -/
theorem tagAndPositionNameOneLine : Obligations.TagAndPositionNameOneLine := by
  refine ⟨fun a b => ?_, fun a b => ?_, fun tag set => ?_, fun tag index => ?_⟩
  · rw [addrL1_same_iff, sameLine, addrLine_eq_iff]
  · rw [addrL2_same_iff, sameLine, addrLine_eq_iff]
  · exact ⟨addrL1Evict tag set, by simp only [addrL1_addrL1Evict, and_self]⟩
  · exact ⟨addrL2Evict tag index, by simp only [addrL2_addrL2Evict, and_self]⟩

end Sys2Proof.Machine

/-! PROOFS. The statements of spec/41_main_memory.md: what MM.ACCESS (O18) and MM.INIT (O19) do, and that the bounds
check answers for a whole line (O20). -/

namespace Sys2Proof.Machine

/-! ### The frames of Main Memory's operations -/

/-- R197: fault entry sets the record, the phase and the outputs, and nothing else. -/
theorem raise_faulted (f : FaultRecord) (s : State) : Faulted f s (raise f s) where
  fault := raise_fault f s
  phase := raise_phase f s
  result := raise_result f s
  l1 := raise_l1 f s
  l2 := raise_l2 f s
  mm := raise_mm f s
  memSize := raise_memSize f s
  l1MissCount := raise_l1MissCount f s
  l2MissCount := raise_l2MissCount f s
  requests := raise_requests f s
  scratchDraws := raise_scratchDraws f s

/-- `s` with another Main Memory. -/
def State.putMainMemory (s : State) (memSize : Nat) (mm : Memory) : State := { s with memSize := memSize, mm := mm }

/-- R120: Main Memory and the outputs are all that such a state has of its own. -/
theorem OnlyMainMemory.putMainMemory (s : State) (memSize : Nat) (mm : Memory) (r : Result) :
    OnlyMainMemory s ((s.putMainMemory memSize mm).withResult r) where
  l1 := rfl
  l2 := rfl
  l1MissCount := rfl
  l2MissCount := rfl
  phase := rfl
  fault := rfl
  requests := rfl
  scratchDraws := rfl

/-! ### MM.ACCESS (R122) -/

/-- The words of Main Memory once MM.ACCESS has written the line of `a`, if write-enabled. -/
def mmStored (c : Control) (a : Addr) (d : Line) (mm : Memory) : Memory :=
  if c.write then mmPutLine mm (addrWordIdx a) d else mm

/-- Write-enabled, the words of the line are those of the data. -/
theorem mmWord_mmStored_in {c : Control} (hw : c.write = true) (a : Addr) (d : Line) (mm : Memory) (k : BitVec 3) :
    mmWord (mmStored c a d mm) (addrWordIdx a + k.toNat) = lineWord d k := by
  rw [mmStored, if_pos hw, mmWord_mmPutLine_in]

/-- Not write-enabled, or outside the line, a word stays. -/
theorem mmWord_mmStored_out {c : Control} {a : Addr} {j : Nat}
    (h : c.write = false ∨ j < addrWordIdx a ∨ addrWordIdx a + 8 ≤ j) (d : Line) (mm : Memory) :
    mmWord (mmStored c a d mm) j = mmWord mm j := by
  cases hw : c.write with
  | false => simp only [mmStored, hw, Bool.false_eq_true, if_false]
  | true =>
    have hj : j < addrWordIdx a ∨ addrWordIdx a + 8 ≤ j := h.resolve_left (by simp [hw])
    rw [mmStored, if_pos hw, mmWord_mmPutLine_out _ _ _ _ hj]

theorem mmAccess_outOfRange (c : Control) {a : Addr} (d : Line) {size : Nat} (mm : Memory) (h : size ≤ a.toNat) :
    mmAccess c a d size mm = .error (outOfRange a) :=
  if_pos h

theorem mmAccess_inRange (c : Control) {a : Addr} (d : Line) {size : Nat} (mm : Memory) (h : a.toNat < size) :
    mmAccess c a d size mm =
      .ok (if c.read then some (mmLine mm (addrWordIdx a)) else none, mmStored c a d mm) :=
  if_neg (not_le.2 h)

theorem exec_mmAccess_outOfRange (c : Control) {a : Addr} (d : Line) {s : State}
    (hphase : acceptsInternal s.phase = true) (h : s.memSize ≤ a.toNat) :
    exec (.mmAccess c a d) s = .next (raise (outOfRange a) s) := by
  rw [exec, execMmAccess, whenInitialised_of_accepts hphase, mmAccess_outOfRange c d s.mm h]

theorem exec_mmAccess_inRange (c : Control) {a : Addr} (d : Line) {s : State}
    (hphase : acceptsInternal s.phase = true) (h : a.toNat < s.memSize) :
    exec (.mmAccess c a d) s =
      .next ((s.putMainMemory s.memSize (mmStored c a d s.mm)).withResult
        (.mmAccess (if c.read then some (mmLine s.mm (addrWordIdx a)) else none))) := by
  rw [exec, execMmAccess, whenInitialised_of_accepts hphase, mmAccess_inRange c d s.mm h, State.putMainMemory]

/-- Settles O18: the bound decides between fault entry and the move; the line read is that of the state before. -/
theorem mmAccessMovesOneLine : Obligations.MmAccessMovesOneLine := by
  intro c a d s hphase
  refine ⟨fun hout => ?_, fun hin => ?_⟩
  · exact ⟨_, exec_mmAccess_outOfRange c d hphase hout, raise_faulted _ s⟩
  · exact ⟨_, mmLine s.mm (addrWordIdx a), exec_mmAccess_inRange c d hphase hin, .putMainMemory s _ _ _, rfl,
      lineWord_mmLine s.mm (addrWordIdx a), rfl, rfl, fun hw => mmWord_mmStored_in hw a d s.mm,
      fun _ hj => mmWord_mmStored_out hj d s.mm⟩

/-! ### MM.INIT (R121) -/

theorem mmInit_of_not_sizeAligned {size : Nat} (h : size % 32 ≠ 0) : mmInit size = .error (configError size) :=
  if_pos h

theorem mmInit_of_sizeAligned {size : Nat} (h : size % 32 = 0) : mmInit size = .ok (size, []) :=
  if_neg (not_not.2 h)

theorem exec_mmInit_of_not_sizeAligned {size : Nat} {s : State} (hphase : acceptsInternal s.phase = true)
    (h : size % 32 ≠ 0) : exec (.mmInit size) s = .next (raise (configError size) s) := by
  rw [exec, execMmInit, whenInitialised_of_accepts hphase, mmInit_of_not_sizeAligned h]

theorem exec_mmInit_of_sizeAligned {size : Nat} {s : State} (hphase : acceptsInternal s.phase = true)
    (h : size % 32 = 0) : exec (.mmInit size) s = .next ((s.putMainMemory size []).withResult .absent) := by
  rw [exec, execMmInit, whenInitialised_of_accepts hphase, mmInit_of_sizeAligned h, State.putMainMemory]

/-- Settles O19: the size decides between fault entry and a memory with no word written. -/
theorem mmInitZeroesMemory : Obligations.MmInitZeroesMemory := by
  intro size s hphase
  refine ⟨fun hbad => ?_, fun hgood => ?_⟩
  · exact ⟨_, exec_mmInit_of_not_sizeAligned hphase hbad, raise_faulted _ s⟩
  · exact ⟨_, exec_mmInit_of_sizeAligned hphase hgood, .putMainMemory s _ _ _, rfl, rfl, mmWord_nil⟩

/-! ### The bounds check and the line (R123) -/

/-- Settles O20: line and word index as arithmetic on the address, and a size of whole lines. -/
theorem wholeLineInRange : Obligations.WholeLineInRange := by
  intro size a hsize
  rw [addrLine_toNat, addrWordIdx_eq]
  omega

end Sys2Proof.Machine

/-! PROOFS. The statements of spec/42_l2_cache.md: what L2.ACCESS (O21), L2.INSERT_LINE (O22) and L2.INIT (O23) do, and
what an access finds once a line is inserted (O24, O25). -/

namespace Sys2Proof.Machine

/-! ### The frame of L2's operations (R130) -/

/-- `s` with another L2 array. -/
def State.withL2 (s : State) (l2 : L2Array) : State := { s with l2 := l2 }

@[simp] theorem State.withL2_l2 (s : State) (l2 : L2Array) : (s.withL2 l2).l2 = l2 := rfl

/-- R130: the L2 array and the outputs are all that such a state has of its own. -/
theorem OnlyL2.withL2 (s : State) (l2 : L2Array) (r : Result) : OnlyL2 s ((s.withL2 l2).withResult r) where
  l1 := rfl
  mm := rfl
  memSize := rfl
  l1MissCount := rfl
  l2MissCount := rfl
  phase := rfl
  fault := rfl
  requests := rfl
  scratchDraws := rfl

theorem exec_l2Access (c : Control) (a : Addr) (d : Line) {s : State} (hphase : acceptsInternal s.phase = true) :
    exec (.l2Access c a d) s =
      .next ((s.withL2 (l2Access c a d s.l2).array).withResult
        (.l2Access (l2Access c a d s.l2).hit (l2Access c a d s.l2).readData)) :=
  whenInitialised_of_accepts hphase

theorem exec_l2InsertLine (a : Addr) (d : Line) {s : State} (hphase : acceptsInternal s.phase = true) :
    exec (.l2InsertLine a d) s =
      .next ((s.withL2 (l2InsertLine a d s.l2).array).withResult (.insertLine (l2InsertLine a d s.l2).evicted)) :=
  whenInitialised_of_accepts hphase

theorem exec_l2Init {s : State} (hphase : acceptsInternal s.phase = true) :
    exec .l2Init s = .next ((s.withL2 (l2Init s.l2)).withResult .absent) :=
  whenInitialised_of_accepts hphase

/-! ### L2.ACCESS (R132) -/

theorem l2Access_of_lookup_none {a : Addr} {l2 : L2Array} (h : l2Lookup a l2 = none) (c : Control) (d : Line) :
    l2Access c a d l2 = { hit := false, readData := none, array := l2 } := by
  rw [l2Access, h]

theorem l2Access_of_lookup_some {a : Addr} {l2 : L2Array} {e : L2Entry} (h : l2Lookup a l2 = some e) (c : Control)
    (d : Line) :
    l2Access c a d l2 =
      { hit := true
        readData := if c.read then some e.line else none
        array := if c.write then l2Put l2 (addrL2 a).index (l2Written d e) else l2 } := by
  rw [l2Access, h]

/-- The entry that hits, after the access, field by field. -/
theorem l2At_l2Access_index {a : Addr} {l2 : L2Array} {e : L2Entry} (h : l2Lookup a l2 = some e) (c : Control)
    (d : Line) :
    l2At (l2Access c a d l2).array (addrL2 a).index =
      { valid := true
        dirty := c.write || e.dirty
        tag := (addrL2 a).tag
        line := if c.write then d else e.line } := by
  obtain ⟨he, hv, ht⟩ := l2Lookup_eq_some.1 h
  have hentry : e = { valid := true, dirty := e.dirty, tag := e.tag, line := e.line } := by rw [← hv]
  rw [l2Access_of_lookup_some h, ← ht]
  cases c.write with
  | false => exact he.symm.trans hentry
  | true => exact ((l2At_l2Put ..).trans (if_pos rfl)).trans (congrArg (l2Written d) hentry)

/-- Hit or miss, the other entries stay. -/
theorem l2At_l2Access_other (c : Control) {a : Addr} {i : BitVec 15} (hi : i ≠ (addrL2 a).index) (d : Line)
    (l2 : L2Array) : l2At (l2Access c a d l2).array i = l2At l2 i := by
  cases h : l2Lookup a l2 with
  | none => rw [l2Access_of_lookup_none h]
  | some e =>
    rw [l2Access_of_lookup_some h]
    cases c.write with
    | false => rfl
    | true => exact (l2At_l2Put ..).trans (if_neg hi)

/-- Settles O21: the lookup misses or finds the entry at the index, and decides what the access does. -/
theorem l2AccessHitOrMiss : Obligations.L2AccessHitOrMiss := by
  intro c a d s hphase
  refine ⟨_, exec_l2Access c a d hphase, .withL2 s _ _, fun hmiss => ?_, fun hv ht => ?_⟩
  · have hl : l2Lookup a s.l2 = none :=
      l2Lookup_eq_none.2 fun hv => hmiss.resolve_left (by simp [hv])
    rw [l2Access_of_lookup_none hl]
    exact ⟨rfl, rfl, rfl⟩
  · have hl : l2Lookup a s.l2 = some (l2At s.l2 (addrL2 a).index) := l2Lookup_eq_some.2 ⟨rfl, hv, ht⟩
    have hr := l2Access_of_lookup_some hl c d
    exact ⟨by rw [hr]; rfl, by rw [hr]; rfl, l2At_l2Access_index hl c d,
      fun _ hi => l2At_l2Access_other c hi d s.l2⟩

/-! ### L2.INSERT_LINE (R134) -/

@[simp] theorem l2At_l2InsertLine (a : Addr) (d : Line) (l2 : L2Array) (i : BitVec 15) :
    l2At (l2InsertLine a d l2).array i = if i = (addrL2 a).index then l2Filled (addrL2 a).tag d else l2At l2 i :=
  l2At_l2Put l2 (addrL2 a).index i (l2Filled (addrL2 a).tag d)

theorem l2InsertLine_evicted_of_dirty {a : Addr} {l2 : L2Array} (d : Line)
    (hv : (l2At l2 (addrL2 a).index).valid = true) (hd : (l2At l2 (addrL2 a).index).dirty = true) :
    (l2InsertLine a d l2).evicted = some
      { address := addrL2Evict (l2At l2 (addrL2 a).index).tag (addrL2 a).index
        data := (l2At l2 (addrL2 a).index).line } :=
  if_pos (by rw [hv, hd, Bool.and_self])

theorem l2InsertLine_evicted_of_not_dirty {a : Addr} {l2 : L2Array} (d : Line)
    (h : (l2At l2 (addrL2 a).index).valid = false ∨ (l2At l2 (addrL2 a).index).dirty = false) :
    (l2InsertLine a d l2).evicted = none :=
  if_neg (by rw [Bool.not_eq_true, Bool.and_eq_false_iff]; exact h)

/-- Settles O22: `valid` and `dirty` of the entry displaced decide what is handed back; the write is unconditional. -/
theorem l2InsertLineDisplacesEntry : Obligations.L2InsertLineDisplacesEntry := by
  intro a d s hphase
  refine ⟨_, exec_l2InsertLine a d hphase, .withL2 s _ _, fun hv hd => ?_, fun hclean => ?_, ?_, fun i hi => ?_⟩
  · rw [l2InsertLine_evicted_of_dirty d hv hd]
    exact ⟨rfl, rfl⟩
  · rw [l2InsertLine_evicted_of_not_dirty d hclean]
    exact ⟨rfl, rfl⟩
  · exact (l2At_l2InsertLine a d s.l2 _).trans (if_pos rfl)
  · exact (l2At_l2InsertLine a d s.l2 i).trans (if_neg hi)

/-! ### L2.INIT (R131) -/

/-- Settles O23: INIT clears each entry, and clearing an entry writes its valid bit. -/
theorem l2InitClearsValidOnly : Obligations.L2InitClearsValidOnly := by
  intro s hphase
  refine ⟨_, exec_l2Init hphase, .withL2 s _ _, rfl, fun i => ?_⟩
  rw [State.withResult_l2, State.withL2_l2, l2At_l2Init]
  exact ⟨rfl, rfl, rfl, rfl⟩

/-! ### An access after an insert (R136, R137) -/

/-- The line inserted is found by every address in it. -/
theorem l2Lookup_l2InsertLine_sameLine {a b : Addr} (h : sameLine a b) (d : Line) (l2 : L2Array) :
    l2Lookup b (l2InsertLine a d l2).array = some (l2Filled (addrL2 a).tag d) := by
  rw [← l2Lookup_congr ((addrLine_eq_iff a b).1 h), l2Lookup_eq_some, l2At_l2InsertLine, if_pos rfl]
  exact ⟨rfl, rfl, rfl⟩

/-- An insert displaces any other line of its index. -/
theorem l2Lookup_l2InsertLine_conflict {a b : Addr} (hindex : (addrL2 a).index = (addrL2 b).index)
    (htag : (addrL2 a).tag ≠ (addrL2 b).tag) (d : Line) (l2 : L2Array) :
    l2Lookup a (l2InsertLine b d l2).array = none := by
  rw [l2Lookup_eq_none, l2At_l2InsertLine, if_pos hindex]
  exact fun _ => htag.symm

/-- Settles O24: the access finds the entry just filled. -/
theorem l2InsertThenReadHits : Obligations.L2InsertThenReadHits := by
  intro a b d x s hphase hline
  refine ⟨_, _, exec_l2InsertLine a d hphase, exec_l2Access .readOnly b x hphase, ?_⟩
  rw [State.withResult_result, State.withResult_l2, State.withL2_l2,
    l2Access_of_lookup_some (l2Lookup_l2InsertLine_sameLine hline d s.l2)]
  rfl

/-- Settles O25: the second insert displaces the line of the first, whatever was there before. -/
theorem l2DirectMapConflict : Obligations.L2DirectMapConflict := by
  intro a b d d' x s hphase hindex htag
  refine ⟨_, _, _, exec_l2InsertLine a d hphase, exec_l2InsertLine b d' hphase, exec_l2Access .readOnly a x hphase, ?_⟩
  rw [State.withResult_result, State.withResult_l2, State.withL2_l2,
    l2Access_of_lookup_none (l2Lookup_l2InsertLine_conflict hindex htag d' _)]

end Sys2Proof.Machine

/-! PROOFS. The statements of spec/43_l1_cache.md: what L1.ACCESS (O26), L1.INSERT_LINE (O27), L1.INIT (O28) and
L1.CLEAR_REF (O29) do, and that an access hits the way just filled (O30). -/

namespace Sys2Proof.Machine

/-! ### The frame of L1's operations (R140) -/

/-- R140: the L1 array and the outputs are all that such a state has of its own. -/
theorem OnlyL1.withL1 (s : State) (l1 : L1Array) (r : Result) : OnlyL1 s ((s.withL1 l1).withResult r) where
  l2 := rfl
  mm := rfl
  memSize := rfl
  l1MissCount := rfl
  l2MissCount := rfl
  phase := rfl
  fault := rfl
  requests := rfl
  scratchDraws := rfl

theorem exec_l1Access (c : Control) (a : Addr) (d : Word) {s : State} (hphase : acceptsInternal s.phase = true) :
    exec (.l1Access c a d) s =
      .next ((s.withL1 (l1Access c a d s.l1).array).withResult
        (.l1Access (l1Access c a d s.l1).hit (l1Access c a d s.l1).readData)) :=
  whenInitialised_of_accepts hphase

theorem exec_l1InsertLine (a : Addr) (d : Line) {s : State} (hphase : acceptsInternal s.phase = true) :
    exec (.l1InsertLine a d) s =
      .next ((s.withL1 (l1InsertLine a d s.l1).array).withResult (.insertLine (l1InsertLine a d s.l1).evicted)) :=
  whenInitialised_of_accepts hphase

theorem exec_l1Init {s : State} (hphase : acceptsInternal s.phase = true) :
    exec .l1Init s = .next ((s.withL1 (l1Init s.l1)).withResult .absent) :=
  whenInitialised_of_accepts hphase

theorem exec_l1ClearRef {s : State} (hphase : acceptsInternal s.phase = true) :
    exec .l1ClearRef s = .next ((s.withL1 (l1ClearRef s.l1)).withResult .absent) :=
  whenInitialised_of_accepts hphase

/-! ### L1.ACCESS (R142) -/

/-- A set may hold a tag twice (R145); the lowest such way hits. -/
theorem hitWay_eq_some_of_first {set : L1Set} {tag : BitVec 18} {w : Fin 4} (hv : (wayAt set w).valid = true)
    (ht : (wayAt set w).tag = tag)
    (hlt : ∀ u : Fin 4, u < w → (wayAt set u).valid = true → (wayAt set u).tag ≠ tag) : hitWay set tag = some w :=
  firstWay_eq_some _ _ (by simp [hv, ht]) (by simpa using hlt)

/-- R26, R142: of the line that hits, the one word addressed is written, with write-enable. -/
theorem lineWord_l1Touched (c : Control) (k : BitVec 3) (d : Word) (e : L1Entry) (j : BitVec 3) :
    lineWord (l1Touched c k d e).line j = if c.write = true ∧ j = k then d else lineWord e.line j := by
  by_cases hw : c.write = true
  · by_cases hj : j = k
    · simp [l1Touched, hw, hj]
    · simp [l1Touched, hw, hj, lineWord_lineSetWord_other e.line d hj]
  · simp [l1Touched, hw]

/-- After a hit: one entry is touched. -/
theorem l1At_l1Access {a : Addr} {l1 : L1Array} {w : Fin 4}
    (h : hitWay (l1SetAt l1 (addrL1 a).setIndex) (addrL1 a).tag = some w) (c : Control) (d : Word) (i : BitVec 9)
    (u : Fin 4) :
    l1At (l1Access c a d l1).array i u =
      if i = (addrL1 a).setIndex ∧ u = w then
        l1Touched c (addrL1 a).wordOffset d (l1At l1 (addrL1 a).setIndex w)
      else l1At l1 i u := by
  rw [l1Access_hit c d h]
  exact l1At_l1PutSet_putWay ..

/-- Settles O26: the scan of the set decides; on a hit its first way is touched. -/
theorem l1AccessFirstMatchingWay : Obligations.L1AccessFirstMatchingWay := by
  intro c a d s hphase
  refine ⟨_, exec_l1Access c a d hphase, .withL1 s _ _, fun hmiss => ?_, fun w hv ht hfirst => ?_⟩
  · have hm : missesL1 s a := (hitWay_none _ _).2 hmiss
    rw [l1Access_miss c d hm]
    exact ⟨rfl, rfl, rfl⟩
  · have hh : hitsL1 s a w := hitWay_eq_some_of_first hv ht hfirst
    have hr := l1Access_hit c d hh
    refine ⟨by rw [hr]; rfl, by rw [hr]; rfl, ?_⟩
    rw [State.withResult_l1, State.withL1_l1, l1At_l1Access hh, if_pos ⟨rfl, rfl⟩]
    exact ⟨hv, ht, rfl, rfl, lineWord_l1Touched _ _ _ _, fun i u hne => (l1At_l1Access hh c d i u).trans (if_neg hne)⟩

/-! ### L1.INSERT_LINE (R144) -/

theorem l1InsertLine_evicted_of_dirtyVictim {a : Addr} {s : State} (d : Line) (h : dirtyVictim s a) :
    (l1InsertLine a d s.l1).evicted = some { address := victimAddress s a, data := (victim s a).line } :=
  if_pos (Bool.and_eq_true_iff.2 h)

theorem l1InsertLine_evicted_of_not_dirty {a : Addr} {s : State} (d : Line)
    (h : (victim s a).valid = false ∨ (victim s a).dirty = false) : (l1InsertLine a d s.l1).evicted = none :=
  if_neg (by rw [Bool.not_eq_true, Bool.and_eq_false_iff]; exact h)

/-- Settles O27: `valid` and `dirty` of the victim decide what is handed back; the fill is unconditional. -/
theorem l1InsertLineFillsNruWay : Obligations.L1InsertLineFillsNruWay := by
  intro a d s hphase
  refine ⟨_, fillWay s a, exec_l1InsertLine a d hphase, .withL1 s _ _, rfl, fun hv hd => ?_, fun hclean => ?_, ?_,
    fun i u hne => ?_⟩
  · rw [l1InsertLine_evicted_of_dirtyVictim d ⟨hv, hd⟩]
    exact ⟨rfl, rfl⟩
  · rw [l1InsertLine_evicted_of_not_dirty d hclean]
    exact ⟨rfl, rfl⟩
  · exact (l1InsertLine_at a d s _ _).trans (if_pos ⟨rfl, rfl⟩)
  · exact (l1InsertLine_at a d s i u).trans (if_neg hne)

/-! ### L1.INIT and L1.CLEAR_REF (R141, R146) -/

/-- Settles O28: INIT clears each entry, and clearing an entry leaves its line. -/
theorem l1InitClearsStateWords : Obligations.L1InitClearsStateWords :=
  fun s hphase => ⟨_, exec_l1Init hphase, .withL1 s _ _, rfl, l1At_l1Init s.l1⟩

/-- Settles O29: CLEAR_REF ages each entry, and an aged entry ages no further. -/
theorem l1ClearRefAgesEveryWay : Obligations.L1ClearRefAgesEveryWay := by
  intro s hphase
  refine ⟨_, exec_l1ClearRef hphase, .withL1 s _ _, rfl, l1At_l1ClearRef s.l1, _, exec_l1ClearRef hphase, fun i w => ?_⟩
  simp only [State.withResult_l1, State.withL1_l1, l1At_l1ClearRef, l1Aged]

/-! ### An access after a fill (R147) -/

/-- The line filled in is found by every address in it. -/
theorem hitWay_l1InsertLine_sameLine {a b : Addr} (hline : sameLine a b) {s : State} (hm : missesL1 s a) (d : Line) :
    hitWay (l1SetAt (l1InsertLine a d s.l1).array (addrL1 b).setIndex) (addrL1 b).tag = some (fillWay s a) := by
  obtain ⟨htag, hset⟩ := (addrL1_same_iff a b).2 ((addrLine_eq_iff a b).1 hline)
  rw [← htag, ← hset, l1InsertLine, l1SetAt_l1PutSet, if_pos rfl]
  exact hitWay_putWay_filled hm _ d

/-- Settles O30: the access hits the way just filled, which holds the line given. -/
theorem l1InsertThenAccessHits : Obligations.L1InsertThenAccessHits := by
  intro a b d c x s hphase hline hmiss
  have hset := ((addrL1_same_iff a b).2 ((addrLine_eq_iff a b).1 hline)).2
  have hh := hitWay_l1InsertLine_sameLine hline ((hitWay_none _ _).2 hmiss) d
  have hentry : l1At (l1InsertLine a d s.l1).array (addrL1 b).setIndex (fillWay s a) = l1Filled (addrL1 a).tag d :=
    (l1InsertLine_at a d s _ _).trans (if_pos ⟨hset.symm, rfl⟩)
  refine ⟨_, _, exec_l1InsertLine a d hphase, exec_l1Access c b x hphase, ?_, ?_⟩
  · rw [State.withResult_result, State.withResult_l1, State.withL1_l1, l1Access_hit c x hh, hentry]
    rfl
  · rw [State.withResult_l1, State.withL1_l1, State.withResult_l1, State.withL1_l1, l1At_l1Access hh,
      if_pos ⟨hset, rfl⟩]
    rfl

end Sys2Proof.Machine

/-! PROOFS. The statements of spec/44_nru_arbiter.md: NRU.SELECT takes the lowest-numbered way of least rank (O17),
and so a way by R150's order of categories (O16). -/

namespace Sys2Proof.Machine

/-! ### The rank of a way (R151) -/

theorem nruRank_eq_zero {b : WayBits} : nruRank b = 0 ↔ b.valid = false := by
  cases hv : b.valid with
  | false => simp [nruRank, hv]
  | true => cases hr : b.reference <;> cases hd : b.dirty <;> simp [nruRank, hv, hr, hd]

theorem one_le_nruRank {b : WayBits} : 1 ≤ nruRank b ↔ b.valid = true := by
  rw [Nat.one_le_iff_ne_zero, Ne, nruRank_eq_zero, Bool.not_eq_false]

/-- Among the valid ways rank 1 is category (0,0). -/
theorem nruRank_eq_one {b : WayBits} (hv : b.valid = true) :
    nruRank b = 1 ↔ b.reference = false ∧ b.dirty = false := by
  cases hr : b.reference <;> cases hd : b.dirty <;> simp [nruRank, hv, hr, hd]

/-- Among the valid ways rank 2 is category (0,1). -/
theorem nruRank_eq_two {b : WayBits} (hv : b.valid = true) :
    nruRank b = 2 ↔ b.reference = false ∧ b.dirty = true := by
  cases hr : b.reference <;> cases hd : b.dirty <;> simp [nruRank, hv, hr, hd]

/-- Among the valid ways rank 3 is category (1,0). -/
theorem nruRank_eq_three {b : WayBits} (hv : b.valid = true) :
    nruRank b = 3 ↔ b.reference = true ∧ b.dirty = false := by
  cases hr : b.reference <;> cases hd : b.dirty <;> simp [nruRank, hv, hr, hd]

theorem nruRank_le_four (b : WayBits) : nruRank b ≤ 4 := by
  cases hv : b.valid <;> cases hr : b.reference <;> cases hd : b.dirty <;> simp [nruRank, hv, hr, hd]

/-! ### Each scan is for one rank (R150, R151) -/

/-- R151: no way has a lower rank than `w`, and every lower-numbered way has a higher one. -/
abbrev FirstOfLeastRank (set : Vector WayBits 4) (w : Fin 4) : Prop :=
  ∀ u : Fin 4, nruRank set[w] ≤ nruRank set[u] ∧ (u < w → nruRank set[w] < nruRank set[u])

/-- Once the ranks below `k` are out, `p` tests for rank `k`. A scan of step 2 does not look at `valid`. -/
abbrev TestsRank (k : Nat) (p : WayBits → Bool) : Prop :=
  ∀ b : WayBits, k ≤ nruRank b → (p b = true ↔ nruRank b = k)

theorem TestsRank.lt_of_false {k : Nat} {p : WayBits → Bool} (hp : TestsRank k p) {b : WayBits} (hge : k ≤ nruRank b)
    (h : p b = false) : k < nruRank b :=
  hge.lt_of_ne' fun e => Bool.false_ne_true (h.symm.trans ((hp b hge).2 e))

section
variable {set : Vector WayBits 4} {k : Nat} {p : WayBits → Bool} (hp : TestsRank k p)
  (hge : ∀ u : Fin 4, k ≤ nruRank set[u])
include hp hge

theorem firstOfLeastRank_of_scan {w : Fin 4} (h : firstWay set p = some w) : FirstOfLeastRank set w := by
  obtain ⟨hw, hfirst⟩ := firstWay_some set p h
  have hrank : nruRank set[w] = k := (hp _ (hge w)).1 hw
  exact fun u => ⟨hrank ▸ hge u, fun hlt => hrank ▸ hp.lt_of_false (hge u) (hfirst u hlt)⟩

theorem lt_nruRank_of_scan_none (h : firstWay set p = none) (u : Fin 4) : k < nruRank set[u] :=
  hp.lt_of_false (hge u) ((firstWay_none set p).1 h u)

end

theorem testsRank_invalid : TestsRank 0 (fun w => !w.valid) := fun b _ => by simp [nruRank_eq_zero]

theorem testsRank_unreferencedClean : TestsRank 1 (fun w => !w.reference && !w.dirty) := fun b hb => by
  simp [nruRank_eq_one (one_le_nruRank.1 hb)]

theorem testsRank_unreferencedDirty : TestsRank 2 (fun w => !w.reference && w.dirty) := fun b hb => by
  simp [nruRank_eq_two (one_le_nruRank.1 (Nat.one_le_of_lt hb))]

theorem testsRank_referencedClean : TestsRank 3 (fun w => w.reference && !w.dirty) := fun b hb => by
  simp [nruRank_eq_three (one_le_nruRank.1 (Nat.one_le_of_lt hb))]

/-- R152: with every way at (1,1) the fallback, way 0, is the first of them. -/
theorem firstOfLeastRank_zero_of_all_four {set : Vector WayBits 4} (h : ∀ u : Fin 4, 4 ≤ nruRank set[u]) :
    FirstOfLeastRank set 0 :=
  fun u => ⟨(nruRank_le_four _).trans (h u), fun hlt => absurd hlt (Fin.not_lt_zero u)⟩

/-- R150, step 2. -/
theorem firstOfLeastRank_nruVictim {set : Vector WayBits 4} (h1 : ∀ u : Fin 4, 1 ≤ nruRank set[u]) :
    FirstOfLeastRank set (nruVictim set) := by
  unfold nruVictim
  split
  · next h => exact firstOfLeastRank_of_scan testsRank_unreferencedClean h1 h
  · next h =>
    have h2 := lt_nruRank_of_scan_none testsRank_unreferencedClean h1 h
    split
    · next h => exact firstOfLeastRank_of_scan testsRank_unreferencedDirty h2 h
    · next h =>
      have h3 := lt_nruRank_of_scan_none testsRank_unreferencedDirty h2 h
      split
      · next h => exact firstOfLeastRank_of_scan testsRank_referencedClean h3 h
      · next h => exact firstOfLeastRank_zero_of_all_four (lt_nruRank_of_scan_none testsRank_referencedClean h3 h)

theorem firstOfLeastRank_nruSelect (set : Vector WayBits 4) : FirstOfLeastRank set (nruSelect set) := by
  have h0 : ∀ u : Fin 4, 0 ≤ nruRank set[u] := fun u => Nat.zero_le _
  unfold nruSelect
  split
  · next h => exact firstOfLeastRank_of_scan testsRank_invalid h0 h
  · next h => exact firstOfLeastRank_nruVictim (lt_nruRank_of_scan_none testsRank_invalid h0 h)

/-- Settles O17: each scan of R150 is for the least rank the scans before it have left. -/
theorem nruSelectIsFirstOfLeastRank : Obligations.NruSelectIsFirstOfLeastRank := firstOfLeastRank_nruSelect

/-! ### The order of categories (R150) -/

/-- The categories one by one: where `k` is the least rank and `u` has it, the selected way has it and comes no
later. -/
theorem nruSelect_of_least {set : Vector WayBits 4} {k : Nat} (hge : ∀ v : Fin 4, k ≤ nruRank set[v]) {u : Fin 4}
    (hu : nruRank set[u] = k) : nruRank set[nruSelect set] = k ∧ nruSelect set ≤ u := by
  obtain ⟨hle, hlt⟩ := firstOfLeastRank_nruSelect set u
  exact ⟨(hle.trans_eq hu).antisymm (hge _), not_lt.1 fun h => (hge _).not_gt (hu ▸ hlt h)⟩

/-- Settles O16: a clause's hypothesis bounds the ranks from below, and its category is the rank at the bound. -/
theorem nruSelectsByPriority : Obligations.NruSelectsByPriority := by
  refine fun set s => ⟨_, nruSelect set, rfl, .withResult s _, rfl, fun u hu => ?_, fun hv => ?_⟩
  · obtain ⟨hk, hle⟩ := nruSelect_of_least (fun v => Nat.zero_le _) (nruRank_eq_zero.2 hu)
    exact ⟨nruRank_eq_zero.1 hk, hle⟩
  have h1 : ∀ v : Fin 4, 1 ≤ nruRank set[v] := fun v => one_le_nruRank.2 (hv v)
  refine ⟨fun u hr hd => ?_, fun h00 => ?_⟩
  · obtain ⟨hk, hle⟩ := nruSelect_of_least h1 ((nruRank_eq_one (hv u)).2 ⟨hr, hd⟩)
    obtain ⟨hwr, hwd⟩ := (nruRank_eq_one (hv _)).1 hk
    exact ⟨hwr, hwd, hle⟩
  have h2 : ∀ v : Fin 4, 2 ≤ nruRank set[v] := fun v => (h1 v).lt_of_ne' (mt (nruRank_eq_one (hv v)).1 (h00 v))
  refine ⟨fun u hr hd => ?_, fun href => ?_⟩
  · obtain ⟨hk, hle⟩ := nruSelect_of_least h2 ((nruRank_eq_two (hv u)).2 ⟨hr, hd⟩)
    obtain ⟨hwr, hwd⟩ := (nruRank_eq_two (hv _)).1 hk
    exact ⟨hwr, hwd, hle⟩
  have h3 : ∀ v : Fin 4, 3 ≤ nruRank set[v] := fun v =>
    (h2 v).lt_of_ne' fun e => Bool.false_ne_true (((nruRank_eq_two (hv v)).1 e).1.symm.trans (href v))
  refine ⟨fun u hd => ?_, fun hdirty => ?_⟩
  · obtain ⟨hk, hle⟩ := nruSelect_of_least h3 ((nruRank_eq_three (hv u)).2 ⟨href u, hd⟩)
    obtain ⟨-, hwd⟩ := (nruRank_eq_three (hv _)).1 hk
    exact ⟨hwd, hle⟩
  have h4 : ∀ v : Fin 4, 4 ≤ nruRank set[v] := fun v =>
    (h3 v).lt_of_ne' fun e => Bool.false_ne_true (((nruRank_eq_three (hv v)).1 e).2.symm.trans (hdirty v))
  obtain ⟨-, hle⟩ := nruSelect_of_least h4 ((nruRank_le_four set[(0 : Fin 4)]).antisymm (h4 0))
  exact Fin.le_zero_iff.1 hle

end Sys2Proof.Machine

/-! PROOFS. The statements of spec/45_controller.md: the L2-miss handler (O31, O32), the four variants of MEM_ACCESS
(O33 to O36), what a miss moves (O37), CLOCK_TICK (O38), the one fault (O47), the miss counters (O49), control (O53) and
the scratch line (O54). -/

namespace Sys2Proof.Machine

/-! ### The L2-miss handler (R166, R167) -/

/-- R166, R167: `s` once `sb` is in L2 for the line of `a` and the entry it displaced is dealt with, after `draws` draws
of a scratch line. -/
def State.filledFromBuffer (s : State) (a : Addr) (sb : Line) (draws : Nat) : State :=
  { s with
    l2 := l2Put s.l2 (addrL2 a).index (l2Filled (addrL2 a).tag sb)
    mm := displaced s.l2 s.mm (addrL2 a).index
    result := .absent
    scratchDraws := draws }

theorem OnlyL2AndWords.filledFromBuffer (s : State) (a : Addr) (sb : Line) (draws : Nat) :
    OnlyL2AndWords s (s.filledFromBuffer a sb draws) :=
  ⟨rfl, rfl, rfl, rfl, rfl, rfl, rfl⟩

theorem l2At_filledFromBuffer (s : State) (a : Addr) (sb : Line) (draws : Nat) (i : BitVec 15) :
    l2At (s.filledFromBuffer a sb draws).l2 i =
      if i = (addrL2 a).index then l2Filled (addrL2 a).tag sb else l2At s.l2 i :=
  l2At_l2Put s.l2 (addrL2 a).index i (l2Filled (addrL2 a).tag sb)

theorem exec_l2missR_outOfRange {a : Addr} {s : State} (hphase : acceptsInternal s.phase = true)
    (ha : s.memSize ≤ a.toNat) : exec (.l2missR a) s = .next (raise (outOfRange a) s) := by
  rw [exec, execL2missR, whenInitialised_of_accepts hphase, l2MissRead_outOfRange (s := s.withResult .absent) ha]
  rfl

section
variable {a : Addr} {s : State} (hphase : acceptsInternal s.phase = true)
  (hd : (l2At s.l2 (addrL2 a).index).valid = true → (l2At s.l2 (addrL2 a).index).dirty = true →
    (addrL2Evict (l2At s.l2 (addrL2 a).index).tag (addrL2 a).index).toNat < s.memSize)
include hphase hd

theorem exec_l2missR_inRange (ha : a.toNat < s.memSize) :
    exec (.l2missR a) s =
      .next (s.filledFromBuffer a (mmLine s.mm (addrWordIdx a)) s.scratchDraws) := by
  rw [exec, execL2missR, whenInitialised_of_accepts hphase, l2MissRead_ok (s := s.withResult .absent) ha hd]
  rfl

theorem exec_l2missW :
    exec (.l2missW a) s =
      .next (s.filledFromBuffer a (Config.params.scratchLine s.scratchDraws) (s.scratchDraws + 1)) := by
  rw [exec, execL2missW, whenInitialised_of_accepts hphase,
    l2MissWrite_ok Config.params (s := s.withResult .absent) hd]
  rfl

end

/-- Settles O31: the bound decides between fault entry and the fill with Main Memory's line. -/
theorem l2MissReadFillsFromMemory : Obligations.L2MissReadFillsFromMemory := by
  intro a s hphase
  refine ⟨fun hout => ⟨_, exec_l2missR_outOfRange hphase hout, raise_faulted _ s⟩, fun hin hd => ?_⟩
  exact ⟨_, _, exec_l2missR_inRange hphase hd hin, .filledFromBuffer s a _ _, rfl, rfl, lineWord_mmLine s.mm _,
    (l2At_filledFromBuffer ..).trans (if_pos rfl), fun _ hi => (l2At_filledFromBuffer ..).trans (if_neg hi),
    mmWord_displaced_in s.mm, fun _ => mmWord_displaced_out s.mm⟩

/-- Settles O32: the fill takes the next scratch line, and no bound is checked. -/
theorem l2MissWriteAllocates : Obligations.L2MissWriteAllocates := by
  intro a s hphase hd
  exact ⟨_, _, exec_l2missW hphase hd, .filledFromBuffer s a _ _, rfl,
    (l2At_filledFromBuffer ..).trans (if_pos rfl), fun _ hi => (l2At_filledFromBuffer ..).trans (if_neg hi),
    mmWord_displaced_in s.mm, fun _ => mmWord_displaced_out s.mm⟩

/-! ### MEM_ACCESS out of range (R198) -/

theorem exec_memInstr_of_idle (c : Control) (a : Addr) (d : Word) {s : State} (hidle : s.phase = .idle) :
    exec (memInstr c a d) s = .next (memAccess Config.params (accessOf c a d) s) := by
  rw [exec_memInstr, whenIdle_of_idle hidle]

/-- R198: the state at the OutOfRange fault, from the fault entry with both misses counted. -/
theorem raise_faultedAccess (a : Addr) (s : State) :
    FaultedAccess a s (raise (outOfRange a)
      { s with l1MissCount := s.l1MissCount + 1, l2MissCount := s.l2MissCount + 1 }) :=
  ⟨rfl, rfl, rfl, rfl, rfl, rfl, rfl, rfl, rfl, rfl, rfl⟩

/-- R192, R198: whatever its control, a MEM_ACCESS out of range ends in the state of R198. -/
theorem exec_memInstr_outOfRange (c : Control) (a : Addr) (d : Word) {s : State} (hidle : s.phase = .idle)
    (h : Coherent s) (ha : s.memSize ≤ a.toNat) :
    ∃ t, exec (memInstr c a d) s = .next t ∧ FaultedAccess a s t := by
  have hq := memAccess_outOfRange Config.params (q := accessOf c a d) h ha
  exact ⟨_, (exec_memInstr_of_idle c a d hidle).trans (congrArg _ hq), raise_faultedAccess a s⟩

/-- Settles O47: a hit and a refill end IDLE with the record as it was; out of range is the third case. -/
theorem onlyFaultIsOutOfRange : Obligations.OnlyFaultIsOutOfRange := by
  intro p q s _ h
  obtain ⟨w, -, hq⟩ | ⟨-, -, hq⟩ | ⟨hout, hq⟩ := memAccess_cases q h <;> rw [hq p]
  · exact .inl ⟨rfl, rfl⟩
  · exact .inl ⟨rfl, refilled_fault p q.address s⟩
  · exact .inr ⟨hout, raise_faultedAccess q.address s⟩

/-! ### MEM_ACCESS in range (R162 to R165) -/

/-- R161, R171: state `r`, reached from `s` at P0 or P9, in which the line of `a` is in way `w` of L1 and the requester
sees what it saw in `s`. It does not depend on what the access then does with the line. -/
structure ReadyToHit (a : Addr) (w : Fin 4) (s r : State) : Prop where
  hits : hitsL1 r a w
  sameView : ∀ b : Addr, view r b = view s b
  fault : r.fault = s.fault
  memSize : r.memSize = s.memSize
  requests : r.requests = s.requests
  dirty : (l1At r.l1 (addrL1 a).setIndex w).dirty = (inL1 s a && (l1At s.l1 (addrL1 a).setIndex w).dirty)
  otherWays : ∀ (i : BitVec 9) (u : Fin 4), ¬ (i = (addrL1 a).setIndex ∧ u = w) → l1At r.l1 i u = l1At s.l1 i u
  hit : inL1 s a = true → r = s
  l1MissCount : r.l1MissCount = s.l1MissCount + (if inL1 s a then 0 else 1)
  l2MissCount : r.l2MissCount = s.l2MissCount + (if inL1 s a || inL2 s a then 0 else 1)

theorem inL1_of_hitsL1 {s : State} {a : Addr} {w : Fin 4} (h : hitsL1 s a w) : inL1 s a = true := by
  rw [inL1, h, Option.isSome_some]

theorem inL1_eq_false_iff {s : State} {a : Addr} : inL1 s a = false ↔ missesL1 s a := by
  simp [inL1]

theorem inL2_eq_false_iff {s : State} {a : Addr} : inL2 s a = false ↔ l2Lookup a s.l2 = none := by
  simp [inL2]

/-- P0: on a hit the state at hand is ready. -/
theorem ReadyToHit.of_hit {s : State} {a : Addr} {w : Fin 4} (h : hitsL1 s a w) : ReadyToHit a w s s where
  hits := h
  sameView _ := rfl
  fault := rfl
  memSize := rfl
  requests := rfl
  dirty := by rw [inL1_of_hitsL1 h, Bool.true_and]
  otherWays _ _ _ := rfl
  hit _ := rfl
  l1MissCount := by rw [inL1_of_hitsL1 h]; rfl
  l2MissCount := by rw [inL1_of_hitsL1 h]; rfl

/-- P9: on a miss the refilled state is, with the filled way. -/
theorem ReadyToHit.of_miss {p : Params} (hp : p.countWritebackL2Miss = false) {s : State} {a : Addr} (h : Coherent s)
    (ha : a.toNat < s.memSize) (hm : missesL1 s a) : ReadyToHit a (fillWay s a) s (refilled p a s) := by
  have hin : inL1 s a = false := inL1_eq_false_iff.2 hm
  exact {
    hits := refilled_hits p hm
    sameView := view_of_viewLine (refilled_viewLine p h ha hm)
    fault := refilled_fault p a s
    memSize := refilled_memSize p a s
    requests := refilled_requests p a s
    dirty := by rw [refilled_l1, l1InsertLine_at, if_pos ⟨rfl, rfl⟩, hin]; rfl
    otherWays := fun i u hne => by rw [refilled_l1, l1InsertLine_at, if_neg hne]
    hit := by simp [hin]
    l1MissCount := by rw [refilled_l1MissCount, hin]; rfl
    l2MissCount := by rw [refilled_l2MissCount hp, hin, Bool.false_or] }

/-- R174, R175: what the access that hits makes of a ready state. -/
theorem ReadyToHit.endedAccess {q : Access} {w : Fin 4} {s r : State} (hr : ReadyToHit q.address w s r) :
    EndedAccess q.address w
      (q.control.write || (inL1 s q.address && (l1At s.l1 (addrL1 q.address).setIndex w).dirty)) s
      (accessed q w r) := by
  obtain ⟨hvalid, htag⟩ := accessed_valid_tag q w r (addrL1 q.address).setIndex w
  obtain ⟨hv, ht⟩ := hitWay_some hr.hits
  have hentry := (accessed_at q w r (addrL1 q.address).setIndex w).trans (if_pos ⟨rfl, rfl⟩)
  exact {
    phase := rfl
    fault := hr.fault
    memSize := hr.memSize
    requests := hr.requests
    valid := hvalid.trans hv
    tag := htag.trans ht
    reference := by rw [hentry]; rfl
    dirty := by rw [hentry, ← hr.dirty]; rfl
    otherWays := fun i u hne => ((accessed_at q w r i u).trans (if_neg hne)).trans (hr.otherWays i u hne)
    hit := fun hin => by
      obtain rfl := hr.hit hin
      exact ⟨hv, ht, rfl, rfl, rfl⟩
    l1MissCount := hr.l1MissCount
    l2MissCount := hr.l2MissCount }

/-- R142: write-enabled, the addressed word of the line is the new one. -/
theorem accessed_storedWord {q : Access} (hw : q.control.write = true) (w : Fin 4) (r : State) :
    lineWord (l1At (accessed q w r).l1 (addrL1 q.address).setIndex w).line (addrL1 q.address).wordOffset =
      q.writeData := by
  rw [accessed_at, if_pos ⟨rfl, rfl⟩, lineWord_l1Touched, if_pos ⟨hw, rfl⟩]

/-- R161: an access in range that misses L1 is a refill and then the access that hits. -/
theorem exec_memInstr_miss (c : Control) {a : Addr} (d : Word) {s : State} (hidle : s.phase = .idle) (h : Coherent s)
    (ha : a.toNat < s.memSize) (hm : missesL1 s a) :
    exec (memInstr c a d) s =
      .next (accessed (accessOf c a d) (fillWay s a) (refilled Config.params a s)) := by
  have hq := memAccess_miss Config.params (q := accessOf c a d) h ha hm
  exact (exec_memInstr_of_idle c a d hidle).trans (congrArg _ hq)

/-- R162 to R165: the four variants, in range, are the access that hits, each from the same ready state. -/
theorem exec_memInstr_ready {a : Addr} {s : State} (hidle : s.phase = .idle) (h : Coherent s)
    (ha : a.toNat < s.memSize) :
    ∃ (r : State) (w : Fin 4), ReadyToHit a w s r ∧
      ∀ (c : Control) (d : Word), exec (memInstr c a d) s = .next (accessed (accessOf c a d) w r) := by
  cases hm : hitWay (l1SetAt s.l1 (addrL1 a).setIndex) (addrL1 a).tag with
  | some w =>
    refine ⟨s, w, .of_hit hm, fun c d => ?_⟩
    rw [exec_memInstr_of_idle c a d hidle, memAccess_hit Config.params (q := accessOf c a d) hm]
  | none =>
    exact ⟨refilled Config.params a s, fillWay s a, .of_miss rfl h ha hm, fun c d =>
      exec_memInstr_miss c d hidle h ha hm⟩

/-- R174: read-enabled, the access returns what the requester saw. -/
theorem ReadyToHit.accessed_result {q : Access} {w : Fin 4} {s r : State} (hr : ReadyToHit q.address w s r) :
    (accessed q w r).result = .memAccess (if q.control.read then some (view s q.address) else none) := by
  rw [Machine.accessed_result hr.hits, hr.sameView]

/-- R68 (i): without write-enable the access changes no word of the view. -/
theorem ReadyToHit.view_of_not_write {q : Access} (hw : q.control.write = false) {w : Fin 4} {s r : State}
    (hr : ReadyToHit q.address w s r) (b : Addr) : view (accessed q w r) b = view s b := by
  rw [accessed_view hr.hits, if_neg (by simp [hw]), hr.sameView]

/-- R68 (i): with it the word of the address is the new one, and the others stay. -/
theorem ReadyToHit.view_of_write {q : Access} (hw : q.control.write = true) {w : Fin 4} {s r : State}
    (hr : ReadyToHit q.address w s r) (b : Addr) :
    (sameWord q.address b → view (accessed q w r) b = q.writeData) ∧
      (¬ sameWord q.address b → view (accessed q w r) b = view s b) := by
  rw [accessed_view hr.hits, hr.sameView]
  exact ⟨fun hb => if_pos ⟨hw, hb⟩, fun hb => if_neg fun hx => hb hx.2⟩

/-- Settles O33: MEM_TOUCH and MEM_READ touch the line alike, and one of them returns the word. -/
theorem memTouchReferencesLine : Obligations.MemTouchReferencesLine := by
  intro a s hidle h
  refine ⟨fun ha => ?_, exec_memInstr_outOfRange .neither a 0 hidle h⟩
  obtain ⟨r, w, hr, hexec⟩ := exec_memInstr_ready hidle h ha
  exact ⟨_, _, w, hexec .neither 0, hr.endedAccess (q := accessOf .neither a 0), rfl,
    hr.view_of_not_write (q := accessOf .neither a 0) rfl, hexec .readOnly 0, rfl⟩

/-- Settles O34: the access returns the view and moves none of it. -/
theorem memReadReturnsView : Obligations.MemReadReturnsView := by
  intro a s hidle h
  refine ⟨fun ha => ?_, exec_memInstr_outOfRange .readOnly a 0 hidle h⟩
  obtain ⟨r, w, hr, hexec⟩ := exec_memInstr_ready hidle h ha
  exact ⟨_, w, hexec .readOnly 0, hr.endedAccess (q := accessOf .readOnly a 0),
    hr.accessed_result (q := accessOf .readOnly a 0), hr.view_of_not_write (q := accessOf .readOnly a 0) rfl⟩

/-- Settles O35: the word goes into the line that hits; behind L1 stands what the ready state has there. -/
theorem memWriteStoresInL1 : Obligations.MemWriteStoresInL1 := by
  intro a d s hidle h
  refine ⟨fun ha => ?_, exec_memInstr_outOfRange .writeOnly a d hidle h⟩
  obtain ⟨r, w, hr, hexec⟩ := exec_memInstr_ready hidle h ha
  exact ⟨_, w, hexec .writeOnly d, hr.endedAccess (q := accessOf .writeOnly a d), rfl,
    accessed_storedWord (q := accessOf .writeOnly a d) rfl w r, ⟨_, hexec .readOnly 0, rfl, rfl⟩,
    hr.view_of_write (q := accessOf .writeOnly a d) rfl⟩

/-- Settles O36: as O35, and the result is the view of the state before. -/
theorem memRdwrExchanges : Obligations.MemRdwrExchanges := by
  intro a d s hidle h
  refine ⟨fun ha => ?_, exec_memInstr_outOfRange .both a d hidle h⟩
  obtain ⟨r, w, hr, hexec⟩ := exec_memInstr_ready hidle h ha
  exact ⟨_, w, hexec .both d, hr.endedAccess (q := accessOf .both a d),
    hr.accessed_result (q := accessOf .both a d), accessed_storedWord (q := accessOf .both a d) rfl w r,
    ⟨_, hexec .readOnly 0, rfl, rfl⟩, hr.view_of_write (q := accessOf .both a d) rfl⟩

/-! ### The miss counters (R175) -/

/-- Settles O49: in range the ready state has the counts; out of range neither cache holds the line, and both count. -/
theorem missCountersCountMisses : Obligations.MissCountersCountMisses := by
  refine ⟨fun c a d s hidle h => ?_, fun i s t hmem hinit ht => ?_⟩
  · by_cases ha : a.toNat < s.memSize
    · obtain ⟨r, w, hr, hexec⟩ := exec_memInstr_ready hidle h ha
      exact ⟨_, hexec c d, hr.l1MissCount, hr.l2MissCount⟩
    · obtain ⟨t, ht, hf⟩ := exec_memInstr_outOfRange c a d hidle h (not_lt.1 ha)
      obtain ⟨hl1, hl2⟩ := misses_of_outOfRange h (not_lt.1 ha)
      refine ⟨t, ht, ?_, ?_⟩
      · rw [hf.l1MissCount, inL1_eq_false_iff.2 hl1]
        rfl
      · rw [hf.l2MissCount, inL1_eq_false_iff.2 hl1, inL2_eq_false_iff.2 hl2]
        rfl
  · cases exec_answered ht with
    | access c a d => exact absurd rfl (hmem c a d)
    | tick => exact ⟨rfl, rfl⟩
    | init size => exact absurd rfl (hinit size)
    | internal _ _ _ heffect => exact ⟨heffect.l1MissCount, heffect.l2MissCount⟩
    | function r => exact ⟨rfl, rfl⟩

/-! ### What a miss moves (R168 to R170) -/

/-- P2 to P4: the entry at the index of `a` is Main Memory's line if L2 missed; the others stay. -/
theorem fetched_l2At (a : Addr) (s : State) (i : BitVec 15) :
    l2At (fetched a s).l2 i =
      if inL2 s a = false ∧ i = (addrL2 a).index then l2Filled (addrL2 a).tag (mmLine s.mm (addrWordIdx a))
      else l2At s.l2 i := by
  cases ha : inL2 s a with
  | true => rw [fetched_of_inL2 ha, if_neg (by simp)]
  | false => simp only [(fetched_of_not_inL2 ha).1, l2At_l2Put, true_and]

theorem fetched_mm (a : Addr) (s : State) :
    (fetched a s).mm = if inL2 s a then s.mm else displaced s.l2 s.mm (addrL2 a).index := by
  cases ha : inL2 s a with
  | true => rw [fetched_of_inL2 ha, if_pos rfl]
  | false => simp only [(fetched_of_not_inL2 ha).2, Bool.false_eq_true, if_false]

/-- P2 to P8: a dirty victim's line ends at its index; the rest of L2 is as the fetch left it. -/
theorem refilled_l2At (p : Params) (a : Addr) (s : State) (i : BitVec 15) :
    l2At (refilled p a s).l2 i =
      if dirtyVictim s a ∧ i = (addrL2 (victimAddress s a)).index then
        { valid := true, dirty := true, tag := (addrL2 (victimAddress s a)).tag, line := (victim s a).line }
      else l2At (fetched a s.countL1Miss).l2 i := by
  by_cases hd : dirtyVictim s a
  · rw [refilled_of_dirtyVictim p hd, writtenBack_l2At]
    exact if_congr (and_iff_right hd).symm rfl rfl
  · rw [refilled_of_not_dirtyVictim p hd, if_neg fun hx => hd hx.1, State.withL1_l2]

/-- R28: lines of entries at two indices share no word. -/
theorem lines_disjoint_of_index_ne {i j : BitVec 15} (hij : i ≠ j) (t u : BitVec 12) (k : BitVec 3) :
    addrWordIdx (addrL2Evict t i) + k.toNat < addrWordIdx (addrL2Evict u j) ∨
      addrWordIdx (addrL2Evict u j) + 8 ≤ addrWordIdx (addrL2Evict t i) + k.toNat := by
  have hne : i.toNat ≠ j.toNat := fun e => hij (BitVec.eq_of_toNat_eq e)
  have hi := i.isLt
  have hj := j.isLt
  have hk := k.isLt
  rw [addrWordIdx_eq, addrWordIdx_eq, addrL2Evict_div, addrL2Evict_div]
  omega

/-- `m` is `mm` with the lines of the entries `P` of `l2` written to it. -/
structure WrittenFrom (l2 : L2Array) (mm : Memory) (P : BitVec 15 → Prop) (m : Memory) : Prop where
  written : ∀ i : BitVec 15, P i → ∀ k : BitVec 3,
    mmWord m (addrWordIdx (addrL2Evict (l2At l2 i).tag i) + k.toNat) = lineWord (l2At l2 i).line k
  others : ∀ j : Nat, (∀ i : BitVec 15, P i →
      j < addrWordIdx (addrL2Evict (l2At l2 i).tag i) ∨ addrWordIdx (addrL2Evict (l2At l2 i).tag i) + 8 ≤ j) →
    mmWord m j = mmWord mm j

namespace WrittenFrom

variable {l2 : L2Array} {mm m : Memory} {P Q : BitVec 15 → Prop}

theorem nothing (l2 : L2Array) (mm : Memory) : WrittenFrom l2 mm (fun _ => False) mm :=
  ⟨fun _ hi => hi.elim, fun _ _ => rfl⟩

theorem congr (h : WrittenFrom l2 mm P m) (hPQ : ∀ i, P i ↔ Q i) : WrittenFrom l2 mm Q m :=
  funext (fun i => propext (hPQ i)) ▸ h

/-- R170: entry `i` displaced after the lines of `P` were written. The array `l2'` may have changed since, but where
entry `i` is dirty it is the one of `l2`. -/
theorem displace (h : WrittenFrom l2 mm P m) {l2' : L2Array} {i : BitVec 15}
    (hi : (l2At l2' i).dirty = true → l2At l2' i = l2At l2 i) :
    WrittenFrom l2 mm (fun j => P j ∨ j = i ∧ (l2At l2' i).valid = true ∧ (l2At l2' i).dirty = true)
      (displaced l2' m i) where
  written j hj k := by
    by_cases hji : j = i ∧ (l2At l2' i).valid = true ∧ (l2At l2' i).dirty = true
    · obtain ⟨rfl, hv, hd⟩ := hji
      rw [← hi hd]
      exact mmWord_displaced_in m hv hd k
    · rw [mmWord_displaced_out, h.written j (hj.resolve_right hji)]
      exact fun hv hd => lines_disjoint_of_index_ne (fun e => hji ⟨e, hv, hd⟩) _ _ k
  others j hj := by
    rw [mmWord_displaced_out, h.others j fun x hx => hj x (.inl hx)]
    intro hv hd
    rw [hi hd]
    exact hj i (.inr ⟨rfl, hv, hd⟩)

/-- The same where `kept` says that nothing is displaced. -/
theorem displace_unless (h : WrittenFrom l2 mm P m) {l2' : L2Array} {i : BitVec 15} (kept : Bool)
    (hi : (l2At l2' i).dirty = true → l2At l2' i = l2At l2 i) :
    WrittenFrom l2 mm
      (fun j => P j ∨ kept = false ∧ j = i ∧ (l2At l2' i).valid = true ∧ (l2At l2' i).dirty = true)
      (if kept then m else displaced l2' m i) := by
  cases kept with
  | true => exact h.congr fun j => by simp
  | false => exact (h.displace hi).congr fun j => by simp

end WrittenFrom

/-- The entry that the fetch of `a` writes to Main Memory (P3). -/
def WrittenByFetch (s : State) (a : Addr) (i : BitVec 15) : Prop :=
  inL2 s a = false ∧ i = (addrL2 a).index ∧ (l2At s.l2 i).valid = true ∧ (l2At s.l2 i).dirty = true

theorem fetched_writtenFrom (a : Addr) (s : State) :
    WrittenFrom s.l2 s.mm (WrittenByFetch s a) (fetched a s).mm := by
  rw [fetched_mm]
  refine ((WrittenFrom.nothing s.l2 s.mm).displace_unless (inL2 s a) fun _ => rfl).congr fun i => ?_
  rw [false_or]
  exact and_congr_right fun _ => and_congr_right fun hi => by rw [hi]

/-- P3 leaves no dirty entry of its own making. -/
theorem fetched_l2At_of_dirty {a : Addr} {s : State} {i : BitVec 15} (h : (l2At (fetched a s).l2 i).dirty = true) :
    l2At (fetched a s).l2 i = l2At s.l2 i := by
  rw [fetched_l2At] at h ⊢
  split
  · next hf =>
    rw [if_pos hf] at h
    cases h
  · rfl

/-- R170: what P3 writes to Main Memory and what P7 then does are together what `writtenToMemory` names. -/
theorem writtenToMemory_iff {a : Addr} {s : State} (hd : dirtyVictim s a) (i : BitVec 15) :
    (WrittenByFetch s a i ∨ inL2 (fetched a s) (victimAddress s a) = false ∧ i = (addrL2 (victimAddress s a)).index ∧
      (l2At (fetched a s).l2 (addrL2 (victimAddress s a)).index).valid = true ∧
      (l2At (fetched a s).l2 (addrL2 (victimAddress s a)).index).dirty = true) ↔ writtenToMemory s a i := by
  rw [inL2_eq_false_iff, l2Lookup_eq_none]
  constructor
  · rintro (⟨hin, rfl, hv, hdirty⟩ | ⟨htag, rfl, hv, hdirty⟩)
    · exact ⟨hv, hdirty, .inl ⟨rfl, hin⟩⟩
    · have hsame := fetched_l2At_of_dirty hdirty
      rw [hsame] at hv hdirty htag
      exact ⟨hv, hdirty, .inr ⟨hd, rfl, htag hv⟩⟩
  · rintro ⟨hv, hdirty, ⟨rfl, hin⟩ | ⟨-, rfl, htag⟩⟩
    · exact .inl ⟨hin, rfl, hv, hdirty⟩
    · by_cases hf : inL2 s a = false ∧ (addrL2 (victimAddress s a)).index = (addrL2 a).index
      · exact .inl ⟨hf.1, hf.2, hv, hdirty⟩
      · rw [fetched_l2At, if_neg hf]
        exact .inr ⟨fun _ => htag, rfl, hv, hdirty⟩

/-- R170: a refill writes to Main Memory the lines `writtenToMemory` names and nothing else. -/
theorem refilled_writtenFrom (p : Params) (a : Addr) (s : State) :
    WrittenFrom s.l2 s.mm (writtenToMemory s a) (refilled p a s).mm := by
  have hfetch := fetched_writtenFrom a s.countL1Miss
  by_cases hd : dirtyVictim s a
  · rw [refilled_of_dirtyVictim p hd, writtenBack_mm]
    exact (hfetch.displace_unless _ fetched_l2At_of_dirty).congr (writtenToMemory_iff (s := s.countL1Miss) hd)
  · rw [refilled_of_not_dirtyVictim p hd]
    refine hfetch.congr fun i => ⟨fun ⟨hin, hi, hv, hdirty⟩ => ⟨hv, hdirty, .inl ⟨hi, hin⟩⟩, ?_⟩
    rintro ⟨hv, hdirty, ⟨hi, hin⟩ | ⟨hd', -⟩⟩
    · exact ⟨hin, hi, hv, hdirty⟩
    · exact absurd hd' hd

/-- Settles O37: L1 as the access that ends well leaves it, L2 entry by entry, Main Memory line by line. -/
theorem missMovesNamedLinesOnly : Obligations.MissMovesNamedLinesOnly := by
  intro c a d s hidle h ha hin
  have hm := inL1_eq_false_iff.1 hin
  have hended := (ReadyToHit.of_miss (p := Config.params) rfl h ha hm).endedAccess (q := accessOf c a d)
  have hl2 := refilled_l2At Config.params a s
  have hmm := refilled_writtenFrom Config.params a s
  refine ⟨_, _, exec_memInstr_miss c d hidle h ha hm, rfl, hended.tag, hended.otherWays, fun i hia hiv => ?_,
    fun hd => ?_, fun hne => ?_, fun hd hin2 => ?_, hmm.written, hmm.others⟩
  · rw [accessed_l2, hl2, if_neg fun hx => hiv hx.1 hx.2, fetched_l2At_other a s.countL1Miss hia]
    rfl
  · rw [accessed_l2, hl2, if_pos ⟨hd, rfl⟩]
  · rw [accessed_l2, hl2, if_neg fun hx => hne hx.1 hx.2.symm]
    refine ⟨fun hin2 => ?_, fun hin2 => ?_⟩
    · rw [fetched_of_inL2 (s := s.countL1Miss) hin2]
      rfl
    · rw [fetched_l2At, if_pos ⟨hin2, rfl⟩]
      exact ⟨rfl, rfl, rfl, lineWord_mmLine s.mm _⟩
  · rw [accessed_l2, accessed_mm, refilled_of_not_dirtyVictim _ hd, fetched_of_inL2 (s := s.countL1Miss) hin2]
    exact ⟨rfl, rfl⟩

/-! ### CLOCK_TICK, control and the scratch line -/

/-- Settles O38: the tick ages each entry of L1; the phase it ends in is the one it was accepted in. -/
theorem clockTickClearsReferenceBits : Obligations.ClockTickClearsReferenceBits := by
  intro s hidle
  refine ⟨tick s, exec_clockTick hidle, ?_, rfl, l1At_l1ClearRef s.l1⟩
  exact ⟨rfl, rfl, rfl, rfl, rfl, hidle.symm, rfl, rfl, rfl⟩

/-- Settles O53: each of the ten sub-phases moves on. -/
theorem controlMovesForward : Obligations.ControlMovesForward :=
  fun p q _ h => (microStep_movesOn p q h).rank

/-- P7, P8: the write-back's retry overwrites the scratch line. -/
theorem writtenBack_scratchLine (b : Bool) (f g : Nat → Line) (e : Evicted) (s : State) :
    writtenBack { countWritebackL2Miss := b, scratchLine := f } e s =
      writtenBack { countWritebackL2Miss := b, scratchLine := g } e s := by
  unfold writtenBack
  cases l2Lookup e.address s.l2 with
  | some _ => rfl
  | none =>
    simp only [l2Put_l2Put]
    rfl

/-- Settles O54: of the cases of a MEM_ACCESS only the write-back of a dirty victim draws a scratch line. -/
theorem scratchLineNeverSurvives : Obligations.ScratchLineNeverSurvives := by
  intro b f g q s _ h
  obtain ⟨w, -, hq⟩ | ⟨-, -, hq⟩ | ⟨-, hq⟩ := memAccess_cases q h
  · rw [hq, hq]
  · rw [hq, hq]
    by_cases hd : dirtyVictim s q.address
    · rw [refilled_of_dirtyVictim _ hd, refilled_of_dirtyVictim _ hd, writtenBack_scratchLine b f g]
    · rw [refilled_of_not_dirtyVictim _ hd, refilled_of_not_dirtyVictim _ hd]
  · rw [hq, hq]

end Sys2Proof.Machine

/-! PROOFS. The statements of spec/60_exceptions.md: when a MEM_ACCESS faults and in what state (O45, O46), which
operation can raise what (O48), and that INIT alone leaves FAULTED (O51). -/

namespace Sys2Proof.Machine

/-! ### The fault of a MEM_ACCESS (R198, R199) -/

/-- Settles O45: in range the ready state still has the old record and the access ends IDLE; out of range is R198. -/
theorem accessFaultsExactlyOutOfRange : Obligations.AccessFaultsExactlyOutOfRange := by
  intro c a d s hidle h
  by_cases ha : a.toNat < s.memSize
  · obtain ⟨r, w, hr, hexec⟩ := exec_memInstr_ready hidle h ha
    exact ⟨_, hexec c d, iff_of_false (by simp) (not_le.2 ha), fun hne => absurd hr.fault hne⟩
  · have hout := not_lt.1 ha
    obtain ⟨t, ht, hf⟩ := exec_memInstr_outOfRange c a d hidle h hout
    exact ⟨t, ht, iff_of_true hf.phase hout, fun _ => hout⟩

/-- Settles O46: R198's state is reached whatever the control. -/
theorem outOfRangeFaultState : Obligations.OutOfRangeFaultState := by
  intro c a d s hidle h hout
  obtain ⟨t, ht, hf⟩ := exec_memInstr_outOfRange c a d hidle h hout
  exact ⟨t, ht, hf, rfl⟩

/-! ### Which operation can raise what (R195) -/

/-- R195: the operations that can raise, each with the one fault record it can raise. -/
inductive MayRaise : Instr → FaultRecord → Prop
  | init (size : Nat) : MayRaise (.init size) (configError size)
  | mmInit (size : Nat) : MayRaise (.mmInit size) (configError size)
  | access (c : Control) (a : Addr) (d : Word) : MayRaise (memInstr c a d) (outOfRange a)
  | mmAccess (c : Control) (a : Addr) (l : Line) : MayRaise (.mmAccess c a l) (outOfRange a)
  | l2missR (a : Addr) : MayRaise (.l2missR a) (outOfRange a)

/-- A fault recorded in `t` is one that operation `i` can raise. -/
def FaultIsOf (i : Instr) (t : State) : Prop := ∀ f, t.fault = some f → MayRaise i f

theorem FaultIsOf.of_none {i : Instr} {t : State} (h : t.fault = none) : FaultIsOf i t := fun f hf => by
  rw [h] at hf
  cases hf

theorem FaultIsOf.raise {i : Instr} {f : FaultRecord} (h : MayRaise i f) (s : State) : FaultIsOf i (raise f s) := by
  rintro _ ⟨⟩
  exact h

section
variable {s : State} (h : Coherent s) (hnone : s.fault = none)
include h hnone

/-- R173: of the cases of a MEM_ACCESS only the one out of range records a fault. -/
theorem memAccess_faultIsOf (p : Params) (c : Control) (a : Addr) (d : Word) :
    FaultIsOf (memInstr c a d) (memAccess p (accessOf c a d) s) := by
  obtain ⟨w, -, hq⟩ | ⟨-, -, hq⟩ | ⟨-, hq⟩ := memAccess_cases (accessOf c a d) h <;> rw [hq p]
  · exact .of_none hnone
  · exact .of_none ((refilled_fault p a s).trans hnone)
  · exact .raise (.access c a d) _

/-- R195: of the internal operations MM.ACCESS, MM.INIT and L2MISS.R alone raise. A displaced dirty line is in range
(R70), so the handlers' write of it raises nothing. -/
theorem exec_internal_faultIsOf {i : Instr} {t : State} (he : i.isExternal = false) (hc : i.isCombinational = false)
    (hphase : acceptsInternal s.phase = true) (ht : exec i s = .next t) : FaultIsOf i t := by
  cases i with
  | memTouch | memRead | memWrite | memRdwr | clockTick | init => cases he
  | addrL1 | addrL2 | addrLine | addrWordidx | addrL1Evict | addrL2Evict | nruSelect => cases hc
  | l1Access | l1InsertLine | l1Init | l1ClearRef | l2Access | l2InsertLine | l2Init =>
    obtain ⟨-, rfl⟩ := whenInitialised_eq_next.1 ht
    exact .of_none hnone
  | l2missR a =>
    by_cases ha : a.toNat < s.memSize
    · rw [exec_l2missR_inRange hphase (fun hv _ => h.l2InRange _ hv) ha] at ht
      cases ht
      exact .of_none hnone
    · rw [exec_l2missR_outOfRange hphase (not_lt.1 ha)] at ht
      cases ht
      exact .raise (.l2missR a) s
  | l2missW a =>
    rw [exec_l2missW hphase fun hv _ => h.l2InRange _ hv] at ht
    cases ht
    exact .of_none hnone
  | mmAccess c a l =>
    by_cases ha : a.toNat < s.memSize
    · rw [exec_mmAccess_inRange c l hphase ha] at ht
      cases ht
      exact .of_none hnone
    · rw [exec_mmAccess_outOfRange c l hphase (not_lt.1 ha)] at ht
      cases ht
      exact .raise (.mmAccess c a l) s
  | mmInit size =>
    by_cases hsize : size % 32 = 0
    · rw [exec_mmInit_of_sizeAligned hphase hsize] at ht
      cases ht
      exact .of_none hnone
    · rw [exec_mmInit_of_not_sizeAligned hphase hsize] at ht
      cases ht
      exact .raise (.mmInit size) s

end

/-- R45, R176: INIT clears the record or raises ConfigError of its size, from any state. -/
theorem initialise_faultIsOf (size : Nat) (s : State) : FaultIsOf (.init size) (initialise size s) := by
  by_cases hsize : size % 32 = 0
  · rw [initialise_of_sizeAligned hsize]
    exact .of_none rfl
  · rw [initialise_of_not_sizeAligned hsize]
    exact .raise (.init size) s

/-- R195: in a coherent state with no fault recorded, an operation records only faults it can raise. -/
theorem exec_faultIsOf {i : Instr} {s t : State} (h : Coherent s) (hnone : s.fault = none) (ht : exec i s = .next t) :
    FaultIsOf i t := by
  cases exec_answered ht with
  | access c a d => exact memAccess_faultIsOf h hnone _ c a d
  | tick => exact .of_none hnone
  | init size => exact initialise_faultIsOf size s
  | internal he hc hphase => exact exec_internal_faultIsOf h hnone he hc hphase ht
  | function r => exact .of_none hnone

/-- Settles O48: the record is one that `MayRaise` lists for the operation. -/
theorem operationsRaiseOnlyTheirFaults : Obligations.OperationsRaiseOnlyTheirFaults := by
  intro i s t h hnone ht hfault
  obtain ⟨f, hf⟩ := Option.ne_none_iff_exists'.1 hfault
  cases exec_faultIsOf h hnone ht f hf with
  | init size => exact .inl ⟨size, .inl rfl, hf⟩
  | mmInit size => exact .inl ⟨size, .inr rfl, hf⟩
  | access c a d => exact .inr ⟨a, .inl ⟨c, d, rfl⟩, hf⟩
  | mmAccess c a l => exact .inr ⟨a, .inr (.inl ⟨c, l, rfl⟩), hf⟩
  | l2missR a => exact .inr ⟨a, .inr (.inr rfl), hf⟩

/-! ### Leaving FAULTED (R200) -/

/-- Settles O51: MEM_ACCESS and CLOCK_TICK are accepted in IDLE only; INIT ends as its size says. -/
theorem onlyInitLeavesFaulted : Obligations.OnlyInitLeavesFaulted := by
  intro i s t hfaulted hext ht
  have hnotIdle : s.phase ≠ .idle := by simp [hfaulted]
  cases exec_answered ht with
  | access _ _ _ hidle => exact absurd hidle hnotIdle
  | tick hidle => exact absurd hidle hnotIdle
  | init size =>
    refine ⟨size, rfl, fun hsize => ?_, fun hsize => ?_⟩
    · rw [initialise_of_sizeAligned hsize]
      exact ⟨rfl, rfl⟩
    · rw [initialise_of_not_sizeAligned hsize]
      exact ⟨rfl, rfl⟩
  | internal he => simp [he] at hext
  | function _ he => simp [he] at hext

end Sys2Proof.Machine

/-! PROOFS. The statements of spec/70_reset_and_hazards.md: which external operation is accepted in which phase (O41). -/

namespace Sys2Proof.Machine

theorem whenIdle_of_not_idle {s n : State} (h : s.phase ≠ .idle) : whenIdle s n = .refused (.notAccepted s.phase) := by
  unfold whenIdle
  rw [if_neg h]

theorem whenAtRest_of_not_accepts {s n : State} (h : acceptsInit s.phase = false) :
    whenAtRest s n = .refused (.notAccepted s.phase) := by
  unfold whenAtRest
  rw [if_neg (Bool.eq_false_iff.1 h)]

/-- R222: an external operation other than INIT is accepted in IDLE only. -/
theorem exec_external_of_not_init {i : Instr} (he : i.isExternal = true) (hinit : ∀ size, i ≠ .init size) (s : State) :
    ∃ n, exec i s = whenIdle s n := by
  obtain ⟨c, a, d, rfl⟩ | rfl | ⟨size, rfl⟩ := external_cases he
  · exact ⟨_, exec_memInstr c a d s⟩
  · exact ⟨tick s, rfl⟩
  · exact absurd rfl (hinit size)

/-- Settles O41: INIT is guarded by `whenAtRest`, every other external operation by `whenIdle`. -/
theorem acceptedOperationsByPhase : Obligations.AcceptedOperationsByPhase := by
  intro i s he
  by_cases hinit : ∃ size, i = .init size
  · obtain ⟨size, rfl⟩ := hinit
    have haccepted (h : acceptsInit s.phase = true) : ∃ t, exec (.init size) s = .next t :=
      ⟨initialise size s, whenAtRest_of_accepts h⟩
    refine ⟨fun hp => haccepted (by rw [hp]; rfl), fun hp => ⟨fun _ => haccepted ?_, fun hne => absurd rfl (hne size)⟩,
      fun p hp => whenAtRest_of_not_accepts (by rw [hp]; rfl)⟩
    rcases hp with hp | hp <;> rw [hp] <;> rfl
  · obtain ⟨n, hn⟩ := exec_external_of_not_init he (not_exists.1 hinit) s
    have hrefused (h : s.phase ≠ .idle) : exec i s = .refused (.notAccepted s.phase) :=
      hn.trans (whenIdle_of_not_idle h)
    refine ⟨fun hp => ⟨n, hn.trans (whenIdle_of_idle hp)⟩,
      fun hp => ⟨fun h => absurd h hinit, fun _ => hrefused ?_⟩, fun p hp => hrefused (by simp [hp])⟩
    rcases hp with hp | hp <;> simp [hp]

end Sys2Proof.Machine
